-- ==== Sys2Proof/Word.lean ====
section
/-! DEFINITION. The word types. An XLEN-bit value (00_scope.md section 4: XLEN is 32 or 64) is held in 64 bits;
with XLEN = 32 its upper half is zero. -/

namespace Sys2Proof

/-- An XLEN-bit value of an integer register, the program counter or a CSR as an instruction sees it. -/
abbrev Word := BitVec 64

/-- One byte of memory. -/
abbrev Byte := BitVec 8

/-- An instruction word (30_encoding.md R80: every instruction is 32 bits long). -/
abbrev InstrWord := BitVec 32

end Sys2Proof
end

