-- ==== Sys2Proof/Syntax.lean ====
section
/-! DEFINITION. The instructions (one constructor for each row of spec/opcode_table.json) and the names of the
registers a CSR instruction can reach. -/

namespace Sys2Proof

/-- A seven-row instruction set (30_encoding.md R83). The fields are those of the CSR-instruction format (R81); their
ranges are carried by their types, so every term is an instruction. The `csr` field stays the raw 12-bit number:
whether a CSR of that number exists is decided at execution (41_vs_csr_access.md R120). -/
inductive Instr where
  /-- R101, atomic read/write CSR. -/
  | csrrw (rd : BitVec 5) (csr : BitVec 12) (rs1 : BitVec 5)
  /-- R102, atomic read and set bits. -/
  | csrrs (rd : BitVec 5) (csr : BitVec 12) (rs1 : BitVec 5)
  /-- R103, atomic read and clear bits. -/
  | csrrc (rd : BitVec 5) (csr : BitVec 12) (rs1 : BitVec 5)
  /-- R104, read/write with the immediate. -/
  | csrrwi (rd : BitVec 5) (csr : BitVec 12) (uimm : BitVec 5)
  /-- R105, read and set with the immediate. -/
  | csrrsi (rd : BitVec 5) (csr : BitVec 12) (uimm : BitVec 5)
  /-- R106, read and clear with the immediate. -/
  | csrrci (rd : BitVec 5) (csr : BitVec 12) (uimm : BitVec 5)
  /-- R176, return from a trap. -/
  | sret
  deriving DecidableEq, Repr

/-- The hypervisor and VS registers of 30_encoding.md R84, each under the name of its own number. -/
inductive Csr where
  | hstatus | hideleg | hie | hvien | hvictl | hidelegh | hvienh | hip | hvip | hviprio1 | hviprio2
  | hviph | hviprio1h | hviprio2h
  | vsstatus | vsie | vstvec | vsieh | vsepc | vscause | vstval | vsip | vstimecmp | vsiselect | vsireg
  | vsiph | vstopei | vstimecmph | vstopi
  deriving DecidableEq, Repr

/-- What a CSR number of R84 names: a register by its own number, or the supervisor register that this VS register
substitutes for when V = 1 (R121; `sup .vsip` is `sip`). -/
inductive CsrName where
  | own (c : Csr)
  | sup (c : Csr)
  deriving DecidableEq, Repr

end Sys2Proof
end

