-- ==== Sys2Proof/Config.lean ====
section
/-! DEFINITION. The implementation parameters of 00_scope.md section 4 as one plain record, the named configurations
of 95_test_vectors.md, and the one free value (`draw` of 00_scope.md section 5). A machine state carries its record
(State.cfg); no step changes it, and every statement is about every record that Config.wf accepts. -/

namespace Sys2Proof

/-- XLEN, with HSXLEN = VSXLEN = XLEN (92_eei_decisions.md D19). -/
inductive Xlen where
  | rv32
  | rv64
  deriving DecidableEq, Repr

/-- The implementation parameters (00_scope.md section 4, 92_eei_decisions.md section 5). -/
structure Config where
  /-- XLEN: 32 or 64. -/
  xlen : Xlen
  /-- HAS_IMSIC. -/
  hasImsic : Bool
  /-- GEILEN: the guest interrupt files are numbered 1..GEILEN. -/
  geilen : Nat
  /-- NUM_IDS: the identities of an interrupt file are 1..NUM_IDS-1 (R47). -/
  numIds : Nat
  /-- IPRIOLEN (91_not_in_source.md N6). -/
  ipriolen : Nat
  /-- HVIPRIO_BITS: the integer bits of an implemented priority-number field (R22). -/
  hviprioBits : Nat
  /-- HVIPRIO_IMPL as a mask over interrupt numbers (R22). -/
  hviprioImpl : BitVec 64
  /-- IID_BITS: the implemented bits k of hvictl.IID (R18). -/
  iidBits : Nat
  /-- HVIEN_W: the writable bits of hvien (R15). -/
  hvienW : BitVec 64
  /-- HVIEN_RO1: the read-only-one bits of hvien (R15, R36). -/
  hvienRO1 : BitVec 64
  /-- HIDELEG_W: the writable bits of hideleg (R14). -/
  hidelegW : BitVec 64
  /-- SIP_W: the bits of sip a supervisor-level write can change (R25). -/
  sipW : BitVec 64
  /-- SIE_W: the bits of sie a supervisor-level write can change (R25). -/
  sieW : BitVec 64
  /-- VSISELECT_BITS: the low bits of vsiselect that hold what is written (R38). -/
  vsiselectBits : Nat
  /-- HAS_SSTC: vstimecmp is implemented. -/
  hasSstc : Bool
  /-- VTI_WRITE_TRAP_CSRS: further CSR numbers a write to which may clear a bit of vsip (R136). -/
  vtiWriteTrapCsrs : List (BitVec 12)
  /-- The numbers of CSRs that this hart has and the spec does not describe (R86, R122: existence decides
  clause 1 of R120). -/
  otherCsrs : List (BitVec 12)
  /-- DefaultRank: the interrupt numbers 0..63 from highest to lowest default priority (R157). -/
  defaultRank : List Nat
  /-- VSCAUSE_CODE_BITS (R42). -/
  vscauseCodeBits : Nat
  /-- FileAddr: the page address of guest interrupt file g stands at index g - 1 (R70, D3). -/
  fileAddr : List Nat
  /-- The number by which IommuMap names this hart (R63). -/
  hartId : Nat
  /-- The platform-defined reset address (R201). -/
  resetPc : Word
  deriving DecidableEq, Repr

/-- XLEN as a number. -/
def Config.xlenBits (c : Config) : Nat :=
  match c.xlen with
  | .rv32 => 32
  | .rv64 => 64

/-- The bits an XLEN-bit value may have. -/
def Config.xmask (c : Config) : Word :=
  match c.xlen with
  | .rv32 => 0xFFFFFFFF
  | .rv64 => 0xFFFFFFFFFFFFFFFF

/-- The free value: `draw` of 00_scope.md section 5. It has no body, so nothing can be proved of a value of it; a
machine applies it to a counter in its state and advances the counter, so that each draw is a fresh one. -/
opaque Config.freeValue : Nat → BitVec 64

/-- The default priority order of R157's table, from highest to lowest. The table places no rank for 0, 4, 8, 14, 15,
24-31 and 48-63; here they follow it in rising order (DESIGN CHOICE, assumption 9). -/
def Config.standardRank : List Nat :=
  [47, 23, 46, 45, 22, 44, 43, 21, 42, 41, 20, 40, 11, 3, 7, 9, 1, 5, 12, 10, 2, 6, 13,
   39, 19, 38, 37, 18, 36, 35, 17, 34, 33, 16, 32] ++
  [0, 4, 8, 14, 15, 24, 25, 26, 27, 28, 29, 30, 31,
   48, 49, 50, 51, 52, 53, 54, 55, 56, 57, 58, 59, 60, 61, 62, 63]

/-- CFG-A of 95_test_vectors.md. -/
def Config.cfgA : Config where
  xlen := .rv64
  hasImsic := true
  geilen := 3
  numIds := 64
  ipriolen := 6
  hviprioBits := 8
  hviprioImpl := 0xFFE022
  iidBits := 6
  hvienW := 0xFFFFFFFFFFFFE000
  hvienRO1 := 0
  hidelegW := 0xFFFFFFFFFFFFE444
  sipW := 0xFFFFFFFFFFFFE000
  sieW := 0xFFFFFFFFFFFFE000
  vsiselectBits := 12
  hasSstc := true
  vtiWriteTrapCsrs := []
  otherCsrs := []
  defaultRank := Config.standardRank
  vscauseCodeBits := 12
  fileAddr := [0x28001000, 0x28002000, 0x28003000]
  hartId := 0
  resetPc := 0

/-- CFG-B of 95_test_vectors.md: RV32, no IMSIC, no Sstc. SIP_W, SIE_W and NUM_IDS, which it does not list, are those
of CFG-A. -/
def Config.cfgB : Config :=
  { Config.cfgA with
    xlen := .rv32
    hasImsic := false
    geilen := 0
    hviprioBits := 6
    hviprioImpl := 0x2022
    iidBits := 12
    hvienW := 0x0000FFFFFFFFE000
    hidelegW := 0x0000FFFFFFFFE444
    vsiselectBits := 9
    hasSstc := false
    fileAddr := [] }

/-- CFG-C of 95_test_vectors.md. -/
def Config.cfgC : Config := { Config.cfgA with numIds := 512 }

end Sys2Proof
end

