-- ==== Sys2Proof/WellFormed.lean ====
section
/-! DEFINITION. Well-formed instructions and well-formed configurations. -/

namespace Sys2Proof

/-- Every term of Instr is well formed: register numbers and the immediate are 5-bit values, the CSR number a 12-bit
value, by their types (30_encoding.md R81, R82). -/
def Instr.wellFormed (_ : Instr) : Bool := true

/-- The bits 63:13 of a per-interrupt register. -/
def Config.majorBits : BitVec 64 := 0xFFFFFFFFFFFFE000

/-- The interrupt numbers with a priority-number field: 1, 5, 13-23 (R21). -/
def Config.priorityBits : BitVec 64 := 0xFFE022

/-- GEILEN fits the six bits of VGEIN, and is 0 without an IMSIC (R12, R45). -/
def Config.geilenOk (c : Config) : Bool := decide (c.geilen ≤ 63) && (c.hasImsic || c.geilen == 0)

/-- 64 <= NUM_IDS <= 2048, a multiple of 64 (R47, 00_scope.md section 4). -/
def Config.numIdsOk (c : Config) : Bool := decide (64 ≤ c.numIds) && decide (c.numIds ≤ 2048) && c.numIds % 64 == 0

/-- max(IPRIOLEN, 6) <= HVIPRIO_BITS <= 8 with IPRIOLEN in 1..8, and fields only for the interrupts of R21 (R22). -/
def Config.hviprioOk (c : Config) : Bool :=
  decide (1 ≤ c.ipriolen) && decide (c.ipriolen ≤ 8) && decide (max c.ipriolen 6 ≤ c.hviprioBits) &&
    decide (c.hviprioBits ≤ 8) && c.hviprioImpl &&& ~~~Config.priorityBits == 0

/-- 6 <= IID_BITS <= 12 (R18). -/
def Config.iidOk (c : Config) : Bool := decide (6 ≤ c.iidBits) && decide (c.iidBits ≤ 12)

/-- HVIEN_W and HVIEN_RO1 are disjoint subsets of bits 63:13 (R15). -/
def Config.hvienOk (c : Config) : Bool :=
  c.hvienW &&& ~~~Config.majorBits == 0 && c.hvienRO1 &&& ~~~Config.majorBits == 0 && c.hvienW &&& c.hvienRO1 == 0

/-- Of bits 12:0 of hideleg exactly 10, 6 and 2 are writable (R14). -/
def Config.hidelegOk (c : Config) : Bool := c.hidelegW &&& 0x1FFF == 0x444

/-- 9 <= VSISELECT_BITS <= XLEN (R38, D12). -/
def Config.vsiselectOk (c : Config) : Bool := decide (9 ≤ c.vsiselectBits) && decide (c.vsiselectBits ≤ c.xlenBits)

/-- max(IID_BITS, 6) <= VSCAUSE_CODE_BITS, the code lying below the Interrupt bit (R42, D30). -/
def Config.vscauseOk (c : Config) : Bool :=
  decide (max c.iidBits 6 ≤ c.vscauseCodeBits) && decide (c.vscauseCodeBits < c.xlenBits)

/-- DefaultRank is a strict total order on 0..63: each number stands in the list once (R157). -/
def Config.rankOk (c : Config) : Bool :=
  c.defaultRank.length == 64 && c.defaultRank.all (fun i => decide (i < 64)) && decide c.defaultRank.Nodup

/-- FileAddr is injective and 4-KiB aligned, with one page for each guest file (D3). -/
def Config.fileAddrOk (c : Config) : Bool :=
  c.fileAddr.length == c.geilen && c.fileAddr.all (fun a => a % 4096 == 0) && decide c.fileAddr.Nodup

/-- The reset address is an aligned XLEN-bit address (R54, R201). -/
def Config.resetPcOk (c : Config) : Bool := c.resetPc &&& ~~~c.xmask == 0 && c.resetPc &&& 3 == 0

/-- The constraints of 00_scope.md section 4 and 92_eei_decisions.md on the parameters. -/
def Config.wf (c : Config) : Bool :=
  c.geilenOk && c.numIdsOk && c.hviprioOk && c.iidOk && c.hvienOk && c.hidelegOk && c.vsiselectOk && c.vscauseOk &&
    c.rankOk && c.fileAddrOk && c.resetPcOk

end Sys2Proof
end

