-- ==== Sys2Proof/Decode.lean ====
section
/-! DEFINITION. The decoder, total on any bytes and rejecting by name, and the encoder (30_encoding.md R80-R83). -/

namespace Sys2Proof

/-- Why the decoder gives no instruction. -/
inductive DecodeError where
  /-- Fewer than four bytes. -/
  | truncated
  /-- Not a 32-bit instruction: bits 1:0 are not 11, or bits 4:2 are 111 (R80). -/
  | not32Bit
  /-- A major opcode other than SYSTEM (R86). -/
  | otherOpcode
  /-- funct3 = 000 and the word is not sret (R83). -/
  | otherPrivileged
  /-- funct3 = 100, reserved (R86). -/
  | reservedFunct3
  deriving DecidableEq, Repr

/-- The csr field, bits 31:20 (R81). -/
def fieldCsr (w : InstrWord) : BitVec 12 := w.extractLsb' 20 12

/-- The rs1 or uimm field, bits 19:15 (R81). -/
def fieldRs1 (w : InstrWord) : BitVec 5 := w.extractLsb' 15 5

/-- The funct3 field, bits 14:12 (R81). -/
def fieldFunct3 (w : InstrWord) : BitVec 3 := w.extractLsb' 12 3

/-- The rd field, bits 11:7 (R81). -/
def fieldRd (w : InstrWord) : BitVec 5 := w.extractLsb' 7 5

/-- The opcode field, bits 6:0 (R81). -/
def fieldOpcode (w : InstrWord) : BitVec 7 := w.extractLsb' 0 7

/-- A word with the SYSTEM opcode, by its funct3 (R83). -/
def decodeSystem (w : InstrWord) : Except DecodeError Instr :=
  if fieldFunct3 w = 1 then .ok (.csrrw (fieldRd w) (fieldCsr w) (fieldRs1 w))
  else if fieldFunct3 w = 2 then .ok (.csrrs (fieldRd w) (fieldCsr w) (fieldRs1 w))
  else if fieldFunct3 w = 3 then .ok (.csrrc (fieldRd w) (fieldCsr w) (fieldRs1 w))
  else if fieldFunct3 w = 4 then .error .reservedFunct3
  else if fieldFunct3 w = 5 then .ok (.csrrwi (fieldRd w) (fieldCsr w) (fieldRs1 w))
  else if fieldFunct3 w = 6 then .ok (.csrrsi (fieldRd w) (fieldCsr w) (fieldRs1 w))
  else if fieldFunct3 w = 7 then .ok (.csrrci (fieldRd w) (fieldCsr w) (fieldRs1 w))
  else if w = 0x10200073 then .ok .sret
  else .error .otherPrivileged

/-- The instruction of a 32-bit word (R80, R83, R86). -/
def decode (w : InstrWord) : Except DecodeError Instr :=
  if w.extractLsb' 0 2 ≠ 3 ∨ w.extractLsb' 2 3 = 7 then .error .not32Bit
  else if fieldOpcode w = 0x73 then decodeSystem w
  else .error .otherOpcode

/-- The word whose bytes, in memory order, are the four given (R80: little-endian). -/
def wordOfBytes (b0 b1 b2 b3 : Byte) : InstrWord := b3 ++ b2 ++ b1 ++ b0

/-- Byte `k` of a word in memory order (R80: little-endian). -/
def byteOfWord (w : InstrWord) (k : Nat) : Byte := w.extractLsb' (8 * k) 8

/-- The instruction at the head of a list of bytes in memory order, and the bytes after it. -/
def decodeBytes : List Byte → Except DecodeError (Instr × List Byte)
  | b0 :: b1 :: b2 :: b3 :: rest =>
    match decode (wordOfBytes b0 b1 b2 b3) with
    | .ok i => .ok (i, rest)
    | .error e => .error e
  | _ => .error .truncated

/-- A word of the CSR-instruction format (R81). -/
def encodeCsr (csr : BitVec 12) (rs1 : BitVec 5) (funct3 : BitVec 3) (rd : BitVec 5) : InstrWord :=
  csr ++ rs1 ++ funct3 ++ rd ++ (0x73 : BitVec 7)

/-- The word of an instruction (R81, R83). -/
def encode : Instr → InstrWord
  | .csrrw rd csr rs1 => encodeCsr csr rs1 1 rd
  | .csrrs rd csr rs1 => encodeCsr csr rs1 2 rd
  | .csrrc rd csr rs1 => encodeCsr csr rs1 3 rd
  | .csrrwi rd csr uimm => encodeCsr csr uimm 5 rd
  | .csrrsi rd csr uimm => encodeCsr csr uimm 6 rd
  | .csrrci rd csr uimm => encodeCsr csr uimm 7 rd
  | .sret => 0x10200073

/-- The bytes of an instruction in memory order (R80). -/
def encodeBytes (i : Instr) : List Byte :=
  [byteOfWord (encode i) 0, byteOfWord (encode i) 1, byteOfWord (encode i) 2, byteOfWord (encode i) 3]

/-- The word of the lowest `nbits` bits of `w`, every further bit zero. -/
def tableWord (nbits w : Nat) : InstrWord := BitVec.ofNat 32 (w % 2 ^ nbits)

/-- The instruction the decoder reads from the bytes of a word numbered as spec/opcode_table.json numbers it. -/
def decodeTableWord (nbits w : Nat) : Option Instr :=
  match decodeBytes [byteOfWord (tableWord nbits w) 0, byteOfWord (tableWord nbits w) 1,
      byteOfWord (tableWord nbits w) 2, byteOfWord (tableWord nbits w) 3] with
  | .ok (i, _) => some i
  | .error _ => none

end Sys2Proof
end

