-- ==== Sys2Proof/Machine/State.lean ====
section
/-! DEFINITION. The state of one physical hart (10_state.md R10), the inputs and agents around it (00_scope.md R4,
10_state.md R25), its reset, and the reasons a step can stop. -/

namespace Sys2Proof.Machine

/-- The privilege modes (R11). V = 1 exactly in VS and VU. -/
inductive Mode where
  | M | HS | U | VS | VU
  deriving DecidableEq, Repr

/-- The synchronous exceptions an instruction in scope can raise (60_exceptions.md R169). -/
inductive ExcKind where
  | illegalInstruction
  | virtualInstruction
  deriving DecidableEq, Repr

/-- The outcome record of a synchronous exception: kind, `pc`, instruction bits (R171). -/
structure TrapRecord where
  kind : ExcKind
  pc : Word
  instr : InstrWord
  deriving DecidableEq, Repr

/-- One interrupt file of the IMSIC (R47). An array holds the bit of identity n as bit n % 64 of word n / 64; there is
room for the 2048 identities a file can have at most. -/
structure IntrFile where
  /-- `eidelivery`: 1 (true) or 0; no other value is legal (R47, R129). -/
  eidelivery : Bool
  /-- `eithreshold`; 0 is no threshold (R47). -/
  eithreshold : Word
  /-- `eip`, the pending bits (R47). -/
  eip : Vector (BitVec 64) 32
  /-- `eie`, the enable bits (R47). -/
  eie : Vector (BitVec 64) 32
  deriving DecidableEq, Repr

/-- A file with every register zero. -/
def IntrFile.blank : IntrFile where
  eidelivery := false
  eithreshold := 0
  eip := Vector.replicate 32 0
  eie := Vector.replicate 32 0

/-- The fields of `hvictl` (R17). -/
structure Hvictl where
  vti : Bool
  iid : BitVec 12
  dpr : Bool
  ipriom : Bool
  iprio : BitVec 8
  deriving DecidableEq, Repr

/-- The registers outside this spec that `sret` reads (R176): `sepc`, three fields of `sstatus`, and `SPV` and `VTSR`
of `hstatus` (R12, 90_conflicts.md C3). -/
structure Outside where
  sepc : Word
  sstatusSIE : Bool
  sstatusSPIE : Bool
  sstatusSPP : Bool
  hstatusSPV : Bool
  hstatusVTSR : Bool
  deriving DecidableEq, Repr

/-- An interrupt file as IommuMap names it: a hart, and the number of a guest file of that hart (R63). -/
structure FileRef where
  hart : Nat
  file : Nat
  deriving DecidableEq, Repr

/-- One action of an agent other than the hart (R4 (b), (c)). -/
inductive Event where
  /-- `MSIWrite(GF[g], data)` by any source that names the file itself (R62, R65, R183). -/
  | msi (g : Nat) (data : BitVec 32)
  /-- A write on the physical bus: an address and the bytes stored from it on (R62, R68). -/
  | busWrite (addr : Nat) (bytes : List Byte)
  /-- A write by a guest-controlled device, which names a guest physical address (R63). -/
  | deviceWrite (gpa : Nat) (bytes : List Byte)
  /-- The hypervisor changes IommuMap at one guest physical address (R63, R206 step 3). -/
  | setIommu (gpa : Nat) (target : Option FileRef)
  /-- The rest of the hart changes `sip` (R25). -/
  | setSip (v : BitVec 64)
  /-- The rest of the hart changes `sie` (R25). -/
  | setSie (v : BitVec 64)
  /-- The rest of the hart changes `hie` (R25). -/
  | setHie (v : BitVec 64)
  /-- The VS-level timer's pending signal changes (R25, R180). -/
  | setTimer (b : Bool)
  /-- The platform's external interrupt signal to VS level changes (R25). -/
  | setPlatform (b : Bool)
  /-- The rest of the hart changes the registers `sret` reads (R176). -/
  | setOutside (o : Outside)
  /-- A trap to M-mode or HS-mode, for an interrupt or for the exception in the outcome record: the hart goes on in
  `target` at `pc`, with the registers outside this spec as `o` (R166, R171). -/
  | higherTrap (target : Mode) (pc : Word) (o : Outside)
  /-- An illegal instruction exception delegated to VS-mode is delivered there; the trap value is the instruction's
  bits or 0 (R169, R171). -/
  | deliverVs (tvalIsInstr : Bool)
  deriving DecidableEq, Repr

/-- One turn of the interleaving of R72: who moves next, and, where the trap of R165 is enabled, whether the hart takes
it now (R167: enabled, not forced). -/
inductive Turn where
  /-- The hart moves; it takes the trap of R165 if that is enabled. -/
  | hart
  /-- The hart moves and executes an instruction, delaying the trap of R165 if that is enabled. -/
  | delay
  /-- Another agent moves. -/
  | env (e : Event)
  deriving DecidableEq, Repr

/-- Memory: the bytes that hold something, by address, in one canonical form (Memory.wf). An address that is not
listed holds no program word (92_eei_decisions.md D6, D7). -/
abbrev Memory := List Host.Cell

/-- Why the hart stops with a fault. -/
inductive Fault where
  /-- Raised by a step of the hart after an exception whose outcome record stands in the state: the run of
  instructions has ended (R171, D18) until a turn of another agent delivers the exception. Safe: nothing is claimed
  of what follows. -/
  | runEnded (r : TrapRecord)
  deriving DecidableEq, Repr

/-- Why a step is refused: the spec gives it no meaning. -/
inductive Refusal where
  /-- Raised by exec for an instruction that has no meaning yet. Safe. -/
  | notModelled (mnemonic : String)
  /-- Raised by a CSR instruction in M-mode or HS-mode that names a supervisor-level CSR (R142, D26). Safe. -/
  | supervisorCsr (n : BitVec 12)
  /-- Raised by a CSR instruction that passes the general check on a CSR the spec does not describe
  (Config.otherCsrs, Config.vtiWriteTrapCsrs; U8, U12). Safe. -/
  | undescribedCsr (n : BitVec 12)
  /-- Raised by the fetch of a word that is no 32-bit instruction (R80, D26). Safe. -/
  | not32Bit (w : InstrWord)
  /-- Raised by the fetch of a word with a major opcode other than SYSTEM (R86, D26). Safe. -/
  | otherOpcode (w : InstrWord)
  /-- Raised by the fetch of a privileged instruction other than sret (R83, D26). Safe. -/
  | otherPrivileged (w : InstrWord)
  /-- Raised by a fetch from an address that is not 4-byte aligned (D7). Safe. -/
  | misalignedFetch (pc : Word)
  /-- Raised by a fetch from an address with no program word (D7). Safe. -/
  | noProgramWord (pc : Word)
  /-- Raised by a write to an interrupt file's page, by its physical address or by a guest physical address that
  IommuMap maps to the file, that is not an aligned 32-bit write to offset 0 of the page (R68, D2). Safe. -/
  | msiForm (addr : Nat)
  /-- Raised by a bus write to an address in no interrupt file's page: no such write is in scope (R61, D6). Safe. -/
  | notAFilePage (addr : Nat)
  /-- Raised by a device write whose guest physical address IommuMap does not map (R63). Safe. -/
  | notMapped (gpa : Nat)
  /-- Raised by an MSI to a guest file number this hart does not have (R45). Safe. -/
  | noGuestFile (g : Nat)
  /-- Raised by a trap of R166 whose target is not M-mode or HS-mode, or which would go from M-mode to HS-mode.
  Safe. -/
  | notAHigherTrap
  /-- Raised by a delivery to VS-mode where no illegal instruction exception of VS-mode or VU-mode stands in the
  outcome record: a virtual instruction exception is never handled in VS-mode (R171). Safe. -/
  | notDeliverable
  deriving DecidableEq, Repr

/-- The state. -/
structure State where
  /-- The configuration; no step changes it. -/
  cfg : Config
  /-- The privilege mode (R11). -/
  mode : Mode
  /-- The program counter (R54). -/
  pc : Word
  /-- `x[0..31]`; entry 0 stays 0 (R53). -/
  x : Vector Word 32
  /-- `hstatus.VGEIN` (R12). -/
  vgein : BitVec 6
  /-- `vsstatus.SIE` (R13). -/
  vsSIE : Bool
  /-- `vsstatus.SPIE` (R168). -/
  vsSPIE : Bool
  /-- `vsstatus.SPP` (R168). -/
  vsSPP : Bool
  /-- `vscause` (R42). -/
  vscause : Word
  /-- `vsepc` (R168). -/
  vsepc : Word
  /-- `vstvec` (R168). -/
  vstvec : Word
  /-- `vstval` (R168). -/
  vstval : Word
  /-- `hideleg`, all 64 bits (R14). -/
  hideleg : BitVec 64
  /-- `hvien`, all 64 bits (R15). -/
  hvien : BitVec 64
  /-- `hvip`, all 64 bits (R16). -/
  hvip : BitVec 64
  /-- `hvictl` (R17). -/
  hvictl : Hvictl
  /-- `hviprio1`, all 64 bits (R20). -/
  hviprio1 : BitVec 64
  /-- `hviprio2`, all 64 bits (R21). -/
  hviprio2 : BitVec 64
  /-- `VSIE_OWN` (R24). -/
  vsieOwn : BitVec 64
  /-- `vsiselect` (R38). -/
  vsiselect : Word
  /-- `GF[1..GEILEN]` at entries 1..GEILEN (R45); the hart has no file of any other number and no operation reaches
  those entries. -/
  files : Vector IntrFile 64
  /-- The input `sip` (R25). -/
  sip : BitVec 64
  /-- The input `sie` (R25). -/
  sie : BitVec 64
  /-- The input `HIE` (R25). -/
  hie : BitVec 64
  /-- The input `VSTIP_timer` (R25). -/
  vstipTimer : Bool
  /-- The input `VSEIP_platform` (R25). -/
  vseipPlatform : Bool
  /-- The registers outside this spec that sret reads (R176). -/
  outside : Outside
  /-- `IommuMap` as its mapped guest physical addresses (R63). -/
  iommu : List (Nat × FileRef)
  /-- The program text, byte by byte (D6, R80). -/
  mem : Memory
  /-- The outcome record of the exception that ended the run of instructions, if one did (R171). -/
  outcome : Option TrapRecord
  /-- The MODEL's own field: the turns to come. When it is empty the hart moves, as at a turn `hart`. -/
  agenda : List Turn
  /-- The MODEL's own field: how many free values have been drawn. -/
  draws : Nat
  deriving DecidableEq, Repr

/-- `s` with `mode` set. -/
def State.setMode (s : State) (v : Mode) : State := { s with mode := v }

/-- `s` with `pc` set. -/
def State.setPc (s : State) (v : Word) : State := { s with pc := v }

/-- `s` with `x` set. -/
def State.setX (s : State) (v : Vector Word 32) : State := { s with x := v }

/-- `s` with `vgein` set. -/
def State.setVgein (s : State) (v : BitVec 6) : State := { s with vgein := v }

/-- `s` with `vsSIE` set. -/
def State.setVsSIE (s : State) (v : Bool) : State := { s with vsSIE := v }

/-- `s` with `vsSPIE` set. -/
def State.setVsSPIE (s : State) (v : Bool) : State := { s with vsSPIE := v }

/-- `s` with `vsSPP` set. -/
def State.setVsSPP (s : State) (v : Bool) : State := { s with vsSPP := v }

/-- `s` with `vscause` set. -/
def State.setVscause (s : State) (v : Word) : State := { s with vscause := v }

/-- `s` with `vsepc` set. -/
def State.setVsepc (s : State) (v : Word) : State := { s with vsepc := v }

/-- `s` with `vstvec` set. -/
def State.setVstvec (s : State) (v : Word) : State := { s with vstvec := v }

/-- `s` with `vstval` set. -/
def State.setVstval (s : State) (v : Word) : State := { s with vstval := v }

/-- `s` with `hideleg` set. -/
def State.setHideleg (s : State) (v : BitVec 64) : State := { s with hideleg := v }

/-- `s` with `hvien` set. -/
def State.setHvien (s : State) (v : BitVec 64) : State := { s with hvien := v }

/-- `s` with `hvip` set. -/
def State.setHvip (s : State) (v : BitVec 64) : State := { s with hvip := v }

/-- `s` with `hvictl` set. -/
def State.setHvictl (s : State) (v : Hvictl) : State := { s with hvictl := v }

/-- `s` with `hviprio1` set. -/
def State.setHviprio1 (s : State) (v : BitVec 64) : State := { s with hviprio1 := v }

/-- `s` with `hviprio2` set. -/
def State.setHviprio2 (s : State) (v : BitVec 64) : State := { s with hviprio2 := v }

/-- `s` with `vsieOwn` set. -/
def State.setVsieOwn (s : State) (v : BitVec 64) : State := { s with vsieOwn := v }

/-- `s` with `vsiselect` set. -/
def State.setVsiselect (s : State) (v : Word) : State := { s with vsiselect := v }

/-- `s` with `files` set. -/
def State.setFiles (s : State) (v : Vector IntrFile 64) : State := { s with files := v }

/-- `s` with `sip` set. -/
def State.setSip (s : State) (v : BitVec 64) : State := { s with sip := v }

/-- `s` with `sie` set. -/
def State.setSie (s : State) (v : BitVec 64) : State := { s with sie := v }

/-- `s` with `hie` set. -/
def State.setHie (s : State) (v : BitVec 64) : State := { s with hie := v }

/-- `s` with `vstipTimer` set. -/
def State.setVstipTimer (s : State) (v : Bool) : State := { s with vstipTimer := v }

/-- `s` with `vseipPlatform` set. -/
def State.setVseipPlatform (s : State) (v : Bool) : State := { s with vseipPlatform := v }

/-- `s` with `outside` set. -/
def State.setOutside (s : State) (v : Outside) : State := { s with outside := v }

/-- `s` with `iommu` set. -/
def State.setIommu (s : State) (v : List (Nat × FileRef)) : State := { s with iommu := v }

/-- `s` with `mem` set. -/
def State.setMem (s : State) (v : Memory) : State := { s with mem := v }

/-- `s` with `outcome` set. -/
def State.setOutcome (s : State) (v : Option TrapRecord) : State := { s with outcome := v }

/-- `s` with `agenda` set. -/
def State.setAgenda (s : State) (v : List Turn) : State := { s with agenda := v }

/-- `s` with `draws` set. -/
def State.setDraws (s : State) (v : Nat) : State := { s with draws := v }

/-- The inputs that sret reads, all zero. -/
def Outside.zero : Outside where
  sepc := 0
  sstatusSIE := false
  sstatusSPIE := false
  sstatusSPP := false
  hstatusSPV := false
  hstatusVTSR := false

/-- The machine with configuration `c` right after reset (R52, R200, R201): M-mode at the reset address, `x[0]` = 0,
read-only bits at their fixed values. Every other value is unspecified by the spec and is zero here (DESIGN CHOICE,
assumption 1). -/
def State.resetOf (c : Config) : State where
  cfg := c
  mode := .M
  pc := c.resetPc
  x := Vector.replicate 32 0
  vgein := 0
  vsSIE := false
  vsSPIE := false
  vsSPP := false
  vscause := 0
  vsepc := 0
  vstvec := 0
  vstval := 0
  hideleg := 0
  hvien := c.hvienRO1
  hvip := 0
  hvictl := { vti := false, iid := 0, dpr := false, ipriom := false, iprio := 0 }
  hviprio1 := 0
  hviprio2 := 0
  vsieOwn := 0
  vsiselect := 0
  files := Vector.replicate 64 IntrFile.blank
  sip := 0
  sie := 0
  hie := 0
  vstipTimer := false
  vseipPlatform := false
  outside := Outside.zero
  iommu := []
  mem := []
  outcome := none
  agenda := []
  draws := 0

/-- The machine right after reset, in the configuration CFG-A of 95_test_vectors.md (DESIGN CHOICE, assumption 2). -/
def State.reset : State := State.resetOf Config.cfgA

end Sys2Proof.Machine
end

