-- ==== Sys2Proof/Machine/Ops.lean ====
section
/-! DEFINITION. The shared operations over memory, the integer registers and the free values; raising a synchronous
exception; the trap into VS-mode and the two returns from a trap. -/

namespace Sys2Proof.Machine

/-! ### Bits -/

/-- `old` with the bits of `mask` taken from `new`. -/
def mergeBits (mask old new : BitVec 64) : BitVec 64 := (new &&& mask) ||| (old &&& ~~~mask)

/-- The value whose only possible one is bit `i`, where `b` stands. -/
def bitAt (i : Nat) (b : Bool) : BitVec 64 := (BitVec.ofBool b).setWidth 64 <<< i

/-- The low `n` bits. -/
def lowMask (n : Nat) : BitVec 64 := BitVec.ofNat 64 (2 ^ n - 1)

/-! ### Memory -/

/-- The byte at an address; none where nothing is listed (D7). -/
def Memory.read : Memory → Nat → Option Byte
  | [], _ => none
  | (b, v) :: rest, a => if a = b then some v else Memory.read rest a

/-- The memory with the byte at an address written. -/
def Memory.write : Memory → Nat → Byte → Memory
  | [], a, v => [(a, v)]
  | (b, u) :: rest, a, v =>
    if a < b then (a, v) :: (b, u) :: rest
    else if a = b then (a, v) :: rest
    else (b, u) :: Memory.write rest a v

/-- Every address of the list lies above `a`, and the addresses rise. -/
def Memory.above : Nat → Memory → Bool
  | _, [] => true
  | a, (b, _) :: rest => decide (a < b) && Memory.above b rest

/-- The canonical form: addresses strictly rising. An unlisted address holds no value, so no entry can equal it. -/
def Memory.wf : Memory → Bool
  | [] => true
  | (b, _) :: rest => Memory.above b rest

/-- A word written at an address, in memory order (R80: little-endian). -/
def Memory.writeWord (m : Memory) (a : Nat) (w : InstrWord) : Memory :=
  Memory.write (Memory.write (Memory.write (Memory.write m a (byteOfWord w 0)) (a + 1) (byteOfWord w 1))
    (a + 2) (byteOfWord w 2)) (a + 3) (byteOfWord w 3)

/-- The word at an address, if its four bytes are there (R80). -/
def Memory.readWord (m : Memory) (a : Nat) : Option InstrWord :=
  match Memory.read m a, Memory.read m (a + 1), Memory.read m (a + 2), Memory.read m (a + 3) with
  | some b0, some b1, some b2, some b3 => some (wordOfBytes b0 b1 b2 b3)
  | _, _, _, _ => none

/-! ### Integer registers, the program counter, the mode -/

/-- Read of `x[i]`; `x[0]` reads 0 (R53). -/
def readReg (r : BitVec 5) (s : State) : Word := if r = 0 then 0 else s.x[r.toNat]'(r.isLt)

/-- Write of `x[i]`, XLEN bits; a write to `x[0]` is discarded (R53). -/
def writeReg (r : BitVec 5) (v : Word) (s : State) : State :=
  if r = 0 then s else s.setX (s.x.set r.toNat (v &&& s.cfg.xmask) r.isLt)

/-- `pc <- pc + 4` modulo 2^XLEN (R54, D7). -/
def advance (s : State) : State := s.setPc ((s.pc + 4) &&& s.cfg.xmask)

/-- V = 1: the mode is VS or VU (R11). -/
def Mode.virt : Mode → Bool
  | .VS => true
  | .VU => true
  | _ => false

/-! ### Free values -/

/-- A fresh free value of XLEN bits, and the state after the draw (`draw`, 00_scope.md section 5). -/
def takeFree (s : State) : Word × State :=
  (Config.freeValue s.draws &&& s.cfg.xmask, s.setDraws (s.draws + 1))

/-- A value whose bits in `known` are those of `v` and whose other bits are free (R142: fields not listed read as
`draw`). -/
def readPartly (known v : Word) (s : State) : Word × State :=
  (mergeBits known (takeFree s).1 v, (takeFree s).2)

/-! ### Synchronous exceptions -/

/-- The cause code of an exception (R169). -/
def ExcKind.code : ExcKind → Nat
  | .illegalInstruction => 2
  | .virtualInstruction => 22

/-- Taking a synchronous exception: the run of instructions ends with the outcome record (kind, pc, instruction bits);
no register and no CSR changes and the pc is left to the trap (R171, R109, 00_scope.md section 5, D18). -/
def raise (k : ExcKind) (w : InstrWord) (s : State) : State := s.setOutcome (some ⟨k, s.pc, w⟩)

/-! ### The trap into VS-mode and the returns -/

/-- The Interrupt bit of vscause, bit VSXLEN-1 (R42). -/
def interruptBit (c : Config) : Word :=
  match c.xlen with
  | .rv32 => 0x80000000
  | .rv64 => 0x8000000000000000

/-- The handler's address by vstvec (R168): the base in direct mode; base + 4 * code for an interrupt in vectored mode.
An exception goes to the base in both (PRESUMED, assumption 16). R168 states no address for the other two values of
vstvec[1:0]: a free value. -/
def vsHandler (interrupt : Bool) (code : Nat) (s : State) : Word × State :=
  if s.vstvec &&& 3 = 0 ∨ (s.vstvec &&& 3 = 1 ∧ interrupt = false) then (s.vstvec &&& ~~~3, s)
  else if s.vstvec &&& 3 = 1 then (((s.vstvec &&& ~~~3) + 4 * BitVec.ofNat 64 code) &&& s.cfg.xmask, s)
  else takeFree s

/-- What a trap into VS-mode writes besides vscause and vstval (R168). -/
def enterVS (handler : Word) (s : State) : State :=
  (((((s.setVsepc s.pc).setVsSPP (decide (s.mode = .VS))).setVsSPIE s.vsSIE).setVsSIE false).setMode .VS).setPc handler

/-- Trap entry into VS-mode (R168): the six fields, the mode and the pc; nothing else. -/
def trapToVS (interrupt : Bool) (code : Nat) (tval : Word) (s : State) : State :=
  enterVS (vsHandler interrupt code s).1
    (((vsHandler interrupt code s).2.setVscause
      ((if interrupt then interruptBit s.cfg else 0) ||| BitVec.ofNat 64 code)).setVstval tval)

/-- The return from a trap of VS-mode (R176). -/
def returnFromVS (s : State) : State :=
  ((((s.setPc s.vsepc).setMode (if s.vsSPP then .VS else .VU)).setVsSIE s.vsSPIE).setVsSPIE true).setVsSPP false

/-- The mode to which sret returns from HS-mode or M-mode: V from hstatus.SPV, the level from sstatus.SPP
(R176, R178). -/
def Outside.returnMode (o : Outside) : Mode :=
  if o.hstatusSPV then (if o.sstatusSPP then .VS else .VU) else (if o.sstatusSPP then .HS else .U)

/-- The registers outside this spec after a return that read them: what the H extension leaves in sstatus and hstatus
(PRESUMED, assumption 7). -/
def Outside.afterReturn (o : Outside) : Outside :=
  { o with sstatusSIE := o.sstatusSPIE, sstatusSPIE := true, sstatusSPP := false, hstatusSPV := false }

/-- The return from a trap of HS-mode or M-mode, per sstatus and hstatus.SPV, at sepc (R176). -/
def returnFromHS (s : State) : State :=
  ((s.setPc (s.outside.sepc &&& s.cfg.xmask)).setMode s.outside.returnMode).setOutside s.outside.afterReturn

end Sys2Proof.Machine
end

