-- ==== Sys2Proof/Machine/Operands.lean ====
section
/-! DEFINITION. The operand forms: the register and immediate sources, the CSR numbers (R84), the halves of a 64-bit
register on RV32 (R23), and the register of a guest interrupt file that vsiselect selects (R48). -/

namespace Sys2Proof.Machine

/-- The immediate source: `uimm`, zero-extended to XLEN (R82). -/
def immediate (uimm : BitVec 5) : Word := uimm.setWidth 64

/-! ### CSR numbers -/

/-- The own number of a hypervisor or VS register (R84). -/
def csrNumber : Csr → BitVec 12
  | .hstatus => 0x600
  | .hideleg => 0x603
  | .hie => 0x604
  | .hvien => 0x608
  | .hvictl => 0x609
  | .hidelegh => 0x613
  | .hvienh => 0x618
  | .hip => 0x644
  | .hvip => 0x645
  | .hviprio1 => 0x646
  | .hviprio2 => 0x647
  | .hviph => 0x655
  | .hviprio1h => 0x656
  | .hviprio2h => 0x657
  | .vsstatus => 0x200
  | .vsie => 0x204
  | .vstvec => 0x205
  | .vsieh => 0x214
  | .vsepc => 0x241
  | .vscause => 0x242
  | .vstval => 0x243
  | .vsip => 0x244
  | .vstimecmp => 0x24D
  | .vsiselect => 0x250
  | .vsireg => 0x251
  | .vsiph => 0x254
  | .vstopei => 0x25C
  | .vstimecmph => 0x25D
  | .vstopi => 0xEB0

/-- The number of the supervisor register that a VS register substitutes for (R84, R121). -/
def supNumber : Csr → Option (BitVec 12)
  | .vsstatus => some 0x100
  | .vsie => some 0x104
  | .vstvec => some 0x105
  | .vsieh => some 0x114
  | .vsepc => some 0x141
  | .vscause => some 0x142
  | .vstval => some 0x143
  | .vsip => some 0x144
  | .vstimecmp => some 0x14D
  | .vsiselect => some 0x150
  | .vsireg => some 0x151
  | .vsiph => some 0x154
  | .vstopei => some 0x15C
  | .vstimecmph => some 0x15D
  | .vstopi => some 0xDB0
  | _ => none

/-- Every register of R84. -/
def allCsrs : List Csr :=
  [.hstatus, .hideleg, .hie, .hvien, .hvictl, .hidelegh, .hvienh, .hip, .hvip, .hviprio1, .hviprio2, .hviph,
   .hviprio1h, .hviprio2h, .vsstatus, .vsie, .vstvec, .vsieh, .vsepc, .vscause, .vstval, .vsip, .vstimecmp,
   .vsiselect, .vsireg, .vsiph, .vstopei, .vstimecmph, .vstopi]

/-- What a CSR number names among the registers of R84. -/
def csrNamed (n : BitVec 12) : Option CsrName :=
  match allCsrs.find? (fun c => csrNumber c == n) with
  | some c => some (.own c)
  | none =>
    match allCsrs.find? (fun c => supNumber c == some n) with
    | some c => some (.sup c)
    | none => none

/-- The register behind a name. -/
def namedReg : CsrName → Csr
  | .own c => c
  | .sup c => c

/-- Whether this hart has the register (R122, R84): the high halves with XLEN = 32 only, vstopei with an IMSIC only,
vstimecmp and its half with Sstc only. A supervisor register stands and falls with its VS register. -/
def csrPresent (cfg : Config) : Csr → Bool
  | .hidelegh => cfg.xlen == .rv32
  | .hvienh => cfg.xlen == .rv32
  | .hviph => cfg.xlen == .rv32
  | .hviprio1h => cfg.xlen == .rv32
  | .hviprio2h => cfg.xlen == .rv32
  | .vsieh => cfg.xlen == .rv32
  | .vsiph => cfg.xlen == .rv32
  | .vstopei => cfg.hasImsic
  | .vstimecmp => cfg.hasSstc
  | .vstimecmph => cfg.hasSstc && cfg.xlen == .rv32
  | _ => true

/-! ### Halves of a 64-bit register -/

/-- The part of a 64-bit register that a CSR reaches (R23). -/
inductive Half where
  | whole
  | low
  | high
  deriving DecidableEq, Repr

/-- The part that the CSR of the plain name reaches. -/
def plainHalf (cfg : Config) : Half :=
  match cfg.xlen with
  | .rv32 => .low
  | .rv64 => .whole

/-- The bits of the 64-bit register in a part. -/
def Half.mask : Half → BitVec 64
  | .whole => 0xFFFFFFFFFFFFFFFF
  | .low => 0x00000000FFFFFFFF
  | .high => 0xFFFFFFFF00000000

/-- The part as a CSR value. -/
def Half.get (h : Half) (r : BitVec 64) : Word :=
  match h with
  | .whole => r
  | .low => r &&& 0xFFFFFFFF
  | .high => r >>> 32

/-- A CSR value at its place in the 64-bit register. -/
def Half.place (h : Half) (v : Word) : BitVec 64 :=
  match h with
  | .whole => v
  | .low => v &&& 0xFFFFFFFF
  | .high => v <<< 32

/-- The 64-bit register with the bits of `w` in the part written from a CSR value. -/
def Half.write (h : Half) (w old : BitVec 64) (v : Word) : BitVec 64 := mergeBits (w &&& h.mask) old (h.place v)

/-! ### The registers of an interrupt file -/

/-- A register of an interrupt file (R48): an array register is a part of the word of 64 identities. -/
inductive FileReg where
  | eidelivery
  | eithreshold
  | eip (word : Nat) (h : Half)
  | eie (word : Nat) (h : Half)
  deriving DecidableEq, Repr

/-- Array register j as a part of a word, where it exists: only even j with XLEN = 64, and only below NUM_IDS (R48). -/
def arrayPart (cfg : Config) (j : Nat) : Option (Nat × Half) :=
  if cfg.numIds ≤ 32 * j then none
  else
    match cfg.xlen with
    | .rv64 => if j % 2 = 0 then some (j / 2, .whole) else none
    | .rv32 => some (j / 2, if j % 2 = 0 then .low else .high)

/-- The register that a select value of 0x70-0xFF selects; none where it is reserved or does not exist (R48, R127). -/
def fileReg (cfg : Config) (sel : Nat) : Option FileReg :=
  if sel = 0x70 then some .eidelivery
  else if sel = 0x72 then some .eithreshold
  else if 0x80 ≤ sel ∧ sel ≤ 0xBF then (arrayPart cfg (sel - 0x80)).map (fun p => .eip p.1 p.2)
  else if 0xC0 ≤ sel ∧ sel ≤ 0xFF then (arrayPart cfg (sel - 0xC0)).map (fun p => .eie p.1 p.2)
  else none

end Sys2Proof.Machine
end

