-- ==== Sys2Proof/Machine/Imsic.lean ====
section
/-! DEFINITION. The guest interrupt files (10_state.md section 9) and the MSI write (20_memory.md R62). One definition
of an interrupt file serves every guest file (R51). -/

namespace Sys2Proof.Machine

/-- The implemented identities of word `k` of an array: 64k..64k+63 below NUM_IDS, without identity 0 (R47, R131). -/
def idMask (cfg : Config) (k : Nat) : BitVec 64 :=
  if 64 * k < cfg.numIds then (if k = 0 then 0xFFFFFFFFFFFFFFFE else 0xFFFFFFFFFFFFFFFF) else 0

/-- Word `k` of an array. -/
def arrayWord (a : Vector (BitVec 64) 32) (k : Nat) : BitVec 64 := (a[k]?).getD 0

/-- The array with word `k` replaced. -/
def setArrayWord (a : Vector (BitVec 64) 32) (k : Nat) (v : BitVec 64) : Vector (BitVec 64) 32 := a.setIfInBounds k v

/-- The bit of identity `n` in an array. -/
def idBit (a : Vector (BitVec 64) 32) (n : Nat) : Bool := (arrayWord a (n / 64)).getLsbD (n % 64)

/-- The array with the bit of identity `n` set to `b`. -/
def setIdBit (a : Vector (BitVec 64) 32) (n : Nat) (b : Bool) : Vector (BitVec 64) 32 :=
  setArrayWord a (n / 64) (mergeBits (bitAt (n % 64) true) (arrayWord a (n / 64)) (bitAt (n % 64) b))

/-- Identity `n` is pending, enabled and below the threshold, if there is one (R49). -/
def mayReport (cfg : Config) (f : IntrFile) (n : Nat) : Bool :=
  decide (1 ≤ n) && decide (n < cfg.numIds) && idBit f.eip n && idBit f.eie n &&
    (f.eithreshold == 0 || decide (n < f.eithreshold.toNat))

/-- The smallest identity that may be reported; 0 if there is none (R49). -/
def topId (cfg : Config) (f : IntrFile) : Nat := ((List.range cfg.numIds).find? (mayReport cfg f)).getD 0

/-- `topei`: the top identity in bits 26:16 and, as its priority number, in bits 10:0 (R49). -/
def topei (cfg : Config) (f : IntrFile) : Word := (BitVec.ofNat 64 (topId cfg f) <<< 16) ||| BitVec.ofNat 64 (topId cfg f)

/-- The interrupt signal of a file (R50). -/
def fileSignal (cfg : Config) (f : IntrFile) : Bool := f.eidelivery && topei cfg f != 0

/-- `VGEIN` is the valid number of a guest interrupt file (R12, D22). -/
def vgeinValid (s : State) : Bool := decide (1 ≤ s.vgein.toNat) && decide (s.vgein.toNat ≤ s.cfg.geilen)

/-- File `g`. -/
def fileAt (s : State) (g : Nat) : IntrFile := (s.files[g]?).getD IntrFile.blank

/-- The state with file `g` replaced. -/
def setFileAt (s : State) (g : Nat) (f : IntrFile) : State := s.setFiles (s.files.setIfInBounds g f)

/-- `GF[hstatus.VGEIN]`, read at the moment of the access (R46). -/
def currentFile (s : State) : IntrFile := fileAt s s.vgein.toNat

/-- The state with the current virtual hart's file replaced. -/
def setCurrentFile (s : State) (f : IntrFile) : State := setFileAt s s.vgein.toNat f

/-- The least number of bits that hold 0..n-1, for n >= 2: the ceiling of the logarithm of R129. -/
def ceilLog2 (n : Nat) : Nat := Nat.log2 (n - 1) + 1

/-- Read of a register of a file (R129, R130). -/
def readFileReg (cfg : Config) (f : IntrFile) : FileReg → Word
  | .eidelivery => bitAt 0 f.eidelivery
  | .eithreshold => f.eithreshold
  | .eip k h => h.get (arrayWord f.eip k &&& idMask cfg k)
  | .eie k h => h.get (arrayWord f.eie k &&& idMask cfg k)

/-- Write of a register of the current file (R129, R131): a value of `eidelivery` other than 0 and 1 leaves a drawn
bit; `eithreshold` keeps the low bits; an array register takes every implemented bit. -/
def writeFileReg (r : FileReg) (v : Word) (s : State) : State :=
  match r with
  | .eidelivery =>
    if v = 0 then setCurrentFile s { currentFile s with eidelivery := false }
    else if v = 1 then setCurrentFile s { currentFile s with eidelivery := true }
    else setCurrentFile (takeFree s).2 { currentFile s with eidelivery := (takeFree s).1.getLsbD 0 }
  | .eithreshold =>
    setCurrentFile s { currentFile s with eithreshold := v &&& lowMask (ceilLog2 s.cfg.numIds) }
  | .eip k h =>
    setCurrentFile s { currentFile s with
      eip := setArrayWord (currentFile s).eip k (h.write (idMask s.cfg k) (arrayWord (currentFile s).eip k) v) }
  | .eie k h =>
    setCurrentFile s { currentFile s with
      eie := setArrayWord (currentFile s).eie k (h.write (idMask s.cfg k) (arrayWord (currentFile s).eie k) v) }

/-- The claim a write to vstopei makes: the pending bit of the identity reported is cleared (R133). -/
def claim (s : State) : State :=
  if topId s.cfg (currentFile s) = 0 then s
  else setCurrentFile s { currentFile s with
    eip := setIdBit (currentFile s).eip (topId s.cfg (currentFile s)) false }

/-- `MSIWrite(F, n)` (R62): an implemented identity becomes pending; any other data has no effect (D28). -/
def msiWrite (cfg : Config) (f : IntrFile) (n : Nat) : IntrFile :=
  if 1 ≤ n ∧ n < cfg.numIds then { f with eip := setIdBit f.eip n true } else f

end Sys2Proof.Machine
end

