-- ==== Sys2Proof/Machine/Flags.lean ====
section
/-! DEFINITION. The interrupt-pending and interrupt-enable bits of VS level as reads see them and writes change them
(10_state.md R26-R36). The hardware has no condition codes (R55); these are its status bits. -/

namespace Sys2Proof.Machine

/-! ### hip -/

/-- `hip.VSEIP` (R26). -/
def hip10 (s : State) : Bool :=
  s.hvip.getLsbD 10 || (vgeinValid s && fileSignal s.cfg (currentFile s)) || s.vseipPlatform

/-- The pending signal of the VS-level timer: 0 without Sstc (R25). -/
def timerSignal (s : State) : Bool := s.cfg.hasSstc && s.vstipTimer

/-- `hip.VSTIP` (R26). -/
def hip6 (s : State) : Bool := s.hvip.getLsbD 6 || timerSignal s

/-- `hip.VSSIP` (R26). -/
def hip2 (s : State) : Bool := s.hvip.getLsbD 2

/-- The three bits of `hip` at their places (R142). -/
def hipValue (s : State) : BitVec 64 := bitAt 10 (hip10 s) ||| bitAt 6 (hip6 s) ||| bitAt 2 (hip2 s)

/-- Bits 10, 6 and 2: VSEIP, VSTIP, VSSIP (R16). -/
def vsLevelBits : BitVec 64 := 0x444

/-! ### Which storage a bit 63:13 of vsip and vsie aliases (R34, Table 1) -/

/-- The interrupts 13-63 that hideleg delegates. -/
def delegated (s : State) : BitVec 64 := Config.majorBits &&& s.hideleg

/-- The interrupts 13-63 that hideleg does not delegate and hvien enables. -/
def virtualized (s : State) : BitVec 64 := Config.majorBits &&& ~~~s.hideleg &&& s.hvien

/-! ### Reads -/

/-- `vsip` (R27, R30). -/
def vsip (s : State) : BitVec 64 :=
  bitAt 9 (s.hideleg.getLsbD 10 && hip10 s) ||| bitAt 5 (s.hideleg.getLsbD 6 && hip6 s) |||
    bitAt 1 (s.hideleg.getLsbD 2 && hip2 s) |||
    ((delegated s &&& s.sip) ||| (virtualized s &&& s.hvip))

/-- `vsie` (R28, R32). -/
def vsie (s : State) : BitVec 64 :=
  bitAt 9 (s.hideleg.getLsbD 10 && s.hie.getLsbD 10) ||| bitAt 5 (s.hideleg.getLsbD 6 && s.hie.getLsbD 6) |||
    bitAt 1 (s.hideleg.getLsbD 2 && s.hie.getLsbD 2) |||
    ((delegated s &&& s.sie) ||| (virtualized s &&& s.vsieOwn))

/-! ### Writes -/

/-- `hvip` after a write of `v` to the part `h` of vsip: bit 1 writes hvip[2] where hideleg[2] is one (R27), a
virtualized bit 13-63 writes its own place (R31). -/
def hvipAfterVsip (h : Half) (v : Word) (s : State) : BitVec 64 :=
  mergeBits (bitAt 2 (h.mask.getLsbD 1 && s.hideleg.getLsbD 2))
    (h.write (virtualized s) s.hvip v) (bitAt 2 ((h.place v).getLsbD 1))

/-- A write of `v` to the part `h` of vsip (R27, R31). -/
def writeVsip (h : Half) (v : Word) (s : State) : State :=
  (s.setHvip (hvipAfterVsip h v s)).setSip (h.write (delegated s &&& s.cfg.sipW) s.sip v)

/-- The bits of hie that a write to the part `h` of vsie reaches: 10, 6, 2 where hideleg delegates them (R28). -/
def hieWritable (h : Half) (s : State) : BitVec 64 :=
  bitAt 10 (h.mask.getLsbD 9 && s.hideleg.getLsbD 10) ||| bitAt 6 (h.mask.getLsbD 5 && s.hideleg.getLsbD 6) |||
    bitAt 2 (h.mask.getLsbD 1 && s.hideleg.getLsbD 2)

/-- A write of `v` to the part `h` of vsie (R28, R33): bits 9, 5, 1 write hie bits 10, 6, 2. -/
def writeVsie (h : Half) (v : Word) (s : State) : State :=
  ((s.setHie (mergeBits (hieWritable h s) s.hie (h.place v <<< 1))).setSie
    (h.write (delegated s &&& s.cfg.sieW) s.sie v)).setVsieOwn (h.write (virtualized s) s.vsieOwn v)

/-! ### The two transitions of R35 -/

/-- The bits of vsie that become UNSPECIFIED when hideleg and hvien change from the first pair to the second. -/
def unspecifiedBits (hideleg hvien hideleg' hvien' : BitVec 64) : BitVec 64 :=
  Config.majorBits &&&
    ((~~~hideleg &&& ~~~hideleg' &&& ~~~hvien &&& hvien') ||| (hvien &&& hvien' &&& hideleg &&& ~~~hideleg'))

/-- The given bits of VSIE_OWN drawn once (R35, D11). With none the state is unchanged. -/
def drawOwn (bits : BitVec 64) (s : State) : State :=
  if bits = 0 then s
  else (s.setVsieOwn (mergeBits bits s.vsieOwn (Config.freeValue s.draws))).setDraws (s.draws + 1)

/-- A write of `v` to the part `h` of hideleg (R123, R14), then R35. -/
def writeHideleg (h : Half) (v : Word) (s : State) : State :=
  drawOwn (unspecifiedBits s.hideleg s.hvien (h.write s.cfg.hidelegW s.hideleg v) s.hvien)
    (s.setHideleg (h.write s.cfg.hidelegW s.hideleg v))

/-- A write of `v` to the part `h` of hvien (R123, R15), then R35. -/
def writeHvien (h : Half) (v : Word) (s : State) : State :=
  drawOwn (unspecifiedBits s.hideleg s.hvien s.hideleg (h.write s.cfg.hvienW s.hvien v))
    (s.setHvien (h.write s.cfg.hvienW s.hvien v))

/-- The writable bits of hvip: 10, 6, 2, and those of 63:13 whose hvien bit is not read-only zero (R16, D10). -/
def hvipWritable (cfg : Config) : BitVec 64 := vsLevelBits ||| (Config.majorBits &&& (cfg.hvienW ||| cfg.hvienRO1))

end Sys2Proof.Machine
end

