-- ==== Sys2Proof/Machine/Interrupts.lean ====
section
/-! DEFINITION. The value of vstopi (60_exceptions.md R150-R163), the condition of the trap to VS-mode (R164, R165) and
the trap itself (R168). -/

namespace Sys2Proof.Machine

/-! ### hviprio1, hviprio2 -/

/-- The interrupts with a field in hviprio1 and the lowest bit of each field (R20). -/
def prioFields1 : List (Nat × Nat) := [(1, 8), (5, 24), (13, 40), (14, 48), (15, 56)]

/-- The interrupts with a field in hviprio2 and the lowest bit of each field (R21). -/
def prioFields2 : List (Nat × Nat) :=
  [(16, 0), (17, 8), (18, 16), (19, 24), (20, 32), (21, 40), (22, 48), (23, 56)]

/-- The implemented bits of the fields of a register (R22): the low HVIPRIO_BITS bits of each implemented field. -/
def prioMask (cfg : Config) : List (Nat × Nat) → BitVec 64
  | [] => 0
  | (i, p) :: rest =>
    (if cfg.hviprioImpl.getLsbD i then lowMask cfg.hviprioBits <<< p else 0) ||| prioMask cfg rest

/-- `hviprio(i)`, the priority number assigned to interrupt `i`; 0 where it has no field (R21). -/
def hviprio (s : State) (i : Nat) : Nat :=
  match prioFields1.lookup i with
  | some p => (s.hviprio1.extractLsb' p 8).toNat
  | none =>
    match prioFields2.lookup i with
    | some p => (s.hviprio2.extractLsb' p 8).toNat
    | none => 0

/-! ### Priority -/

/-- Interrupt `a` stands higher than `b` in the default order (R157). -/
def defaultHigher (cfg : Config) (a b : Nat) : Bool := decide (cfg.defaultRank.idxOf a < cfg.defaultRank.idxOf b)

/-- The tier of an interrupt by its priority number (R158). -/
def tier (cfg : Config) (i p : Nat) : Nat :=
  if 1 ≤ p then 1 else if i ≠ 9 ∧ defaultHigher cfg i 9 = true then 0 else 2

/-- Interrupt `a` with priority number `pa` has higher priority than `b` with `pb` (R158). -/
def higherPriority (cfg : Config) (a pa b pb : Nat) : Bool :=
  if tier cfg a pa < tier cfg b pb then true
  else if tier cfg b pb < tier cfg a pa then false
  else if tier cfg a pa = 1 ∧ pa ≠ pb then decide (pa < pb)
  else defaultHigher cfg a b

/-- A candidate interrupt: identity, priority number, and whether its default priority is higher than that of a
supervisor external interrupt (R150). -/
structure Candidate where
  iid : Nat
  prio : Nat
  hi : Bool
  deriving DecidableEq, Repr

/-- The candidate for a supervisor external interrupt: the first three of the list (R151-R153). -/
def externalCandidate (s : State) : Option Candidate :=
  if (vsip s).getLsbD 9 && (vsie s).getLsbD 9 then
    if vgeinValid s && topei s.cfg (currentFile s) != 0 then
      some { iid := 9, prio := ((topei s.cfg (currentFile s)).extractLsb' 0 11).toNat, hi := false }
    else if s.vgein == 0 && s.hvictl.iid == 9 && s.hvictl.iprio != 0 then
      some { iid := 9, prio := s.hvictl.iprio.toNat, hi := false }
    else some { iid := 9, prio := 256, hi := false }
  else none

/-- Major interrupt `i` other than 9 is pending and enabled (R154). -/
def majorReady (s : State) (i : Nat) : Bool := i != 9 && (vsip s).getLsbD i && (vsie s).getLsbD i

/-- The member of a list with the highest priority by its priority number and the default order (R159). -/
def highest (cfg : Config) (prio : Nat → Nat) : List Nat → Option Nat
  | [] => none
  | i :: rest =>
    match highest cfg prio rest with
    | none => some i
    | some j => if higherPriority cfg j (prio j) i (prio i) then some j else some i

/-- The candidate for a major interrupt: the last two of the list (R154, R155). -/
def majorCandidate (s : State) : Option Candidate :=
  if s.hvictl.vti then
    if s.hvictl.iid = 9 then none
    else some { iid := s.hvictl.iid.toNat, prio := s.hvictl.iprio.toNat, hi := !s.hvictl.dpr }
  else
    match highest s.cfg (hviprio s) ((List.range 64).filter (majorReady s)) with
    | none => none
    | some i => some { iid := i, prio := hviprio s i, hi := defaultHigher s.cfg i 9 }

/-- The major finalist wins over the external finalist (R160, R161). -/
def majorWins (e m : Candidate) : Bool :=
  (m.prio == 0 && m.hi) || (decide (1 ≤ m.prio) && decide (m.prio < e.prio)) ||
    (decide (1 ≤ m.prio) && m.prio == e.prio && m.hi)

/-- The highest-priority candidate (R160). -/
def winner (s : State) : Option Candidate :=
  match externalCandidate s, majorCandidate s with
  | none, none => none
  | some e, none => some e
  | none, some m => some m
  | some e, some m => if majorWins e m then some m else some e

/-- The IPRIO field of vstopi for a winner (R162). -/
def iprioOut (ipriom : Bool) (w : Candidate) : Nat :=
  if ipriom = false then 1
  else if 1 ≤ w.prio ∧ w.prio ≤ 255 then w.prio
  else if 255 < w.prio then 255
  else if w.hi then 0
  else 255

/-- `vstopi` (R150, R163). -/
def vstopi (s : State) : Word :=
  match winner s with
  | none => 0
  | some w => (BitVec.ofNat 64 w.iid <<< 16) ||| BitVec.ofNat 64 (iprioOut s.hvictl.ipriom w)

/-- Field IID of a value of vstopi, bits 27:16 (R41). -/
def vstopiIid (v : Word) : Nat := (v.extractLsb' 16 12).toNat

/-! ### The trap to VS-mode -/

/-- The modes and the enable under which a pending VS-level interrupt traps (R165). -/
def interruptible (s : State) : Bool := (decide (s.mode = .VS) && s.vsSIE) || decide (s.mode = .VU)

/-- The trap of R165 is to be taken: an interrupt is pending at VS level (R164) and the mode lets it trap. -/
def interruptTaken (s : State) : Bool := interruptible s && vstopi s != 0

/-- The trap to VS-mode for the interrupt indicated by field IID of vstopi (R165, R168). -/
def takeInterrupt (s : State) : State := trapToVS true (vstopiIid (vstopi s)) 0 s

end Sys2Proof.Machine
end

