-- ==== Sys2Proof/Machine/Agents.lean ====
section
/-! DEFINITION. The turns of the agents other than the hart (00_scope.md R4): MSI writes, the inputs of 10_state.md R25,
and the traps to M-mode and HS-mode (60_exceptions.md R166, R171). -/

namespace Sys2Proof.Machine

/-- `MSIWrite(GF[g], n)` on a file of this hart (R62). -/
def applyMsi (g n : Nat) (s : State) : Host.Outcome State Fault Refusal :=
  if 1 ≤ g ∧ g ≤ s.cfg.geilen then .next (setFileAt s g (msiWrite s.cfg (fileAt s g) n))
  else .refused (.noGuestFile g)

/-- The number of the guest file whose page holds an address: the first of the pages FileAddr lists, from file `g` on
(R62, R70). -/
def pageFile (addr : Nat) : Nat → List Nat → Option Nat
  | _, [] => none
  | g, a :: rest => if addr / 4096 = a / 4096 then some g else pageFile addr (g + 1) rest

/-- The data word of an MSI, little-endian (R67, D1); none unless four bytes are written. -/
def msiData : List Byte → Option (BitVec 32)
  | [b0, b1, b2, b3] => some (wordOfBytes b0 b1 b2 b3)
  | _ => none

/-- The data word of a write at an address, where the write has the one form an interrupt file's page admits: four
bytes at offset 0 of the page, and so aligned (R68, D2). -/
def msiWord (addr : Nat) (bytes : List Byte) : Option (BitVec 32) :=
  if addr % 4096 = 0 then msiData bytes else none

/-- A write on the physical bus (R62, R68): one of the form `msiWord` admits is the MSI write of its data. -/
def applyBusWrite (addr : Nat) (bytes : List Byte) (s : State) : Host.Outcome State Fault Refusal :=
  match pageFile addr 1 s.cfg.fileAddr with
  | none => .refused (.notAFilePage addr)
  | some g =>
    match msiWord addr bytes with
    | some n => applyMsi g n.toNat s
    | none => .refused (.msiForm addr)

/-- What the hart or a device reads in a file's page: the word at offset 0 reads 0 and nothing else is readable (R62).
No instruction in scope reads memory (R61). -/
def pageRead (cfg : Config) (addr : Nat) : Option (BitVec 32) :=
  match pageFile addr 1 cfg.fileAddr with
  | none => none
  | some _ => if addr % 4096 = 0 then some 0 else none

/-- A write by a guest-controlled device (R63): IommuMap gives the file, the data passes unchanged, and the write has
the form `msiWord` admits, the offset in the page being that of the guest physical address (R68). A file of another
hart is no state of this one (R183). -/
def applyDeviceWrite (gpa : Nat) (bytes : List Byte) (s : State) : Host.Outcome State Fault Refusal :=
  match s.iommu.lookup gpa with
  | none => .refused (.notMapped gpa)
  | some f =>
    match msiWord gpa bytes with
    | none => .refused (.msiForm gpa)
    | some n => if f.hart = s.cfg.hartId then applyMsi f.file n.toNat s else .next s

/-- IommuMap with one guest physical address mapped anew or unmapped (R63). -/
def changeIommu (m : List (Nat × FileRef)) (gpa : Nat) (target : Option FileRef) : List (Nat × FileRef) :=
  match target with
  | some f => (gpa, f) :: m.filter (fun e => e.1 != gpa)
  | none => m.filter (fun e => e.1 != gpa)

/-- A trap to M-mode or HS-mode (R166, R171): the hart leaves what it was doing, an outcome record included, and goes
on in the target mode at the handler's address; the registers outside this spec are as the event says. -/
def applyHigherTrap (target : Mode) (pc : Word) (o : Outside) (s : State) : Host.Outcome State Fault Refusal :=
  if target = .M ∨ (target = .HS ∧ s.mode ≠ .M) then
    .next ((((s.setMode target).setPc (pc &&& s.cfg.xmask)).setOutside o).setOutcome none)
  else .refused .notAHigherTrap

/-- The delivery to VS-mode of an illegal instruction exception raised in VS-mode or VU-mode (R171): the entry of R168
with the cause code and the trap value of R169. -/
def applyDeliverVs (tvalIsInstr : Bool) (s : State) : Host.Outcome State Fault Refusal :=
  match s.outcome with
  | none => .refused .notDeliverable
  | some r =>
    if r.kind = .illegalInstruction ∧ s.mode.virt = true then
      .next ((trapToVS false r.kind.code (if tvalIsInstr then r.instr.setWidth 64 else 0) s).setOutcome none)
    else .refused .notDeliverable

/-- The turn of another agent. -/
def applyEvent (e : Event) (s : State) : Host.Outcome State Fault Refusal :=
  match e with
  | .msi g data => applyMsi g data.toNat s
  | .busWrite addr bytes => applyBusWrite addr bytes s
  | .deviceWrite gpa bytes => applyDeviceWrite gpa bytes s
  | .setIommu gpa target => .next (s.setIommu (changeIommu s.iommu gpa target))
  | .setSip v => .next (s.setSip v)
  | .setSie v => .next (s.setSie v)
  | .setHie v => .next (s.setHie v)
  | .setTimer b => .next (s.setVstipTimer (b && s.cfg.hasSstc))
  | .setPlatform b => .next (s.setVseipPlatform b)
  | .setOutside o => .next (s.setOutside o)
  | .higherTrap target pc o => applyHigherTrap target pc o s
  | .deliverVs tvalIsInstr => applyDeliverVs tvalIsInstr s

end Sys2Proof.Machine
end

