-- ==== Sys2Proof/Machine/CsrAccess.lean ====
section
/-! DEFINITION. The access rules of 41_vs_csr_access.md: `check` (R120), `csr_read` and `csr_write` (R123-R142), and the
common order of a CSR instruction (40_csr_instructions.md R100). -/

namespace Sys2Proof.Machine

/-! ### check -/

/-- What the access check answers. -/
inductive Access where
  /-- The access goes on, on this register. -/
  | pass (c : Csr)
  /-- The access raises an exception. -/
  | raises (k : ExcKind)
  /-- The spec gives the access no meaning. -/
  | refuses (r : Refusal)
  deriving DecidableEq, Repr

/-- A CSR of this number exists on this hart (R122; Config.otherCsrs for those the spec does not describe). -/
def csrExists (cfg : Config) (n : BitVec 12) : Bool :=
  match csrNamed n with
  | some name => csrPresent cfg (namedReg name)
  | none => cfg.otherCsrs.contains n || cfg.vtiWriteTrapCsrs.contains n

/-- Bits 11:10 = 11: a read-only CSR (R85). -/
def csrReadOnly (n : BitVec 12) : Bool := n.extractLsb' 10 2 == 3

/-- Bits 9:8: the lowest privilege level (R85): 0 user, 1 supervisor, 2 hypervisor and VS, 3 machine. -/
def csrLevel (n : BitVec 12) : BitVec 2 := n.extractLsb' 8 2

/-- Clause 3 of R120: the exception that an access at privilege level `p` raises in a mode, if any. -/
def levelException (m : Mode) (p : BitVec 2) : Option ExcKind :=
  match m with
  | .M => none
  | .HS => if p = 3 then some .illegalInstruction else none
  | .U => if p = 0 then none else some .illegalInstruction
  | .VS => if p = 3 then some .illegalInstruction else if p = 2 then some .virtualInstruction else none
  | .VU => if p = 3 then some .illegalInstruction else if p = 0 then none else some .virtualInstruction

/-- The exception of an access to vsireg, if any (R126-R128). -/
def vsiregException (s : State) : Option ExcKind :=
  if 0x30 ≤ s.vsiselect.toNat ∧ s.vsiselect.toNat ≤ 0x3F then
    if s.mode = .VS then some .virtualInstruction else some .illegalInstruction
  else if 0x70 ≤ s.vsiselect.toNat ∧ s.vsiselect.toNat ≤ 0xFF then
    if vgeinValid s then
      match fileReg s.cfg s.vsiselect.toNat with
      | some _ => none
      | none => some .illegalInstruction
    else if s.mode = .VS then some .virtualInstruction else some .illegalInstruction
  else some .illegalInstruction

/-- The exception of an access to vstopei, if any (R132). -/
def vstopeiException (s : State) : Option ExcKind :=
  if vgeinValid s then none
  else if s.mode = .VS then some .virtualInstruction else some .illegalInstruction

/-- The registers the guest's sip, siph, sie, sieh reach (R134). -/
def isIntrReg : Csr → Bool
  | .vsip => true
  | .vsiph => true
  | .vsie => true
  | .vsieh => true
  | _ => false

/-- The standard part of VtiWriteTrapSet (R136): vsip, vsiph, and with Sstc vstimecmp, vstimecmph. -/
def inVtiSet : Csr → Bool
  | .vsip => true
  | .vsiph => true
  | .vstimecmp => true
  | .vstimecmph => true
  | _ => false

/-- The virtual instruction exceptions under hvictl.VTI = 1 for a guest access to a register of this spec
(R134-R137); `named` says that the number stands in VTI_WRITE_TRAP_CSRS. -/
def vtiTraps (s : State) (c : Csr) (named writes : Bool) : Bool :=
  decide (s.mode = .VS) && s.hvictl.vti && (isIntrReg c || (writes && (inVtiSet c || named)))

/-- The exception of an access that reaches no register of a guest interrupt file (R127, R128, R132). -/
def fileException (s : State) (c : Csr) : Option ExcKind :=
  match c with
  | .vsireg => vsiregException s
  | .vstopei => vstopeiException s
  | _ => none

/-- Clause 4 of R120 for the register the access reaches, in the order it lists the rules. -/
def registerException (s : State) (c : Csr) (named writes : Bool) : Option ExcKind :=
  match fileException s c with
  | some k => some k
  | none => if vtiTraps s c named writes then some .virtualInstruction else none

/-- The register a name reaches in a mode: with V = 1 the VS register in place of the supervisor one; with V = 0 the
supervisor registers are outside this spec (R121, R142). -/
def csrReached (m : Mode) (n : BitVec 12) : Option Csr :=
  match csrNamed n with
  | some (.own c) => some c
  | some (.sup c) => if m.virt then some c else none
  | none => none

/-- `VTI_WRITE_TRAP_CSRS` names the register, by the number used or by its own number (R135: the CSR reached). -/
def vtiNamed (cfg : Config) (n : BitVec 12) (c : Csr) : Bool :=
  cfg.vtiWriteTrapCsrs.contains n || cfg.vtiWriteTrapCsrs.contains (csrNumber c)

/-- Clauses 4 and 5 of R120, after the general clauses passed. -/
def checkReached (s : State) (n : BitVec 12) (writes : Bool) : Access :=
  match csrReached s.mode n with
  | some c =>
    match registerException s c (vtiNamed s.cfg n c) writes with
    | some k => .raises k
    | none => .pass c
  | none =>
    if (csrNamed n).isSome then .refuses (.supervisorCsr n)
    else if s.mode = .VS ∧ s.hvictl.vti = true ∧ writes = true ∧ s.cfg.vtiWriteTrapCsrs.contains n = true then
      .raises .virtualInstruction
    else .refuses (.undescribedCsr n)

/-- `check` of R120; the first clause that applies decides. No clause depends on whether the access reads. -/
def check (s : State) (n : BitVec 12) (writes : Bool) : Access :=
  if csrExists s.cfg n = false then .raises .illegalInstruction
  else if writes = true ∧ csrReadOnly n = true then .raises .illegalInstruction
  else
    match levelException s.mode (csrLevel n) with
    | some k => .raises k
    | none => checkReached s n writes

/-! ### csr_read -/

/-- The value of hvictl (R19). -/
def hvictlValue (h : Hvictl) : Word :=
  bitAt 30 h.vti ||| (h.iid.setWidth 64 <<< 16) ||| bitAt 9 h.dpr ||| bitAt 8 h.ipriom ||| h.iprio.setWidth 64

/-- The defined bits of vsstatus at their places (R13, R142). -/
def vsstatusValue (s : State) : Word := bitAt 8 s.vsSPP ||| bitAt 5 s.vsSPIE ||| bitAt 1 s.vsSIE

/-- The register that vsiselect selects, as read; the check has made sure that there is one (R126, R129, R130). -/
def readVsireg (s : State) : Word :=
  match fileReg s.cfg s.vsiselect.toNat with
  | some r => readFileReg s.cfg (currentFile s) r
  | none => 0

/-- `csr_read` (R123, R124, R129, R130, R133, R139, R142), and the state after it: a read changes nothing but the count
of draws, where it returns bits outside the spec. -/
def csrRead (c : Csr) (s : State) : Word × State :=
  match c with
  | .hstatus => readPartly 0x3F000 (s.vgein.setWidth 64 <<< 12) s
  | .hideleg => ((plainHalf s.cfg).get s.hideleg, s)
  | .hie => readPartly vsLevelBits s.hie s
  | .hvien => ((plainHalf s.cfg).get s.hvien, s)
  | .hvictl => (hvictlValue s.hvictl, s)
  | .hidelegh => (Half.high.get s.hideleg, s)
  | .hvienh => (Half.high.get s.hvien, s)
  | .hip => readPartly vsLevelBits (hipValue s) s
  | .hvip => ((plainHalf s.cfg).get s.hvip, s)
  | .hviprio1 => ((plainHalf s.cfg).get s.hviprio1, s)
  | .hviprio2 => ((plainHalf s.cfg).get s.hviprio2, s)
  | .hviph => (Half.high.get s.hvip, s)
  | .hviprio1h => (Half.high.get s.hviprio1, s)
  | .hviprio2h => (Half.high.get s.hviprio2, s)
  | .vsstatus => readPartly 0x122 (vsstatusValue s) s
  | .vsie => ((plainHalf s.cfg).get (vsie s), s)
  | .vstvec => (s.vstvec, s)
  | .vsieh => (Half.high.get (vsie s), s)
  | .vsepc => (s.vsepc, s)
  | .vscause => (s.vscause, s)
  | .vstval => (s.vstval, s)
  | .vsip => ((plainHalf s.cfg).get (vsip s), s)
  | .vstimecmp => takeFree s
  | .vsiselect => (s.vsiselect, s)
  | .vsireg => (readVsireg s, s)
  | .vsiph => (Half.high.get (vsip s), s)
  | .vstopei => (topei s.cfg (currentFile s), s)
  | .vstimecmph => takeFree s
  | .vstopi => (vstopi s, s)

/-! ### csr_write -/

/-- hvictl after a write of `v` (R18, R19). -/
def hvictlOf (cfg : Config) (v : Word) : Hvictl where
  vti := v.getLsbD 30
  iid := v.extractLsb' 16 12 &&& (lowMask cfg.iidBits).setWidth 12
  dpr := v.getLsbD 9
  ipriom := v.getLsbD 8
  iprio := v.extractLsb' 0 8

/-- A write of hstatus: VGEIN takes a number up to GEILEN; a larger one leaves it free (R142). -/
def writeHstatus (v : Word) (s : State) : State :=
  if (v.extractLsb' 12 6).toNat ≤ s.cfg.geilen then s.setVgein (v.extractLsb' 12 6)
  else (takeFree s).2.setVgein ((takeFree s).1.extractLsb' 0 6)

/-- The bits of vscause that are kept: the Interrupt bit and the implemented code bits (R142, R42). -/
def vscauseMask (cfg : Config) : Word := interruptBit cfg ||| lowMask cfg.vscauseCodeBits

/-- A write of the register that vsiselect selects (R129, R131). -/
def writeVsireg (v : Word) (s : State) : State :=
  match fileReg s.cfg s.vsiselect.toNat with
  | some r => writeFileReg r v s
  | none => s

/-- What a write of an XLEN-bit value does to each register (R123-R142). -/
def csrStore (c : Csr) (v : Word) (s : State) : State :=
  match c with
  | .hstatus => writeHstatus v s
  | .hideleg => writeHideleg (plainHalf s.cfg) v s
  | .hie => s.setHie (mergeBits vsLevelBits s.hie v)
  | .hvien => writeHvien (plainHalf s.cfg) v s
  | .hvictl => s.setHvictl (hvictlOf s.cfg v)
  | .hidelegh => writeHideleg .high v s
  | .hvienh => writeHvien .high v s
  | .hip => s.setHvip (mergeBits (bitAt 2 true) s.hvip v)
  | .hvip => s.setHvip ((plainHalf s.cfg).write (hvipWritable s.cfg) s.hvip v)
  | .hviprio1 => s.setHviprio1 ((plainHalf s.cfg).write (prioMask s.cfg prioFields1) s.hviprio1 v)
  | .hviprio2 => s.setHviprio2 ((plainHalf s.cfg).write (prioMask s.cfg prioFields2) s.hviprio2 v)
  | .hviph => s.setHvip (Half.high.write (hvipWritable s.cfg) s.hvip v)
  | .hviprio1h => s.setHviprio1 (Half.high.write (prioMask s.cfg prioFields1) s.hviprio1 v)
  | .hviprio2h => s.setHviprio2 (Half.high.write (prioMask s.cfg prioFields2) s.hviprio2 v)
  | .vsstatus => ((s.setVsSIE (v.getLsbD 1)).setVsSPIE (v.getLsbD 5)).setVsSPP (v.getLsbD 8)
  | .vsie => writeVsie (plainHalf s.cfg) v s
  | .vstvec => s.setVstvec v
  | .vsieh => writeVsie .high v s
  | .vsepc => s.setVsepc (v &&& ~~~1)
  | .vscause => s.setVscause (v &&& vscauseMask s.cfg)
  | .vstval => s.setVstval v
  | .vsip => writeVsip (plainHalf s.cfg) v s
  | .vstimecmp => s
  | .vsiselect => s.setVsiselect (v &&& lowMask s.cfg.vsiselectBits)
  | .vsireg => writeVsireg v s
  | .vsiph => writeVsip .high v s
  | .vstopei => claim s
  | .vstimecmph => s
  | .vstopi => s

/-- `csr_write`: the value written has XLEN bits (R69). -/
def csrWrite (c : Csr) (v : Word) (s : State) : State := csrStore c (v &&& s.cfg.xmask) s

/-! ### The common order of a CSR instruction -/

/-- Steps 4 to 7 of R100 on the register reached: read, write of the new value made from the value read, `x[rd]`, pc.
Where nothing is read no register is written. -/
def csrComplete (c : Csr) (reads writes : Bool) (new : Word → Word) (rd : BitVec 5) (s : State) : State :=
  if reads then
    if writes then advance (writeReg rd (csrRead c s).1 (csrWrite c (new (csrRead c s).1) (csrRead c s).2))
    else advance (writeReg rd (csrRead c s).1 (csrRead c s).2)
  else advance (csrWrite c (new 0) s)

/-- A CSR instruction whose word is `w` (R100): the check of step 3, which alone can raise (R109), then steps 4 to 7. -/
def csrExec (w : InstrWord) (n : BitVec 12) (reads writes : Bool) (new : Word → Word) (rd : BitVec 5) (s : State) :
    Host.Outcome State Fault Refusal :=
  match check s n writes with
  | .raises k => .next (raise k w s)
  | .refuses r => .refused r
  | .pass c => .next (csrComplete c reads writes new rd s)

end Sys2Proof.Machine
end

