-- ==== Sys2Proof/Machine/Csr.lean ====
section
/-! DEFINITION. The meanings of the six CSR instructions (40_csr_instructions.md R101-R106). -/

namespace Sys2Proof.Machine

/-- `csrrw rd, csr, rs1` (R101): always writes; reads only if rd is not x0 (R107). -/
def execCsrrw (rd : BitVec 5) (csr : BitVec 12) (rs1 : BitVec 5) (s : State) : Host.Outcome State Fault Refusal :=
  csrExec (encode (.csrrw rd csr rs1)) csr (rd != 0) true (fun _ => readReg rs1 s) rd s

/-- `csrrs rd, csr, rs1` (R102): always reads; writes only if rs1 is not x0 (R107). -/
def execCsrrs (rd : BitVec 5) (csr : BitVec 12) (rs1 : BitVec 5) (s : State) : Host.Outcome State Fault Refusal :=
  csrExec (encode (.csrrs rd csr rs1)) csr true (rs1 != 0) (fun t => t ||| readReg rs1 s) rd s

/-- `csrrc rd, csr, rs1` (R103): always reads; writes only if rs1 is not x0 (R107). -/
def execCsrrc (rd : BitVec 5) (csr : BitVec 12) (rs1 : BitVec 5) (s : State) : Host.Outcome State Fault Refusal :=
  csrExec (encode (.csrrc rd csr rs1)) csr true (rs1 != 0) (fun t => t &&& ~~~(readReg rs1 s)) rd s

/-- `csrrwi rd, csr, uimm` (R104): always writes; reads only if rd is not x0 (R107). -/
def execCsrrwi (rd : BitVec 5) (csr : BitVec 12) (uimm : BitVec 5) (s : State) : Host.Outcome State Fault Refusal :=
  csrExec (encode (.csrrwi rd csr uimm)) csr (rd != 0) true (fun _ => immediate uimm) rd s

/-- `csrrsi rd, csr, uimm` (R105): always reads; writes only if uimm is not 0 (R107). -/
def execCsrrsi (rd : BitVec 5) (csr : BitVec 12) (uimm : BitVec 5) (s : State) : Host.Outcome State Fault Refusal :=
  csrExec (encode (.csrrsi rd csr uimm)) csr true (uimm != 0) (fun t => t ||| immediate uimm) rd s

/-- `csrrci rd, csr, uimm` (R106): always reads; writes only if uimm is not 0 (R107). -/
def execCsrrci (rd : BitVec 5) (csr : BitVec 12) (uimm : BitVec 5) (s : State) : Host.Outcome State Fault Refusal :=
  csrExec (encode (.csrrci rd csr uimm)) csr true (uimm != 0) (fun t => t &&& ~~~(immediate uimm)) rd s

end Sys2Proof.Machine
end

