-- ==== Sys2Proof/Machine/Sret.lean ====
section
/-! DEFINITION. The meaning of sret (60_exceptions.md R176). -/

namespace Sys2Proof.Machine

/-- `sret` (R176), by mode: a return in VS-mode with hstatus.VTSR = 0, HS-mode and M-mode; an exception elsewhere. -/
def execSret (s : State) : Host.Outcome State Fault Refusal :=
  match s.mode with
  | .VS =>
    if s.outside.hstatusVTSR then .next (raise .virtualInstruction (encode .sret) s) else .next (returnFromVS s)
  | .VU => .next (raise .virtualInstruction (encode .sret) s)
  | .U => .next (raise .illegalInstruction (encode .sret) s)
  | .HS => .next (returnFromHS s)
  | .M => .next (returnFromHS s)

end Sys2Proof.Machine
end

