-- ==== Sys2Proof/Machine/Fetch.lean ====
section
/-! DEFINITION. Fetching the word at the program counter, and what becomes of a word that decodes to no instruction. -/

namespace Sys2Proof.Machine

/-- What a fetch answers. -/
inductive Fetched where
  /-- The word at the program counter. -/
  | word (w : InstrWord)
  /-- There is none (D7). -/
  | refuses (r : Refusal)
  deriving DecidableEq, Repr

/-- The word at the program counter (R80, D6, D7). -/
def fetch (s : State) : Fetched :=
  if s.pc &&& 3 ≠ 0 then .refuses (.misalignedFetch s.pc)
  else
    match Memory.readWord s.mem s.pc.toNat with
    | some w => .word w
    | none => .refuses (.noProgramWord s.pc)

/-- A word that decodes to no instruction: the reserved funct3 = 100 raises an illegal instruction exception; every
other such word is outside this spec and is refused by name (R86, D26). -/
def undecoded (e : DecodeError) (w : InstrWord) (s : State) : Host.Outcome State Fault Refusal :=
  match e with
  | .reservedFunct3 => .next (raise .illegalInstruction w s)
  | .otherOpcode => .refused (.otherOpcode w)
  | .otherPrivileged => .refused (.otherPrivileged w)
  | .not32Bit => .refused (.not32Bit w)
  | .truncated => .refused (.not32Bit w)

end Sys2Proof.Machine
end

