-- ==== Sys2Proof/Machine/Step.lean ====
section
/-! DEFINITION. One step: the turn that the agenda names (20_memory.md R72, 60_exceptions.md R165-R167). -/

namespace Sys2Proof.Machine

/-- The hart executes the instruction at the program counter. -/
def instrTurn (s : State) : Host.Outcome State Fault Refusal :=
  match fetch s with
  | .refuses r => .refused r
  | .word w =>
    match decode w with
    | .ok i => exec i s
    | .error e => undecoded e w s

/-- A turn of the hart. After an exception its run of instructions has ended (R171). Otherwise the trap of R165 is
taken where it is enabled and not delayed, and else an instruction is executed (R167, R172). -/
def hartTurn (delayed : Bool) (s : State) : Host.Outcome State Fault Refusal :=
  match s.outcome with
  | some r => .fault (.runEnded r)
  | none => if delayed = false ∧ interruptTaken s = true then .next (takeInterrupt s) else instrTurn s

/-- One step of the machine: the next turn of the agenda; with no turn left the hart moves. -/
def step (s : State) : Host.Outcome State Fault Refusal :=
  match s.agenda with
  | [] => hartTurn false s
  | .hart :: rest => hartTurn false (s.setAgenda rest)
  | .delay :: rest => hartTurn true (s.setAgenda rest)
  | .env e :: rest => applyEvent e (s.setAgenda rest)

/-- The agenda with which the hart's next turn executes an instruction: the one there is, where it does so already, and
else a turn that delays an enabled trap, put before it. -/
def instrAgenda (s : State) : List Turn :=
  if s.agenda = [] ∧ interruptTaken s = false then [] else .delay :: s.agenda

/-- `s` with the word of the lowest `nbits` bits of `w` stored at the program counter, the run of instructions not
ended, and an agenda with which the very next step executes an instruction. -/
def State.withFetchWord (s : State) (nbits w : Nat) : State :=
  ((s.setMem (Memory.writeWord s.mem s.pc.toNat (tableWord nbits w))).setOutcome none).setAgenda (instrAgenda s)

end Sys2Proof.Machine
end

