-- ==== Sys2Proof/Safety.lean ====
section
/-! DEFINITION. The legal states, in the terms the statements use: what the spec says of a stored value that every
write keeps (read-only bits at their fixed value, WARL fields legal, XLEN-bit values, the canonical memory). -/

namespace Sys2Proof.Machine

/-- A value of XLEN bits. -/
def fits (c : Config) (v : Word) : Bool := v &&& ~~~c.xmask == 0

/-- Every XLEN-bit register holds an XLEN-bit value, and `x[0]` holds 0 (R53, R54, R38, R42, R168). -/
def registersLegal (s : State) : Bool :=
  s.x.toList.all (fits s.cfg) && s.x[0] == 0 && fits s.cfg s.pc && fits s.cfg s.vsepc && fits s.cfg s.vstvec &&
    fits s.cfg s.vstval

/-- vsiselect holds only implemented bits (R38). -/
def vsiselectLegal (s : State) : Bool := s.vsiselect &&& ~~~(lowMask s.cfg.vsiselectBits) == 0

/-- The bits of hideleg that are not writable are zero (R14). -/
def hidelegLegal (s : State) : Bool := s.hideleg &&& ~~~s.cfg.hidelegW == 0

/-- hvien: read-only-one bits are one; a bit neither writable nor read-only one is zero (R15). -/
def hvienLegal (s : State) : Bool :=
  s.hvien &&& ~~~(s.cfg.hvienW ||| s.cfg.hvienRO1) == 0 && s.cfg.hvienRO1 &&& ~~~s.hvien == 0

/-- The bits of hvip that are not writable are zero (R16). -/
def hvipLegal (s : State) : Bool := s.hvip &&& ~~~(hvipWritable s.cfg) == 0

/-- vscause holds only implemented bits (R42). -/
def vscauseLegal (s : State) : Bool := s.vscause &&& ~~~(vscauseMask s.cfg) == 0

/-- hvictl.IID holds only implemented bits (R18). -/
def hvictlLegal (s : State) : Bool := decide (s.hvictl.iid.toNat < 2 ^ s.cfg.iidBits)

/-- The fields of hviprio1 and hviprio2 hold only implemented bits (R22). -/
def hviprioLegal (s : State) : Bool :=
  s.hviprio1 &&& ~~~(prioMask s.cfg prioFields1) == 0 && s.hviprio2 &&& ~~~(prioMask s.cfg prioFields2) == 0

/-- Only bits 63:13 of VSIE_OWN are used (R24). -/
def vsieOwnLegal (s : State) : Bool := s.vsieOwn &&& ~~~Config.majorBits == 0

/-- Word `k` of both arrays of a file holds implemented identities only (R47). -/
def fileWordLegal (c : Config) (f : IntrFile) (k : Nat) : Bool :=
  arrayWord f.eip k &&& ~~~(idMask c k) == 0 && arrayWord f.eie k &&& ~~~(idMask c k) == 0

/-- A file's arrays hold implemented identities only and its threshold implemented bits only (R47, R129). -/
def fileLegal (c : Config) (f : IntrFile) : Bool :=
  (List.range 32).all (fileWordLegal c f) && f.eithreshold &&& ~~~(lowMask (ceilLog2 c.numIds)) == 0

/-- Every interrupt file is legal. -/
def filesLegal (s : State) : Bool := s.files.toList.all (fileLegal s.cfg)

/-- The legal states: a well-formed configuration and every stored value legal. -/
def State.legal (s : State) : Bool :=
  s.cfg.wf && registersLegal s && vsiselectLegal s && hidelegLegal s && hvienLegal s && hvipLegal s && hvictlLegal s &&
    hviprioLegal s && vsieOwnLegal s && vscauseLegal s && filesLegal s && Memory.wf s.mem

/-- The number in the csr field of a CSR instruction (R81). -/
def csrField : Instr → Option (BitVec 12)
  | .csrrw _ n _ => some n
  | .csrrs _ n _ => some n
  | .csrrc _ n _ => some n
  | .csrrwi _ n _ => some n
  | .csrrsi _ n _ => some n
  | .csrrci _ n _ => some n
  | .sret => none

/-- The destination register of an instruction; x0 for sret, which has none (R81). -/
def destination : Instr → BitVec 5
  | .csrrw rd _ _ => rd
  | .csrrs rd _ _ => rd
  | .csrrc rd _ _ => rd
  | .csrrwi rd _ _ => rd
  | .csrrsi rd _ _ => rd
  | .csrrci rd _ _ => rd
  | .sret => 0

/-- A CSR instruction is a write attempt (R107). -/
def writeAttempt : Instr → Bool
  | .csrrw _ _ _ => true
  | .csrrs _ _ rs1 => rs1 != 0
  | .csrrc _ _ rs1 => rs1 != 0
  | .csrrwi _ _ _ => true
  | .csrrsi _ _ uimm => uimm != 0
  | .csrrci _ _ uimm => uimm != 0
  | .sret => false

/-- HS-mode or M-mode, the modes in which the hypervisor and VS registers are reached by their own numbers (R123). -/
def hypervisorMode (s : State) : Bool := decide (s.mode = .HS) || decide (s.mode = .M)

/-- A register of a guest interrupt file is selected: VGEIN is valid and vsiselect holds 0x70-0xFF and names a register
that exists (R126, R127). -/
def fileSelected (s : State) : Bool :=
  vgeinValid s && decide (0x70 ≤ s.vsiselect.toNat) && decide (s.vsiselect.toNat ≤ 0xFF) &&
    (fileReg s.cfg s.vsiselect.toNat).isSome

/-- The number by which the mode reaches a register: its own number in HS-mode and M-mode, the supervisor number in
VS-mode (R121, R123). -/
def reachesBy (s : State) (own sup n : BitVec 12) : Prop :=
  (hypervisorMode s = true ∧ n = own) ∨ (s.mode = .VS ∧ n = sup)

/-- The bits `lo` to `hi - 1` of a 64-bit register that one CSR holds (R23): with XLEN = 64 the CSR of the plain name
holds them all, with XLEN = 32 that CSR holds bits 31:0 and the one of the high half bits 63:32. -/
def holdsBits (cfg : Config) (high : Bool) (lo hi : Nat) : Prop :=
  (cfg.xlen = .rv64 ∧ high = false ∧ lo = 0 ∧ hi = 64) ∨ (cfg.xlen = .rv32 ∧ high = false ∧ lo = 0 ∧ hi = 32) ∨
    (cfg.xlen = .rv32 ∧ high = true ∧ lo = 32 ∧ hi = 64)

/-- The turn to come is the hart's: no other agent moves. -/
def hartMoves (s : State) : Bool :=
  match s.agenda with
  | .env _ :: _ => false
  | _ => true

/-- A state the spec admits right after reset (R52, R200, R201): M-mode at the reset address, `x[0]` = 0, every fixed
bit at its value, and every other value whatever it is. -/
def State.maybeReset (s : State) : Bool := s.legal && decide (s.mode = .M) && s.pc == s.cfg.resetPc && s.outcome.isNone

end Sys2Proof.Machine
end

