-- ==== Sys2Proof/Certificates/Slice0/Obligations.lean ====
section
/-! DEFINITION. The statements for the provers. -/

open Sys2Proof Sys2Proof.Machine

/-! ### Encoding and the step -/

/-- R81-R83: decoding an encoded instruction gives it back, from the word and from its bytes. -/
def Obligations.DecodeEncodeRoundTrip : Prop :=
  ∀ i : Instr, i.wellFormed = true →
    decode (encode i) = .ok i ∧ ∀ rest : List Byte, decodeBytes (encodeBytes i ++ rest) = .ok (i, rest)

/-- R81-R83: a word that decodes to an instruction is that instruction's word; no bit of it is dropped. -/
def Obligations.EncodeDecodeRoundTrip : Prop :=
  ∀ (w : InstrWord) (i : Instr), decode w = .ok i → encode i = w

/-- R83: a word is a row's instruction exactly when its bits under the row's mask are the row's match. -/
def Obligations.DecodeFollowsOpcodeMap : Prop :=
  ∀ w : InstrWord,
    ((∃ rd n rs1, decode w = .ok (.csrrw rd n rs1)) ↔ w &&& 0x707F = 0x1073) ∧
    ((∃ rd n rs1, decode w = .ok (.csrrs rd n rs1)) ↔ w &&& 0x707F = 0x2073) ∧
    ((∃ rd n rs1, decode w = .ok (.csrrc rd n rs1)) ↔ w &&& 0x707F = 0x3073) ∧
    ((∃ rd n u, decode w = .ok (.csrrwi rd n u)) ↔ w &&& 0x707F = 0x5073) ∧
    ((∃ rd n u, decode w = .ok (.csrrsi rd n u)) ↔ w &&& 0x707F = 0x6073) ∧
    ((∃ rd n u, decode w = .ok (.csrrci rd n u)) ↔ w &&& 0x707F = 0x7073) ∧
    (decode w = .ok .sret ↔ w = 0x10200073) ∧
    (decode w = .error .reservedFunct3 ↔ w &&& 0x707F = 0x4073)

/-- Words written out in 95_test_vectors.md (V1, V5, V9, V10, V11, V15, Tr5) decode to their instructions. -/
def Obligations.WrittenWordsDecode : Prop :=
  decode 0x60929373 = .ok (.csrrw 6 0x609 5) ∧ decode 0xEB0023F3 = .ok (.csrrs 7 0xEB0 0) ∧
    decode 0x6452B373 = .ok (.csrrc 6 0x645 5) ∧ decode 0x25085073 = .ok (.csrrwi 0 0x250 16) ∧
    decode 0x10016073 = .ok (.csrrsi 0 0x100 2) ∧ decode 0x14417073 = .ok (.csrrci 0 0x144 2) ∧
    decode 0x10200073 = .ok .sret

/-- R167, R172, D6: a turn of the hart at whose boundary no trap is taken executes the instruction decoded from the
bytes at the pc; the model's agenda says whose turn it is (assumption 4). -/
def Obligations.StepRunsDecodedInstruction : Prop :=
  ∀ (s : State) (w : InstrWord) (i : Instr),
    s.outcome = none → s.pc &&& 3 = 0 → Memory.readWord s.mem s.pc.toNat = some w → decode w = .ok i →
      (s.agenda = [] → interruptTaken s = false → step s = exec i s) ∧
      (∀ rest, s.agenda = .hart :: rest → interruptTaken s = false → step s = exec i (s.setAgenda rest)) ∧
      (∀ rest, s.agenda = .delay :: rest → step s = exec i (s.setAgenda rest))

/-- R86, D26: a fetched SYSTEM word with funct3 = 100 raises an illegal instruction exception, and changes nothing
else; a word of another major opcode is refused by name. -/
def Obligations.ReservedFunct3Raises : Prop :=
  ∀ (s : State) (w : InstrWord), s.outcome = none → s.agenda = [] → interruptTaken s = false → s.pc &&& 3 = 0 →
    Memory.readWord s.mem s.pc.toNat = some w →
      (w &&& 0x707F = 0x4073 → step s = .next (s.setOutcome (some ⟨.illegalInstruction, s.pc, w⟩))) ∧
      (w &&& 0x7F ≠ 0x73 → step s = .refused (.otherOpcode w) ∨ step s = .refused (.not32Bit w))

/-! ### The six CSR instructions -/

/-- R101: the word of `csrrw`, and what it does: it reads only if rd is not x0, always writes, and advances the pc; a
check that raises ends the run with nothing else changed. -/
def Obligations.CsrrwCompletes : Prop :=
  ∀ (rd rs1 : BitVec 5) (n : BitVec 12) (s : State),
    encode (.csrrw rd n rs1) = n ++ rs1 ++ (1 : BitVec 3) ++ rd ++ (0x73 : BitVec 7) ∧
    (∀ c, check s n true = .pass c → rd ≠ 0 →
      exec (.csrrw rd n rs1) s =
        .next (advance (writeReg rd (csrRead c s).1 (csrWrite c (readReg rs1 s) (csrRead c s).2)))) ∧
    (∀ c, check s n true = .pass c → exec (.csrrw 0 n rs1) s = .next (advance (csrWrite c (readReg rs1 s) s))) ∧
    (∀ k, check s n true = .raises k →
      exec (.csrrw rd n rs1) s = .next (s.setOutcome (some ⟨k, s.pc, encode (.csrrw rd n rs1)⟩)))

/-- R102: the word of `csrrs`, and what it does: it always reads, writes the value read with the bits of `x[rs1]` set
if rs1 is not x0, and advances the pc. -/
def Obligations.CsrrsCompletes : Prop :=
  ∀ (rd rs1 : BitVec 5) (n : BitVec 12) (s : State),
    encode (.csrrs rd n rs1) = n ++ rs1 ++ (2 : BitVec 3) ++ rd ++ (0x73 : BitVec 7) ∧
    (∀ c, check s n true = .pass c → rs1 ≠ 0 →
      exec (.csrrs rd n rs1) s =
        .next (advance (writeReg rd (csrRead c s).1
          (csrWrite c ((csrRead c s).1 ||| readReg rs1 s) (csrRead c s).2)))) ∧
    (∀ c, check s n false = .pass c →
      exec (.csrrs rd n 0) s = .next (advance (writeReg rd (csrRead c s).1 (csrRead c s).2))) ∧
    (∀ k, check s n (rs1 != 0) = .raises k →
      exec (.csrrs rd n rs1) s = .next (s.setOutcome (some ⟨k, s.pc, encode (.csrrs rd n rs1)⟩)))

/-- R103: the word of `csrrc`, and what it does: it always reads, writes the value read with the bits of `x[rs1]`
cleared if rs1 is not x0, and advances the pc. -/
def Obligations.CsrrcCompletes : Prop :=
  ∀ (rd rs1 : BitVec 5) (n : BitVec 12) (s : State),
    encode (.csrrc rd n rs1) = n ++ rs1 ++ (3 : BitVec 3) ++ rd ++ (0x73 : BitVec 7) ∧
    (∀ c, check s n true = .pass c → rs1 ≠ 0 →
      exec (.csrrc rd n rs1) s =
        .next (advance (writeReg rd (csrRead c s).1
          (csrWrite c ((csrRead c s).1 &&& ~~~(readReg rs1 s)) (csrRead c s).2)))) ∧
    (∀ c, check s n false = .pass c →
      exec (.csrrc rd n 0) s = .next (advance (writeReg rd (csrRead c s).1 (csrRead c s).2))) ∧
    (∀ k, check s n (rs1 != 0) = .raises k →
      exec (.csrrc rd n rs1) s = .next (s.setOutcome (some ⟨k, s.pc, encode (.csrrc rd n rs1)⟩)))

/-- R104: the word of `csrrwi`, and what it does: as `csrrw` with the zero-extended immediate for the source. -/
def Obligations.CsrrwiCompletes : Prop :=
  ∀ (rd u : BitVec 5) (n : BitVec 12) (s : State),
    encode (.csrrwi rd n u) = n ++ u ++ (5 : BitVec 3) ++ rd ++ (0x73 : BitVec 7) ∧
    (∀ c, check s n true = .pass c → rd ≠ 0 →
      exec (.csrrwi rd n u) s =
        .next (advance (writeReg rd (csrRead c s).1 (csrWrite c (u.setWidth 64) (csrRead c s).2)))) ∧
    (∀ c, check s n true = .pass c → exec (.csrrwi 0 n u) s = .next (advance (csrWrite c (u.setWidth 64) s))) ∧
    (∀ k, check s n true = .raises k →
      exec (.csrrwi rd n u) s = .next (s.setOutcome (some ⟨k, s.pc, encode (.csrrwi rd n u)⟩)))

/-- R105: the word of `csrrsi`, and what it does: it always reads, and writes the value read with the bits of the
immediate set if that is not 0. -/
def Obligations.CsrrsiCompletes : Prop :=
  ∀ (rd u : BitVec 5) (n : BitVec 12) (s : State),
    encode (.csrrsi rd n u) = n ++ u ++ (6 : BitVec 3) ++ rd ++ (0x73 : BitVec 7) ∧
    (∀ c, check s n true = .pass c → u ≠ 0 →
      exec (.csrrsi rd n u) s =
        .next (advance (writeReg rd (csrRead c s).1
          (csrWrite c ((csrRead c s).1 ||| u.setWidth 64) (csrRead c s).2)))) ∧
    (∀ c, check s n false = .pass c →
      exec (.csrrsi rd n 0) s = .next (advance (writeReg rd (csrRead c s).1 (csrRead c s).2))) ∧
    (∀ k, check s n (u != 0) = .raises k →
      exec (.csrrsi rd n u) s = .next (s.setOutcome (some ⟨k, s.pc, encode (.csrrsi rd n u)⟩)))

/-- R106: the word of `csrrci`, and what it does: it always reads, and writes the value read with the bits of the
immediate cleared if that is not 0. -/
def Obligations.CsrrciCompletes : Prop :=
  ∀ (rd u : BitVec 5) (n : BitVec 12) (s : State),
    encode (.csrrci rd n u) = n ++ u ++ (7 : BitVec 3) ++ rd ++ (0x73 : BitVec 7) ∧
    (∀ c, check s n true = .pass c → u ≠ 0 →
      exec (.csrrci rd n u) s =
        .next (advance (writeReg rd (csrRead c s).1
          (csrWrite c ((csrRead c s).1 &&& ~~~(u.setWidth 64)) (csrRead c s).2)))) ∧
    (∀ c, check s n false = .pass c →
      exec (.csrrci rd n 0) s = .next (advance (writeReg rd (csrRead c s).1 (csrRead c s).2))) ∧
    (∀ k, check s n (u != 0) = .raises k →
      exec (.csrrci rd n u) s = .next (s.setOutcome (some ⟨k, s.pc, encode (.csrrci rd n u)⟩)))

/-- R53: `x[0]` reads 0 and a write to it is discarded; a write of another register reads back as its XLEN bits and
leaves every other register; the registers are the same in every mode. -/
def Obligations.RegisterWriteReadsBack : Prop :=
  ∀ (r q : BitVec 5) (v : Word) (s : State) (m : Mode),
    readReg 0 s = 0 ∧ writeReg 0 v s = s ∧ (r ≠ 0 → readReg r (writeReg r v s) = v &&& s.cfg.xmask) ∧
      (q ≠ r → readReg q (writeReg r v s) = readReg q s) ∧ readReg r (s.setMode m) = readReg r s

/-- R100, R101-R106: what a CSR instruction leaves unchanged when it gives a next state, by the register the access
reaches. Every register but rd, the mode, every byte of memory and the inputs no CSR reaches stay; each piece of state
a CSR reaches stays unless the access reaches that CSR (hvip also through hip, vsip; sip, sie, hie, VSIE_OWN through
vsip, vsie; VSIE_OWN also by R35; the interrupt file through vsireg, vstopei; VGEIN through hstatus). The pc may
change. -/
def Obligations.CsrInstructionFrame : Prop :=
  ∀ (i : Instr) (n : BitVec 12) (s t : State), csrField i = some n → exec i s = .next t →
    t.cfg = s.cfg ∧ t.mode = s.mode ∧ (∀ r, r ≠ destination i → readReg r t = readReg r s) ∧
    (∀ a, Memory.read t.mem a = Memory.read s.mem a) ∧ t.outside = s.outside ∧ t.vstipTimer = s.vstipTimer ∧
    t.vseipPlatform = s.vseipPlatform ∧ t.iommu = s.iommu ∧ t.agenda = s.agenda ∧
    (writeAttempt i = false ∨ csrReached s.mode n = none →
      ∃ d pc x o, t = (((s.setDraws d).setPc pc).setX x).setOutcome o) ∧
    (∀ c, csrReached s.mode n = some c →
      (c ≠ .hstatus → t.vgein = s.vgein) ∧
      (c ≠ .vsstatus → t.vsSIE = s.vsSIE ∧ t.vsSPIE = s.vsSPIE ∧ t.vsSPP = s.vsSPP) ∧
      (c ≠ .vscause → t.vscause = s.vscause) ∧ (c ≠ .vsepc → t.vsepc = s.vsepc) ∧
      (c ≠ .vstvec → t.vstvec = s.vstvec) ∧ (c ≠ .vstval → t.vstval = s.vstval) ∧
      (c ≠ .vsiselect → t.vsiselect = s.vsiselect) ∧ (c ≠ .hvictl → t.hvictl = s.hvictl) ∧
      (c ≠ .hideleg → c ≠ .hidelegh → t.hideleg = s.hideleg) ∧ (c ≠ .hvien → c ≠ .hvienh → t.hvien = s.hvien) ∧
      (c ≠ .hviprio1 → c ≠ .hviprio1h → t.hviprio1 = s.hviprio1) ∧
      (c ≠ .hviprio2 → c ≠ .hviprio2h → t.hviprio2 = s.hviprio2) ∧
      (c ∉ [.hvip, .hviph, .hip, .vsip, .vsiph] → t.hvip = s.hvip) ∧
      (c ∉ [.vsip, .vsiph] → t.sip = s.sip) ∧ (c ∉ [.vsie, .vsieh] → t.sie = s.sie) ∧
      (c ∉ [.hie, .vsie, .vsieh] → t.hie = s.hie) ∧
      (c ∉ [.vsie, .vsieh, .hideleg, .hidelegh, .hvien, .hvienh] → t.vsieOwn = s.vsieOwn) ∧
      (c ∉ [.vsireg, .vstopei] → t.files = s.files) ∧
      (∀ g, g ≠ s.vgein.toNat → fileAt t g = fileAt s g))

/-- R19, R18, R110: in HS-mode or M-mode each of the six instructions completes on hvictl: rd takes the old value,
every other register stays, hvictl takes the fields of the new value, the pc advances and nothing else changes. -/
def Obligations.HvictlAccessCompletes : Prop :=
  ∀ (rd rs1 u : BitVec 5) (s : State), hypervisorMode s = true →
    exec (.csrrw rd 0x609 rs1) s =
      .next (advance (writeReg rd (hvictlValue s.hvictl)
        (s.setHvictl (hvictlOf s.cfg (readReg rs1 s &&& s.cfg.xmask))))) ∧
    exec (.csrrwi rd 0x609 u) s =
      .next (advance (writeReg rd (hvictlValue s.hvictl) (s.setHvictl (hvictlOf s.cfg (u.setWidth 64))))) ∧
    (rs1 ≠ 0 → exec (.csrrs rd 0x609 rs1) s =
      .next (advance (writeReg rd (hvictlValue s.hvictl)
        (s.setHvictl (hvictlOf s.cfg ((hvictlValue s.hvictl ||| readReg rs1 s) &&& s.cfg.xmask)))))) ∧
    (rs1 ≠ 0 → exec (.csrrc rd 0x609 rs1) s =
      .next (advance (writeReg rd (hvictlValue s.hvictl)
        (s.setHvictl (hvictlOf s.cfg ((hvictlValue s.hvictl &&& ~~~(readReg rs1 s)) &&& s.cfg.xmask)))))) ∧
    (u ≠ 0 → exec (.csrrsi rd 0x609 u) s =
      .next (advance (writeReg rd (hvictlValue s.hvictl)
        (s.setHvictl (hvictlOf s.cfg ((hvictlValue s.hvictl ||| u.setWidth 64) &&& s.cfg.xmask)))))) ∧
    (u ≠ 0 → exec (.csrrci rd 0x609 u) s =
      .next (advance (writeReg rd (hvictlValue s.hvictl)
        (s.setHvictl (hvictlOf s.cfg ((hvictlValue s.hvictl &&& ~~~(u.setWidth 64)) &&& s.cfg.xmask)))))) ∧
    exec (.csrrs rd 0x609 0) s = .next (advance (writeReg rd (hvictlValue s.hvictl) s)) ∧
    exec (.csrrc rd 0x609 0) s = .next (advance (writeReg rd (hvictlValue s.hvictl) s)) ∧
    exec (.csrrsi rd 0x609 0) s = .next (advance (writeReg rd (hvictlValue s.hvictl) s)) ∧
    exec (.csrrci rd 0x609 0) s = .next (advance (writeReg rd (hvictlValue s.hvictl) s))

/-- R18, R19: hvictl written and read again returns its defined fields as written, IID cut to its implemented bits, and
zero everywhere else. -/
def Obligations.HvictlReadsBackDefinedFields : Prop :=
  ∀ (rd rs1 : BitVec 5) (s : State), hypervisorMode s = true → s.cfg.wf = true → rd ≠ 0 →
    ∃ t u, exec (.csrrw 0 0x609 rs1) s = .next t ∧ exec (.csrrs rd 0x609 0) t = .next u ∧
      readReg rd u =
        readReg rs1 s &&& (0x400003FF ||| (lowMask s.cfg.iidBits <<< 16))

/-! ### Access checks -/

/-- R120, R123, R132: in HS-mode and M-mode every register of the spec that the hart has is reached by its own number,
but for a write of the read-only vstopi; vsireg needs a register of a guest file selected, vstopei a valid VGEIN. -/
def Obligations.HypervisorReachesEveryRegister : Prop :=
  ∀ (c : Csr) (writes : Bool) (s : State), hypervisorMode s = true → csrPresent s.cfg c = true →
    (c = .vstopi → writes = false) → (c = .vsireg → fileSelected s = true) → (c = .vstopei → vgeinValid s = true) →
      check s (csrNumber c) writes = .pass c

/-- R121, R138, R143, R132: in VS-mode a supervisor number reaches its VS register: with hvictl.VTI = 0 always, with
VTI = 1 where the register is none of vsip, vsie and their halves and a write is not of the trapped set; vstopi is
read-only, vsireg needs a register of a guest file selected, and vstopei a valid VGEIN. -/
def Obligations.GuestReachesVsRegisters : Prop :=
  ∀ (c : Csr) (n : BitVec 12) (writes : Bool) (s : State), s.mode = .VS → supNumber c = some n →
    csrPresent s.cfg c = true → (c = .vstopi → writes = false) → (c = .vsireg → fileSelected s = true) →
    (c = .vstopei → vgeinValid s = true) →
    (s.hvictl.vti = true → isIntrReg c = false ∧ (writes = true → inVtiSet c = false ∧ vtiNamed s.cfg n c = false)) →
      check s n writes = .pass c

/-- R120 clause 3, R178: a hypervisor or VS register by its own number, where it exists and is not written read-only,
raises a virtual instruction exception in VS-mode and VU-mode and an illegal instruction exception in U-mode. In
VU-mode and U-mode every CSR instruction on a register of the spec, by any number, raises: these modes access no CSR of
the spec. The instruction changes nothing else. -/
def Obligations.RegistersClosedBelowHypervisor : Prop :=
  ∀ (i : Instr) (s : State),
    (∀ c, csrField i = some (csrNumber c) → csrPresent s.cfg c = true → (c = .vstopi → writeAttempt i = false) →
      (s.mode = .VS ∨ s.mode = .VU →
        exec i s = .next (s.setOutcome (some ⟨.virtualInstruction, s.pc, encode i⟩))) ∧
      (s.mode = .U → exec i s = .next (s.setOutcome (some ⟨.illegalInstruction, s.pc, encode i⟩)))) ∧
    (∀ n, csrField i = some n → (csrNamed n).isSome = true → s.mode = .VU ∨ s.mode = .U →
      ∃ k, exec i s = .next (s.setOutcome (some ⟨k, s.pc, encode i⟩)))

/-- R122, R84, R120 clauses 1 and 2: an access to a number that no CSR of the hart has, and a write attempt to a
read-only number, raise an illegal instruction exception in every mode. Among the absent numbers are those of the high
halves with XLEN = 64, of vstopei and stopei without an IMSIC, and of vstimecmp, stimecmp and their halves without Sstc.
-/
def Obligations.AbsentAndReadOnlyCsrsRaise : Prop :=
  ∀ (i : Instr) (n : BitVec 12) (s : State), csrField i = some n →
    (csrExists s.cfg n = false ∨ (writeAttempt i = true ∧ n.extractLsb' 10 2 = 3) ∨
      (s.cfg.xlen = .rv64 ∧
        n ∈ [0x613, 0x618, 0x655, 0x656, 0x657, 0x214, 0x254, 0x25D, 0x114, 0x154, 0x15D]) ∨
      (s.cfg.hasImsic = false ∧ n ∈ [0x25C, 0x15C]) ∨
      (s.cfg.hasSstc = false ∧ n ∈ [0x24D, 0x25D, 0x14D, 0x15D])) →
      exec i s = .next (s.setOutcome (some ⟨.illegalInstruction, s.pc, encode i⟩))

/-- R134: with hvictl.VTI = 1 every access from VS-mode to sip or sie (with XLEN = 32 also siph or sieh) raises a
virtual instruction exception, a pure read included, and changes nothing else. -/
def Obligations.VtiTrapsInterruptRegisters : Prop :=
  ∀ (i : Instr) (n : BitVec 12) (s : State), csrField i = some n → s.mode = .VS → s.hvictl.vti = true →
    (n = 0x144 ∨ n = 0x104 ∨ (s.cfg.xlen = .rv32 ∧ (n = 0x154 ∨ n = 0x114))) →
      exec i s = .next (s.setOutcome (some ⟨.virtualInstruction, s.pc, encode i⟩))

/-- R137: with hvictl.VTI = 1 and Sstc a write attempt from VS-mode to stimecmp (with XLEN = 32 also stimecmph) raises
a virtual instruction exception whatever the values, and a read does not raise. That the read completes with a free
value is R142's draw, the spec's decision D31 (assumption 5). -/
def Obligations.VtiTrapsTimerWrites : Prop :=
  ∀ (i : Instr) (n : BitVec 12) (s : State), csrField i = some n → s.mode = .VS → s.hvictl.vti = true →
    s.cfg.hasSstc = true → (n = 0x14D ∨ (s.cfg.xlen = .rv32 ∧ n = 0x15D)) →
      (writeAttempt i = true → exec i s = .next (s.setOutcome (some ⟨.virtualInstruction, s.pc, encode i⟩))) ∧
      (writeAttempt i = false → exec i s =
        .next (advance (writeReg (destination i) (Config.freeValue s.draws &&& s.cfg.xmask)
          (s.setDraws (s.draws + 1)))))

/-- R128: with vsiselect in 0x30-0x3F every access from VS-mode to sireg raises a virtual instruction exception. -/
def Obligations.GuestIprioArrayTraps : Prop :=
  ∀ (i : Instr) (s : State), csrField i = some 0x151 → s.mode = .VS →
    0x30 ≤ s.vsiselect.toNat → s.vsiselect.toNat ≤ 0x3F →
      exec i s = .next (s.setOutcome (some ⟨.virtualInstruction, s.pc, encode i⟩))

/-- R127, R132, R48: the other accesses to vsireg and vstopei that reach nothing. By the hypervisor they raise an
illegal instruction exception; from VS-mode a virtual one where only VGEIN is not valid, and else an illegal one. With a
valid VGEIN the select values in 0x70-0xFF that reach nothing are those but 0x70, 0x72 and the 0x80 + j and 0xC0 + j
whose array register exists. Each of these
kinds is the spec's decision D12, which says that a claim should not rely on the kind outside rows 1 to 4 of R170
(assumption 13, unsafe). -/
def Obligations.AccessesThatReachNothingRaise : Prop :=
  ∀ (i : Instr) (s : State),
    (csrField i = some 0x251 → hypervisorMode s = true → fileSelected s = false →
      exec i s = .next (s.setOutcome (some ⟨.illegalInstruction, s.pc, encode i⟩))) ∧
    (csrField i = some 0x151 → s.mode = .VS → s.vsiselect.toNat < 0x70 ∨ 0xFF < s.vsiselect.toNat →
      ¬ (0x30 ≤ s.vsiselect.toNat ∧ s.vsiselect.toNat ≤ 0x3F) →
      exec i s = .next (s.setOutcome (some ⟨.illegalInstruction, s.pc, encode i⟩))) ∧
    (∀ n, reachesBy s 0x251 0x151 n → csrField i = some n → 0x70 ≤ s.vsiselect.toNat → s.vsiselect.toNat ≤ 0xFF →
      vgeinValid s = true → s.vsiselect.toNat ≠ 0x70 → s.vsiselect.toNat ≠ 0x72 →
      (∀ j, j ≤ 63 → s.vsiselect.toNat = 0x80 + j ∨ s.vsiselect.toNat = 0xC0 + j →
        s.cfg.numIds ≤ 32 * j ∨ (s.cfg.xlen = .rv64 ∧ j % 2 = 1)) →
      exec i s = .next (s.setOutcome (some ⟨.illegalInstruction, s.pc, encode i⟩))) ∧
    (csrField i = some 0x151 → s.mode = .VS → 0x70 ≤ s.vsiselect.toNat → s.vsiselect.toNat ≤ 0xFF →
      vgeinValid s = false →
      exec i s = .next (s.setOutcome (some ⟨.virtualInstruction, s.pc, encode i⟩))) ∧
    (csrField i = some 0x25C → s.cfg.hasImsic = true → hypervisorMode s = true → vgeinValid s = false →
      exec i s = .next (s.setOutcome (some ⟨.illegalInstruction, s.pc, encode i⟩))) ∧
    (csrField i = some 0x15C → s.cfg.hasImsic = true → s.mode = .VS → vgeinValid s = false →
      exec i s = .next (s.setOutcome (some ⟨.virtualInstruction, s.pc, encode i⟩)))

/-- R142, D26, U8: the accesses the spec gives no meaning are refused by name. In HS-mode and M-mode so is a supervisor
number of a CSR the hart has, unless the access is a write attempt to the read-only stopi; and in every mode a number
of a CSR the hart has and the spec does not describe, once the general clauses of R120 pass, unless R135 traps the
write. -/
def Obligations.AccessesOutsideTheSpecAreRefused : Prop :=
  ∀ (i : Instr) (n : BitVec 12) (s : State), csrField i = some n →
    (∀ c, supNumber c = some n → csrPresent s.cfg c = true → hypervisorMode s = true →
      (c = .vstopi → writeAttempt i = false) → exec i s = .refused (.supervisorCsr n)) ∧
    (csrNamed n = none → csrExists s.cfg n = true → (writeAttempt i = true → n.extractLsb' 10 2 ≠ 3) →
      levelException s.mode (csrLevel n) = none →
      exec i s =
        if s.mode = .VS ∧ s.hvictl.vti = true ∧ writeAttempt i = true ∧ n ∈ s.cfg.vtiWriteTrapCsrs
        then .next (s.setOutcome (some ⟨.virtualInstruction, s.pc, encode i⟩)) else .refused (.undescribedCsr n))

/-! ### hideleg, hvien, hvip, hviprio, vsip, vsie -/

/-- R35, R14, R15, R23, R123, R125: in HS-mode or M-mode a write to hideleg or hvien, whole with XLEN = 64 and by
either half with XLEN = 32, changes its writable bits and no other; hvip, sip and sie stay. A bit of VSIE_OWN changes
only where one of the two transitions makes it visible, and there it holds a bit of one fresh free value, whatever that
is. -/
def Obligations.DelegationWriteDrawsHiddenBits : Prop :=
  ∀ (rs1 : BitVec 5) (high : Bool) (lo hi : Nat) (s : State), hypervisorMode s = true → holdsBits s.cfg high lo hi →
    (∃ t, exec (.csrrw 0 (if high then 0x613 else 0x603) rs1) s = .next t ∧ t.hvien = s.hvien ∧ t.hvip = s.hvip ∧
      t.sip = s.sip ∧ t.sie = s.sie ∧ ∀ i, i < 64 →
        t.hideleg.getLsbD i =
          (if lo ≤ i ∧ i < hi ∧ s.cfg.hidelegW.getLsbD i = true then (readReg rs1 s).getLsbD (i - lo)
           else s.hideleg.getLsbD i) ∧
        t.vsieOwn.getLsbD i =
          (if 13 ≤ i ∧ s.hvien.getLsbD i = true ∧ s.hideleg.getLsbD i = true ∧ t.hideleg.getLsbD i = false
           then (Config.freeValue s.draws).getLsbD i else s.vsieOwn.getLsbD i)) ∧
    (∃ t, exec (.csrrw 0 (if high then 0x618 else 0x608) rs1) s = .next t ∧ t.hideleg = s.hideleg ∧ t.hvip = s.hvip ∧
      t.sip = s.sip ∧ t.sie = s.sie ∧ ∀ i, i < 64 →
        t.hvien.getLsbD i =
          (if lo ≤ i ∧ i < hi ∧ s.cfg.hvienW.getLsbD i = true then (readReg rs1 s).getLsbD (i - lo)
           else s.hvien.getLsbD i) ∧
        t.vsieOwn.getLsbD i =
          (if 13 ≤ i ∧ s.hideleg.getLsbD i = false ∧ s.hvien.getLsbD i = false ∧ t.hvien.getLsbD i = true
           then (Config.freeValue s.draws).getLsbD i else s.vsieOwn.getLsbD i))

/-- R108, R16, R123: with XLEN = 64, in HS-mode or M-mode, csrrs and csrrc on hvip set and clear exactly the bits named
in the source register that are writable, and leave the rest of the state but rd and the pc. -/
def Obligations.HvipSetClearNamedBits : Prop :=
  ∀ (rd rs1 : BitVec 5) (s : State), hypervisorMode s = true → s.legal = true → s.cfg.xlen = .rv64 → rs1 ≠ 0 →
    exec (.csrrs rd 0x645 rs1) s =
      .next (advance (writeReg rd s.hvip (s.setHvip (s.hvip ||| (readReg rs1 s &&& hvipWritable s.cfg))))) ∧
    exec (.csrrc rd 0x645 rs1) s =
      .next (advance (writeReg rd s.hvip (s.setHvip (s.hvip &&& ~~~(readReg rs1 s)))))

/-- R20-R23: in HS-mode or M-mode a write of hviprio1 or hviprio2, and with XLEN = 32 of either half, leaves the
priority number of each interrupt whose field the CSR holds (the table gives its lowest bit there) with the low
HVIPRIO_BITS bits of the byte written where the field is implemented, and 0 where it is not; every other priority
number stays and the three reserved fields of hviprio1 are 0. That the low bits are kept is the spec's decision D9
(assumption 12). -/
def Obligations.HviprioFieldsAreWarl : Prop :=
  ∀ (rs1 : BitVec 5) (n : BitVec 12) (fields : List (Nat × Nat)) (s : State), hypervisorMode s = true → s.legal = true →
    (s.cfg.xlen = .rv64 ∧ (n, fields) ∈
      [(0x646, [(1, 8), (5, 24), (13, 40), (14, 48), (15, 56)]),
       (0x647, [(16, 0), (17, 8), (18, 16), (19, 24), (20, 32), (21, 40), (22, 48), (23, 56)])]) ∨
    (s.cfg.xlen = .rv32 ∧ (n, fields) ∈
      [(0x646, [(1, 8), (5, 24)]), (0x656, [(13, 8), (14, 16), (15, 24)]),
       (0x647, [(16, 0), (17, 8), (18, 16), (19, 24)]), (0x657, [(20, 0), (21, 8), (22, 16), (23, 24)])]) →
      ∃ t, exec (.csrrw 0 n rs1) s = .next t ∧
        (∀ i p, (i, p) ∈ fields → hviprio t i = if s.cfg.hviprioImpl.getLsbD i
          then ((readReg rs1 s).extractLsb' p 8).toNat % 2 ^ s.cfg.hviprioBits else 0) ∧
        (∀ i, (∀ p, (i, p) ∉ fields) → hviprio t i = hviprio s i) ∧
        t.hviprio1 &&& 0x000000FF00FF00FF = 0

/-- R30, R32, R34 (Table 1): for i in 13..63, bit i of vsip is an alias of sip where hideleg delegates it, else of hvip
where hvien enables it, else zero; bit i of vsie is an alias of sie where hideleg delegates it, else the independent
bit of VSIE_OWN where hvien enables it, else zero. -/
def Obligations.VsipAndVsieAliasByTable1 : Prop :=
  ∀ (s : State) (i : Nat), 13 ≤ i → i ≤ 63 →
    (vsip s).getLsbD i =
      (if s.hideleg.getLsbD i then s.sip.getLsbD i else if s.hvien.getLsbD i then s.hvip.getLsbD i else false) ∧
    (vsie s).getLsbD i =
      (if s.hideleg.getLsbD i then s.sie.getLsbD i else if s.hvien.getLsbD i then s.vsieOwn.getLsbD i else false)

/-- R26-R28, R12, R50: bits 12:0 of vsip and vsie: 9, 5 and 1 from VSEIP, VSTIP and VSSIP where hideleg delegates bit
10, 6 or 2, every other bit zero. The guest interrupt file of a valid VGEIN signals where its eidelivery is one and its
topei is not zero. -/
def Obligations.LowBitsOfVsipAndVsie : Prop :=
  ∀ (s : State) (i : Nat), i ≤ 12 →
    (vsip s).getLsbD i =
      (if i = 9 then s.hideleg.getLsbD 10 && (s.hvip.getLsbD 10 ||
          (decide (1 ≤ s.vgein.toNat ∧ s.vgein.toNat ≤ s.cfg.geilen) && (currentFile s).eidelivery &&
            topei s.cfg (currentFile s) != 0) || s.vseipPlatform)
       else if i = 5 then s.hideleg.getLsbD 6 && (s.hvip.getLsbD 6 || (s.cfg.hasSstc && s.vstipTimer))
       else if i = 1 then s.hideleg.getLsbD 2 && s.hvip.getLsbD 2 else false) ∧
    (vsie s).getLsbD i =
      (if i = 9 then s.hideleg.getLsbD 10 && s.hie.getLsbD 10
       else if i = 5 then s.hideleg.getLsbD 6 && s.hie.getLsbD 6
       else if i = 1 then s.hideleg.getLsbD 2 && s.hie.getLsbD 2 else false)

/-- R124, R121, R23, R27, R28, R31, R33: vsip and vsie, by their own numbers in HS-mode or M-mode and as sip and sie in
VS-mode with hvictl.VTI = 0, whole with XLEN = 64 and by each half with XLEN = 32. A pure read returns the bits of vsip
or vsie that the CSR holds. Of those bits, a write to sip writes for i in 13..63 the true sip where hideleg delegates
the bit and SIP_W lets it, else hvip where hvien enables it, and bit 1 writes hvip bit 2 where hideleg bit 2 is one. A
write to sie writes the true sie or VSIE_OWN in the same way, and bits 9, 5 and 1 write hie bits 10, 6 and 2 where
hideleg delegates them. Every other bit, and but for the pc the rest of the state, stays. -/
def Obligations.SipAndSieAccessesReachAliases : Prop :=
  ∀ (rd rs1 : BitVec 5) (n : BitVec 12) (high : Bool) (lo hi : Nat) (s : State), holdsBits s.cfg high lo hi →
    (s.mode = .VS → s.hvictl.vti = false) →
    (reachesBy s (if high then 0x254 else 0x244) (if high then 0x154 else 0x144) n →
      (∃ v, exec (.csrrs rd n 0) s = .next (advance (writeReg rd v s)) ∧
        ∀ i, i < 64 → v.getLsbD i = (decide (lo + i < hi) && (vsip s).getLsbD (lo + i))) ∧
      (∃ p q, exec (.csrrw 0 n rs1) s = .next (advance ((s.setHvip p).setSip q)) ∧ ∀ i, i < 64 →
        q.getLsbD i =
          (if lo ≤ i ∧ i < hi ∧ 13 ≤ i ∧ s.hideleg.getLsbD i = true ∧ s.cfg.sipW.getLsbD i = true
           then (readReg rs1 s).getLsbD (i - lo) else s.sip.getLsbD i) ∧
        p.getLsbD i =
          (if lo ≤ i ∧ i < hi ∧ 13 ≤ i ∧ s.hideleg.getLsbD i = false ∧ s.hvien.getLsbD i = true
           then (readReg rs1 s).getLsbD (i - lo)
           else if i = 2 ∧ high = false ∧ s.hideleg.getLsbD 2 = true then (readReg rs1 s).getLsbD 1
           else s.hvip.getLsbD i))) ∧
    (reachesBy s (if high then 0x214 else 0x204) (if high then 0x114 else 0x104) n →
      (∃ v, exec (.csrrs rd n 0) s = .next (advance (writeReg rd v s)) ∧
        ∀ i, i < 64 → v.getLsbD i = (decide (lo + i < hi) && (vsie s).getLsbD (lo + i))) ∧
      (∃ h p q, exec (.csrrw 0 n rs1) s = .next (advance (((s.setHie h).setSie p).setVsieOwn q)) ∧ ∀ i, i < 64 →
        p.getLsbD i =
          (if lo ≤ i ∧ i < hi ∧ 13 ≤ i ∧ s.hideleg.getLsbD i = true ∧ s.cfg.sieW.getLsbD i = true
           then (readReg rs1 s).getLsbD (i - lo) else s.sie.getLsbD i) ∧
        q.getLsbD i =
          (if lo ≤ i ∧ i < hi ∧ 13 ≤ i ∧ s.hideleg.getLsbD i = false ∧ s.hvien.getLsbD i = true
           then (readReg rs1 s).getLsbD (i - lo) else s.vsieOwn.getLsbD i) ∧
        h.getLsbD i =
          (if high = false ∧ (i = 10 ∨ i = 6 ∨ i = 2) ∧ s.hideleg.getLsbD i = true then (readReg rs1 s).getLsbD (i - 1)
           else s.hie.getLsbD i)))

/-- R23, R123, R124: in HS-mode or M-mode the CSRs of each of the seven 64-bit registers with a high half (hideleg,
hvien, hvip, hviprio1, hviprio2, vsip, vsie) hold all 64 bits with XLEN = 64, and with XLEN = 32 bits 31:0 in the CSR
of the plain name and bits 63:32 in the other. A write gives the writable bits that the CSR holds the bits of the
value, by the rule of the full register, and changes no other bit of the register; a read returns the bits that it
holds. -/
def Obligations.HalvesReachOwnBits : Prop :=
  ∀ (rd rs1 : BitVec 5) (plain half : BitVec 12) (reg : State → BitVec 64) (writable : Nat → Bool) (high : Bool)
    (lo hi : Nat) (s : State), hypervisorMode s = true → holdsBits s.cfg high lo hi →
    (plain, half, reg, writable) ∈
      [(0x603, 0x613, State.hideleg, fun i => s.cfg.hidelegW.getLsbD i),
       (0x608, 0x618, State.hvien, fun i => s.cfg.hvienW.getLsbD i),
       (0x645, 0x655, State.hvip, fun i => i == 10 || i == 6 || i == 2 ||
         (decide (13 ≤ i) && (s.cfg.hvienW.getLsbD i || s.cfg.hvienRO1.getLsbD i))),
       (0x646, 0x656, State.hviprio1, fun i => (prioMask s.cfg prioFields1).getLsbD i),
       (0x647, 0x657, State.hviprio2, fun i => (prioMask s.cfg prioFields2).getLsbD i),
       (0x244, 0x254, vsip, fun i => (i == 1 && s.hideleg.getLsbD 2) ||
         (decide (13 ≤ i) && if s.hideleg.getLsbD i then s.cfg.sipW.getLsbD i else s.hvien.getLsbD i)),
       (0x204, 0x214, vsie, fun i => ((i == 9 || i == 5 || i == 1) && s.hideleg.getLsbD (i + 1)) ||
         (decide (13 ≤ i) && if s.hideleg.getLsbD i then s.cfg.sieW.getLsbD i else s.hvien.getLsbD i))] →
      (∃ t, exec (.csrrw 0 (if high then half else plain) rs1) s = .next t ∧ ∀ i, i < 64 →
        (reg t).getLsbD i =
          if lo ≤ i ∧ i < hi ∧ writable i = true then (readReg rs1 s).getLsbD (i - lo) else (reg s).getLsbD i) ∧
      (∃ v, exec (.csrrs rd (if high then half else plain) 0) s = .next (advance (writeReg rd v s)) ∧
        ∀ i, i < 64 → v.getLsbD i = (decide (lo + i < hi) && (reg s).getLsbD (lo + i)))

/-- R43: hvictl has no effect on hip, vsip and sip, nor on vsie: two states that differ in hvictl alone read the same,
and an instruction that accesses hvictl leaves the values as they were. -/
def Obligations.HvictlAffectsNoPendingBits : Prop :=
  ∀ s : State,
    (∀ h, hipValue (s.setHvictl h) = hipValue s ∧ vsip (s.setHvictl h) = vsip s ∧ vsie (s.setHvictl h) = vsie s ∧
      (s.setHvictl h).sip = s.sip) ∧
    (∀ (i : Instr) (t : State), csrField i = some 0x609 → exec i s = .next t →
      hipValue t = hipValue s ∧ vsip t = vsip s ∧ vsie t = vsie s ∧ t.sip = s.sip)

/-- R38, R126, R142: in HS-mode or M-mode, and for vsiselect also as siselect in VS-mode: a write of vsiselect keeps
the low VSISELECT_BITS bits; a write of hstatus with a number up to GEILEN in bits 17:12 sets VGEIN to it, a larger
number leaves some VGEIN; a write of hie changes bits 10, 6 and 2, one of hip bit 2 of hvip. Nothing else changes but
the pc, and the draw count where VGEIN is drawn. A read returns the stored vsiselect; VGEIN in bits 17:12; the three
bits of hie; VSEIP, VSTIP and VSSIP of hip; the other bits of the last three are outside the spec (free, assumption 5).
-/
def Obligations.HypervisorFieldsReadAndWrite : Prop :=
  ∀ (rd rs1 : BitVec 5) (s : State), s.cfg.wf = true →
    (∀ n, reachesBy s 0x250 0x150 n →
      (s.mode = .VS → s.hvictl.vti = true → vtiNamed s.cfg 0x150 .vsiselect = false) →
      exec (.csrrs rd n 0) s = .next (advance (writeReg rd s.vsiselect s)) ∧
      ∃ v, exec (.csrrw 0 n rs1) s = .next (advance (s.setVsiselect v)) ∧
        v.toNat = (readReg rs1 s &&& s.cfg.xmask).toNat % 2 ^ s.cfg.vsiselectBits) ∧
    (hypervisorMode s = true →
      (((readReg rs1 s).extractLsb' 12 6).toNat ≤ s.cfg.geilen →
        exec (.csrrw 0 0x600 rs1) s = .next (advance (s.setVgein ((readReg rs1 s).extractLsb' 12 6)))) ∧
      (s.cfg.geilen < ((readReg rs1 s).extractLsb' 12 6).toNat →
        ∃ g, exec (.csrrw 0 0x600 rs1) s = .next (advance ((s.setVgein g).setDraws (s.draws + 1)))) ∧
      (∃ v, exec (.csrrs rd 0x600 0) s = .next (advance (writeReg rd v (s.setDraws (s.draws + 1)))) ∧
        v.extractLsb' 12 6 = s.vgein) ∧
      (∃ h, exec (.csrrw 0 0x604 rs1) s = .next (advance (s.setHie h)) ∧ ∀ i, i < 64 →
        h.getLsbD i = if i = 10 ∨ i = 6 ∨ i = 2 then (readReg rs1 s).getLsbD i else s.hie.getLsbD i) ∧
      (∃ v, exec (.csrrs rd 0x604 0) s = .next (advance (writeReg rd v (s.setDraws (s.draws + 1)))) ∧
        v.getLsbD 10 = s.hie.getLsbD 10 ∧ v.getLsbD 6 = s.hie.getLsbD 6 ∧ v.getLsbD 2 = s.hie.getLsbD 2) ∧
      (∃ h, exec (.csrrw 0 0x644 rs1) s = .next (advance (s.setHvip h)) ∧ ∀ i, i < 64 →
        h.getLsbD i = if i = 2 then (readReg rs1 s).getLsbD 2 else s.hvip.getLsbD i) ∧
      (∃ v, exec (.csrrs rd 0x644 0) s = .next (advance (writeReg rd v (s.setDraws (s.draws + 1)))) ∧
        v.getLsbD 10 = (s.hvip.getLsbD 10 || (decide (1 ≤ s.vgein.toNat ∧ s.vgein.toNat ≤ s.cfg.geilen) &&
          (currentFile s).eidelivery && topei s.cfg (currentFile s) != 0) || s.vseipPlatform) ∧
        v.getLsbD 6 = (s.hvip.getLsbD 6 || (s.cfg.hasSstc && s.vstipTimer)) ∧ v.getLsbD 2 = s.hvip.getLsbD 2))

/-- R142, R121: vsstatus, vstvec, vsepc, vscause and vstval, reached by their own numbers in HS-mode and M-mode and by
the supervisor numbers in VS-mode (R143: also with hvictl.VTI = 1, unless VTI_WRITE_TRAP_CSRS names them). A write
stores the fields: SIE, SPIE, SPP; the XLEN bits; bit 0 of vsepc zero; the Interrupt bit and the implemented code bits
of vscause. A read returns them, and of vsstatus bits 8, 5, 1. -/
def Obligations.VsTrapRegistersReadAndWrite : Prop :=
  ∀ (c : Csr) (n : BitVec 12) (rd rs1 : BitVec 5) (s : State),
    ((hypervisorMode s = true ∧ n = csrNumber c) ∨
      (s.mode = .VS ∧ supNumber c = some n ∧ (s.hvictl.vti = true → vtiNamed s.cfg n c = false))) →
    (c = .vsstatus →
      exec (.csrrw 0 n rs1) s = .next (advance (((s.setVsSIE ((readReg rs1 s).getLsbD 1)).setVsSPIE
        ((readReg rs1 s).getLsbD 5)).setVsSPP ((readReg rs1 s).getLsbD 8))) ∧
      ∃ v, exec (.csrrs rd n 0) s = .next (advance (writeReg rd v (s.setDraws (s.draws + 1)))) ∧
        v.getLsbD 1 = s.vsSIE ∧ v.getLsbD 5 = s.vsSPIE ∧ v.getLsbD 8 = s.vsSPP) ∧
    (c = .vstvec →
      exec (.csrrw 0 n rs1) s = .next (advance (s.setVstvec (readReg rs1 s &&& s.cfg.xmask))) ∧
      exec (.csrrs rd n 0) s = .next (advance (writeReg rd s.vstvec s))) ∧
    (c = .vsepc →
      exec (.csrrw 0 n rs1) s = .next (advance (s.setVsepc (readReg rs1 s &&& s.cfg.xmask &&& ~~~1))) ∧
      exec (.csrrs rd n 0) s = .next (advance (writeReg rd s.vsepc s))) ∧
    (c = .vscause →
      exec (.csrrw 0 n rs1) s = .next (advance (s.setVscause (readReg rs1 s &&& s.cfg.xmask &&&
        (interruptBit s.cfg ||| lowMask s.cfg.vscauseCodeBits)))) ∧
      exec (.csrrs rd n 0) s = .next (advance (writeReg rd s.vscause s))) ∧
    (c = .vstval →
      exec (.csrrw 0 n rs1) s = .next (advance (s.setVstval (readReg rs1 s &&& s.cfg.xmask))) ∧
      exec (.csrrs rd n 0) s = .next (advance (writeReg rd s.vstval s)))

/-! ### Guest interrupt files -/

/-- R49: topei is 0 where no identity is implemented, pending, enabled and below the threshold, a threshold of 0 being
none; else its bits 26:16 and 10:0 are the smallest such identity and every other bit is 0. It does not depend on
eidelivery. -/
def Obligations.TopeiReportsSmallestIdentity : Prop :=
  ∀ (c : Config) (f : IntrFile) (inS : Nat → Prop), c.wf = true →
    (∀ n, inS n ↔ 1 ≤ n ∧ n < c.numIds ∧ idBit f.eip n = true ∧ idBit f.eie n = true ∧
      (f.eithreshold = 0 ∨ n < f.eithreshold.toNat)) →
    ((∀ n, ¬ inS n) → topei c f = 0) ∧
    (∀ n, inS n → (∀ m, m < n → ¬ inS m) →
      topei c f = BitVec.ofNat 64 (n * 65536 + n) ∧ ((topei c f).extractLsb' 16 11).toNat = n ∧
        ((topei c f).extractLsb' 0 11).toNat = n) ∧
    (∀ b, topei c { f with eidelivery := b } = topei c f)

/-- R129-R131, R126, R140: with a valid VGEIN, through vsireg in HS-mode or M-mode and sireg in VS-mode. vsiselect =
0x70 reaches eidelivery and 0x72 eithreshold: a read returns the register; a write of 0 or 1 sets eidelivery and
another value leaves it either (a draw), and eithreshold keeps the value modulo 2 to the ceiling of log2(NUM_IDS). 0x80
+ j and 0xC0 + j reach eip j and eie j, where they exist: bit m is identity 32j + m, where that is implemented, and
reads zero elsewhere; csrrw writes, csrrs sets and csrrc clears the implemented identities it holds, and nothing else
of any file. So an injection, csrrs of the bit of one identity on its eip register, leaves what MSIWrite of that
identity leaves (R62). -/
def Obligations.VsiregReachesGuestFile : Prop :=
  ∀ (rd rs1 : BitVec 5) (n : BitVec 12) (s : State), reachesBy s 0x251 0x151 n → s.cfg.wf = true → vgeinValid s = true →
    (s.mode = .VS → s.hvictl.vti = true → vtiNamed s.cfg 0x151 .vsireg = false) →
    (s.vsiselect = 0x70 →
      exec (.csrrs rd n 0) s = .next (advance (writeReg rd (if (currentFile s).eidelivery then 1 else 0) s)) ∧
      (readReg rs1 s &&& s.cfg.xmask = 0 → exec (.csrrw 0 n rs1) s =
        .next (advance (setCurrentFile s { currentFile s with eidelivery := false }))) ∧
      (readReg rs1 s &&& s.cfg.xmask = 1 → exec (.csrrw 0 n rs1) s =
        .next (advance (setCurrentFile s { currentFile s with eidelivery := true }))) ∧
      (readReg rs1 s &&& s.cfg.xmask ≠ 0 → readReg rs1 s &&& s.cfg.xmask ≠ 1 → ∃ b, exec (.csrrw 0 n rs1) s =
        .next (advance ((setCurrentFile s { currentFile s with eidelivery := b }).setDraws (s.draws + 1))))) ∧
    (s.vsiselect = 0x72 →
      exec (.csrrs rd n 0) s = .next (advance (writeReg rd (currentFile s).eithreshold s)) ∧
      ∃ v, exec (.csrrw 0 n rs1) s = .next (advance (setCurrentFile s { currentFile s with eithreshold := v })) ∧
        v.toNat = (readReg rs1 s &&& s.cfg.xmask).toNat % 2 ^ Nat.clog 2 s.cfg.numIds) ∧
    (∀ (j sel : Nat) (arr other : IntrFile → Vector (BitVec 64) 32),
      (sel, arr, other) ∈ [(0x80, IntrFile.eip, IntrFile.eie), (0xC0, IntrFile.eie, IntrFile.eip)] →
      32 * j < s.cfg.numIds → (s.cfg.xlen = .rv64 → j % 2 = 0) → s.vsiselect = BitVec.ofNat 64 (sel + j) →
        (∃ v, exec (.csrrs rd n 0) s = .next (advance (writeReg rd v s)) ∧ ∀ m, m < 64 → v.getLsbD m =
          (decide (m < s.cfg.xlenBits ∧ 1 ≤ 32 * j + m ∧ 32 * j + m < s.cfg.numIds) &&
            idBit (arr (currentFile s)) (32 * j + m))) ∧
        ∀ (i : Instr) (new : Bool → Bool → Bool),
          (i, new) ∈ [(.csrrw rd n rs1, fun _ b => b), (.csrrs rd n rs1, fun a b => a || b),
            (.csrrc rd n rs1, fun a b => a && !b)] →
          ∃ t, exec i s = .next t ∧
            (∀ k, k < 2048 → idBit (arr (currentFile t)) k =
              if 32 * j ≤ k ∧ k < 32 * j + s.cfg.xlenBits ∧ 1 ≤ k ∧ k < s.cfg.numIds
              then new (idBit (arr (currentFile s)) k) ((readReg rs1 s).getLsbD (k - 32 * j))
              else idBit (arr (currentFile s)) k) ∧
            other (currentFile t) = other (currentFile s) ∧ (currentFile t).eidelivery = (currentFile s).eidelivery ∧
            (currentFile t).eithreshold = (currentFile s).eithreshold ∧
            ∀ g, g ≠ s.vgein.toNat → fileAt t g = fileAt s g) ∧
    (∀ k, 1 ≤ k → k < s.cfg.numIds →
      s.vsiselect = BitVec.ofNat 64 (0x80 + (s.cfg.xlenBits / 32) * (k / s.cfg.xlenBits)) →
      readReg rs1 s = BitVec.ofNat 64 (2 ^ (k % s.cfg.xlenBits)) →
        exec (.csrrs 0 n rs1) s = .next (advance (setCurrentFile s (msiWrite s.cfg (currentFile s) k))))

/-- R133, R132, R140, R107: with a valid VGEIN, vstopei in HS-mode and M-mode and stopei in VS-mode: a pure read returns
topei and claims nothing. A write attempt by any of the six instructions, whatever value is written, clears the pending
bit of the identity topei reports, and where rd is not x0 returns topei; every other bit of the file and every other
file stays. -/
def Obligations.VstopeiReportsAndClaims : Prop :=
  ∀ (i : Instr) (n : BitVec 12) (s : State), reachesBy s 0x25C 0x15C n → csrField i = some n → s.cfg.wf = true →
    s.cfg.hasImsic = true → vgeinValid s = true →
    (writeAttempt i = false →
      exec i s = .next (advance (writeReg (destination i) (topei s.cfg (currentFile s)) s))) ∧
    (writeAttempt i = true → (s.mode = .VS → s.hvictl.vti = true → vtiNamed s.cfg 0x15C .vstopei = false) →
      ∃ t, exec i s = .next t ∧
        (destination i ≠ 0 → readReg (destination i) t = topei s.cfg (currentFile s) &&& s.cfg.xmask) ∧
        (∀ k, k < 2048 → idBit (currentFile t).eip k =
          (idBit (currentFile s).eip k && !(decide (k = topId s.cfg (currentFile s)) && decide (k ≠ 0)))) ∧
        (currentFile t).eie = (currentFile s).eie ∧ (currentFile t).eidelivery = (currentFile s).eidelivery ∧
        (currentFile t).eithreshold = (currentFile s).eithreshold ∧
        ∀ g, g ≠ s.vgein.toNat → fileAt t g = fileAt s g)

/-- R62: the turn of an MSI to a guest file sets the pending bit of an implemented identity and changes no other bit,
no other file and nothing else; other data has no effect. -/
def Obligations.MsiSetsOnePendingBit : Prop :=
  ∀ (g : Nat) (data : BitVec 32) (rest : List Turn) (s : State), s.cfg.wf = true → 1 ≤ g → g ≤ s.cfg.geilen →
    s.agenda = .env (.msi g data) :: rest →
      ∃ t, step s = .next t ∧ t.setFiles s.files = s.setAgenda rest ∧
        (∀ n, n < 2048 → idBit (fileAt t g).eip n =
          (idBit (fileAt s g).eip n || (decide (n = data.toNat) && decide (1 ≤ n) && decide (n < s.cfg.numIds)))) ∧
        (fileAt t g).eie = (fileAt s g).eie ∧ (fileAt t g).eidelivery = (fileAt s g).eidelivery ∧
        (fileAt t g).eithreshold = (fileAt s g).eithreshold ∧ ∀ k, k ≠ g → fileAt t k = fileAt s k

/-- R69, R72, D4: `csrrs x0, vsireg` on an array register of pending bits and an MSI to the same file give the same
file in either order, and the bit of the MSI stands in it: no arriving bit is lost. -/
def Obligations.CsrrsLosesNoArrivingMsi : Prop :=
  ∀ (rs1 : BitVec 5) (n k : Nat) (h : Half) (s : State), hypervisorMode s = true → s.legal = true →
    rs1 ≠ 0 → fileSelected s = true → fileReg s.cfg s.vsiselect.toNat = some (.eip k h) →
    1 ≤ n → n < s.cfg.numIds →
      ∃ t u v, exec (.csrrs 0 0x251 rs1) s = .next t ∧ applyMsi s.vgein.toNat n t = .next v ∧
        applyMsi s.vgein.toNat n s = .next u ∧ exec (.csrrs 0 0x251 rs1) u = .next v ∧
        idBit (currentFile v).eip n = true

/-- R62, R63, R67, R68: the turn of a little-endian 32-bit write to offset 0 of a guest file's page, and that of a
device's to a guest physical address at offset 0 of a page that IommuMap maps to a file of this hart, are the turn of
the MSI write of that data to that file. A write of another size, or to another offset, of a file's page or of an
address that IommuMap maps is refused (D2); a device write's offset is that of its guest physical address (assumption
15). -/
def Obligations.AddressedWritesAreMsisOrRefused : Prop :=
  ∀ (g base addr gpa : Nat) (data : BitVec 32) (bytes : List Byte) (f : FileRef) (rest : List Turn) (s : State),
    s.cfg.wf = true → 1 ≤ g → g ≤ s.cfg.geilen → s.cfg.fileAddr[g - 1]? = some base →
    (s.agenda = .env (.busWrite base [data.extractLsb' 0 8, data.extractLsb' 8 8, data.extractLsb' 16 8,
        data.extractLsb' 24 8]) :: rest →
      step s = step (s.setAgenda (.env (.msi g data) :: rest))) ∧
    (s.agenda = .env (.busWrite addr bytes) :: rest → addr / 4096 = base / 4096 →
      bytes.length ≠ 4 ∨ addr % 4096 ≠ 0 → step s = .refused (.msiForm addr)) ∧
    (s.agenda = .env (.deviceWrite gpa [data.extractLsb' 0 8, data.extractLsb' 8 8, data.extractLsb' 16 8,
        data.extractLsb' 24 8]) :: rest →
      gpa % 4096 = 0 → s.iommu.lookup gpa = some { hart := s.cfg.hartId, file := g } →
      step s = step (s.setAgenda (.env (.msi g data) :: rest))) ∧
    (s.agenda = .env (.deviceWrite gpa bytes) :: rest → s.iommu.lookup gpa = some f →
      bytes.length ≠ 4 ∨ gpa % 4096 ≠ 0 → step s = .refused (.msiForm gpa))

/-! ### vstopi -/

/-- R151-R153: the external candidate exists exactly when bit 9 is one in vsip and vsie; its priority number is that of
vstopei, of hvictl, or 256, by the three conditions in turn. -/
def Obligations.ExternalCandidateByThreeCases : Prop :=
  ∀ s : State,
    ((vsip s).getLsbD 9 = false ∨ (vsie s).getLsbD 9 = false → externalCandidate s = none) ∧
    ((vsip s).getLsbD 9 = true → (vsie s).getLsbD 9 = true →
      ∃ p hi, externalCandidate s = some { iid := 9, prio := p, hi := hi } ∧
        p = (if 1 ≤ s.vgein.toNat ∧ s.vgein.toNat ≤ s.cfg.geilen ∧ topei s.cfg (currentFile s) ≠ 0
          then ((topei s.cfg (currentFile s)).extractLsb' 0 11).toNat
          else if s.vgein = 0 ∧ s.hvictl.iid = 9 ∧ s.hvictl.iprio ≠ 0 then s.hvictl.iprio.toNat else 256))

/-- R154, R159: with hvictl.VTI = 0 the major candidate is the interrupt of 0..63 other than 9, pending in vsip and
enabled in vsie, that has higher priority than every other such interrupt (PriorityOrderHasThreeTiers states the order);
its default place is DefaultRank's. There is none where none is pending and enabled. -/
def Obligations.MajorCandidateIsMaximum : Prop :=
  ∀ (s : State) (ready : Nat → Prop), s.cfg.wf = true → s.hvictl.vti = false →
    (∀ i, ready i ↔ i ≤ 63 ∧ i ≠ 9 ∧ (vsip s).getLsbD i = true ∧ (vsie s).getLsbD i = true) →
    ((∀ i, ¬ ready i) → majorCandidate s = none) ∧
    ((∃ i, ready i) →
      ∃ i, ready i ∧
        majorCandidate s = some
          { iid := i, prio := hviprio s i, hi := decide (s.cfg.defaultRank.idxOf i < s.cfg.defaultRank.idxOf 9) } ∧
        ∀ j, j ≠ i → ready j →
          higherPriority s.cfg i (hviprio s i) j (hviprio s j) = true ∧
          higherPriority s.cfg j (hviprio s j) i (hviprio s i) = false)

/-- R158, R160: of two distinct interrupts, interrupt 9 having a priority number of at least 1, one has higher priority
than the other exactly by R158's three clauses: a lower tier; in the middle tier a smaller number; else, at equal
numbers in the middle tier or in another tier, the higher place in DefaultRank. The choice between the finalists is that
order between a major interrupt other than 9, with its place in DefaultRank, and interrupt 9. That the order is so is
the spec's decision D14 (assumption 19). -/
def Obligations.PriorityOrderHasThreeTiers : Prop :=
  ∀ (c : Config) (rank : Nat → Nat) (tierOf : Nat → Nat → Nat) (i j p q : Nat), c.wf = true → i ≤ 63 → j ≤ 63 → i ≠ j →
    (∀ a, rank a = c.defaultRank.idxOf a) →
    (∀ a r, tierOf a r = if a ≠ 9 ∧ r = 0 ∧ rank a < rank 9 then 0 else if 1 ≤ r then 1 else 2) →
    (i = 9 → 1 ≤ p) → (j = 9 → 1 ≤ q) →
    (higherPriority c i p j q = true ↔
      tierOf i p < tierOf j q ∨ (tierOf i p = 1 ∧ tierOf j q = 1 ∧ p < q) ∨
        (tierOf i p = tierOf j q ∧ (tierOf i p ≠ 1 ∨ p = q) ∧ rank i < rank j)) ∧
    (j = 9 → ∀ h,
      majorWins { iid := 9, prio := q, hi := h } { iid := i, prio := p, hi := decide (rank i < rank 9) } =
        higherPriority c i p 9 q)

/-- R160-R163, R41, R139: a single candidate is the winner; of an external candidate e and a major one m, m wins
exactly under R160's three conditions, a tie being broken by m's default place (R161: DefaultRank, or hvictl.DPR alone
for the interrupt hvictl specifies, MajorCandidateIsMaximum and VtiSelectsHvictlInterrupt). vstopi is zero where there
is no candidate; else bits 27:16 are the winner's identity, bits 7:0 the number R162 gives it, and every other bit is
zero; that a priority number of 0 or above 255 gives 0 or 255 is the spec's decision D15 (assumption 19). A pure read
of vstopi in HS-mode or M-mode, and of stopi in VS-mode whatever hvictl.VTI is, puts that value in rd. -/
def Obligations.VstopiReportsWinner : Prop :=
  ∀ s : State,
    (∀ e, externalCandidate s = some e → majorCandidate s = none → winner s = some e) ∧
    (∀ m, externalCandidate s = none → majorCandidate s = some m → winner s = some m) ∧
    (∀ e m, externalCandidate s = some e → majorCandidate s = some m →
      winner s = if (m.prio = 0 ∧ m.hi = true) ∨ (1 ≤ m.prio ∧ m.prio < e.prio) ∨
        (1 ≤ m.prio ∧ m.prio = e.prio ∧ m.hi = true) then some m else some e) ∧
    (externalCandidate s = none → majorCandidate s = none → vstopi s = 0) ∧
    (∀ w, winner s = some w →
      ((vstopi s).extractLsb' 16 12).toNat = w.iid ∧
      vstopi s &&& ~~~0x0FFF00FF = 0 ∧
      ((vstopi s).extractLsb' 0 8).toNat =
        (if s.hvictl.ipriom = false then 1
         else if 1 ≤ w.prio ∧ w.prio ≤ 255 then w.prio
         else if 255 < w.prio then 255
         else if w.hi = true then 0 else 255)) ∧
    (∀ (i : Instr) (n : BitVec 12), reachesBy s 0xEB0 0xDB0 n → csrField i = some n → writeAttempt i = false →
      exec i s = .next (advance (writeReg (destination i) (vstopi s) s)))

/-- R155, R156, R161: with hvictl.VTI = 1 and IID = 9 there is no major candidate, so vstopi is not zero only if bit 9
is one in vsip and vsie; with IID other than 9 the interrupt hvictl names is the major candidate, its default place by
DPR alone, whatever vsip and vsie hold. -/
def Obligations.VtiSelectsHvictlInterrupt : Prop :=
  ∀ s : State, s.hvictl.vti = true →
    (s.hvictl.iid = 9 → majorCandidate s = none ∧
      (vstopi s ≠ 0 → (vsip s).getLsbD 9 = true ∧ (vsie s).getLsbD 9 = true)) ∧
    (s.hvictl.iid ≠ 9 →
      majorCandidate s = some { iid := s.hvictl.iid.toNat, prio := s.hvictl.iprio.toNat, hi := !s.hvictl.dpr } ∧
      ((vsip s).getLsbD 9 = false → vstopiIid (vstopi s) = s.hvictl.iid.toNat))

/-- R150: vstopi is a function of vsip, vsie, VGEIN, the current file, hvictl, hviprio1, hviprio2 and the
configuration: two states that agree on them have the same vstopi, whatever their mode, pc, registers and traps. -/
def Obligations.VstopiDependsOnItsInputs : Prop :=
  ∀ s t : State, s.cfg = t.cfg → vsip s = vsip t → vsie s = vsie t → s.vgein = t.vgein →
    currentFile s = currentFile t → s.hvictl = t.hvictl → s.hviprio1 = t.hviprio1 → s.hviprio2 = t.hviprio2 →
      vstopi s = vstopi t

/-! ### Traps -/

/-- R165, R168: at a boundary where vstopi is not zero and the mode is VS with vsstatus.SIE = 1, or VU, an undelayed
turn of the hart, named by the agenda or with none left, takes the trap to VS-mode: vsepc, vscause, vstval, SPP, SPIE,
SIE, the mode and the pc as R168 says, everything else but the model's own agenda and draw count unchanged. That it is
taken at once at such a turn is the model's choice (assumption 4): R167 and D24 make the trap step enabled, not forced,
and a turn `delay` executes the instruction instead. -/
def Obligations.InterruptTrapEntersVsMode : Prop :=
  ∀ (s : State) (rest : List Turn), s.outcome = none → (s.agenda = [] ∧ rest = []) ∨ s.agenda = .hart :: rest →
    vstopi s ≠ 0 → ((s.mode = .VS ∧ s.vsSIE = true) ∨ s.mode = .VU) →
      ∃ t d, step s = .next t ∧
        t.vsepc = s.pc ∧
        t.vscause = interruptBit s.cfg ||| BitVec.ofNat 64 ((vstopi s).extractLsb' 16 12).toNat ∧
        t.vstval = 0 ∧ t.vsSPP = decide (s.mode = .VS) ∧ t.vsSPIE = s.vsSIE ∧ t.vsSIE = false ∧ t.mode = .VS ∧
        (s.vstvec &&& 3 = 0 → t.pc = s.vstvec) ∧
        (s.vstvec &&& 3 = 1 → t.pc =
          ((s.vstvec &&& ~~~3) + BitVec.ofNat 64 (4 * ((vstopi s).extractLsb' 16 12).toNat)) &&& s.cfg.xmask) ∧
        t = (((((((((s.setAgenda rest).setVsepc t.vsepc).setVscause t.vscause).setVstval t.vstval).setVsSPP
          t.vsSPP).setVsSPIE t.vsSPIE).setVsSIE t.vsSIE).setMode t.mode).setPc t.pc).setDraws d

/-- R165: in M-mode, HS-mode and U-mode, and in VS-mode with vsstatus.SIE = 0, no VS-level interrupt is taken, whatever
vstopi is: the hart, at a turn the agenda names or with none left, executes the instruction at the pc. -/
def Obligations.NoVsInterruptOutsideGuest : Prop :=
  ∀ (s : State) (w : InstrWord) (i : Instr) (rest : List Turn), s.outcome = none →
    (s.agenda = [] ∧ rest = []) ∨ s.agenda = .hart :: rest →
    (s.mode = .M ∨ s.mode = .HS ∨ s.mode = .U ∨ (s.mode = .VS ∧ s.vsSIE = false)) →
    s.pc &&& 3 = 0 → Memory.readWord s.mem s.pc.toNat = some w → decode w = .ok i →
      step s = exec i (s.setAgenda rest)

/-- R165, R168: taking the trap leaves the interrupt pending: vstopi, vsip, hvip, hvictl and the guest interrupt file
are what they were. -/
def Obligations.TrapLeavesInterruptPending : Prop :=
  ∀ s : State, vstopi (takeInterrupt s) = vstopi s ∧ vsip (takeInterrupt s) = vsip s ∧
    (takeInterrupt s).hvip = s.hvip ∧ (takeInterrupt s).hvictl = s.hvictl ∧
    currentFile (takeInterrupt s) = currentFile s

/-- R176: sret in VS-mode with hstatus.VTSR = 0 returns to vsepc, to VS or VU by SPP, with SIE from SPIE; with VTSR = 1
and in VU-mode it raises a virtual, in U-mode an illegal instruction exception; in HS-mode and M-mode with hstatus.SPV
= 1 it enters VS-mode or VU-mode at sepc. What it does there with SPV = 0 is the model's choice, SretInHypervisorModes.
-/
def Obligations.SretReturnsByMode : Prop :=
  ∀ s : State,
    (s.mode = .VS → s.outside.hstatusVTSR = false →
      exec .sret s = .next (((((s.setPc s.vsepc).setMode (if s.vsSPP then .VS else .VU)).setVsSIE s.vsSPIE).setVsSPIE
        true).setVsSPP false)) ∧
    (s.mode = .VS → s.outside.hstatusVTSR = true →
      exec .sret s = .next (s.setOutcome (some ⟨.virtualInstruction, s.pc, 0x10200073⟩))) ∧
    (s.mode = .VU → exec .sret s = .next (s.setOutcome (some ⟨.virtualInstruction, s.pc, 0x10200073⟩))) ∧
    (s.mode = .U → exec .sret s = .next (s.setOutcome (some ⟨.illegalInstruction, s.pc, 0x10200073⟩))) ∧
    (s.mode = .HS ∨ s.mode = .M → s.outside.hstatusSPV = true →
      ∃ t, exec .sret s = .next t ∧ t.pc = s.outside.sepc &&& s.cfg.xmask ∧ (t.mode = .VS ∨ t.mode = .VU))

/-- The model's choice (PRESUMED, assumption 7): sret in HS-mode and M-mode takes V from hstatus.SPV and the level from
sstatus.SPP, and leaves sstatus and hstatus as the H extension does; nothing else changes. -/
def Obligations.SretInHypervisorModes : Prop :=
  ∀ s : State, hypervisorMode s = true →
    exec .sret s = .next (((s.setPc (s.outside.sepc &&& s.cfg.xmask)).setMode
      (if s.outside.hstatusSPV then (if s.outside.sstatusSPP then .VS else .VU)
       else (if s.outside.sstatusSPP then .HS else .U))).setOutside
      { s.outside with
        sstatusSIE := s.outside.sstatusSPIE, sstatusSPIE := true, sstatusSPP := false, hstatusSPV := false })

/-- R176, R177: after a trap to VS-mode, sret with hstatus.VTSR = 0 returns to the pc, the mode and the SIE of before
the trap, and the trap is enabled again at once. -/
def Obligations.SretUndoesInterruptTrap : Prop :=
  ∀ s : State, s.outside.hstatusVTSR = false → interruptTaken s = true →
    ∃ t, exec .sret (takeInterrupt s) = .next t ∧ t.pc = s.pc ∧ t.mode = s.mode ∧ t.vsSIE = s.vsSIE ∧
      vstopi t = vstopi s ∧ interruptTaken t = true

/-- R171, R166, D18: an exception ends the run of instructions: while the outcome record stands, a turn of the hart
stops with a fault that carries it (assumption 6). Turns of the environment keep the record but for two. A trap to
M-mode or HS-mode, which may come at any boundary, a record standing or not, moves the hart to that mode and address and
clears it. An illegal instruction exception of VS-mode or VU-mode may be delivered to VS-mode: the entry of R168 with
cause code 2 and the instruction's bits or 0 in vstval, at the base of vstvec in direct and in vectored mode, nothing
else changing but the draw count (assumption 16); a virtual instruction exception is never delivered there. -/
def Obligations.ExceptionEndsRunOfInstructions : Prop :=
  ∀ (s : State) (r : TrapRecord) (e : Event) (m : Mode) (pc : Word) (o : Outside) (b : Bool) (rest : List Turn),
    (s.outcome = some r → s.agenda = [] ∨ s.agenda = .hart :: rest ∨ s.agenda = .delay :: rest →
      step s = .fault (.runEnded r)) ∧
    (s.agenda = .env e :: rest → (∀ m pc o, e ≠ .higherTrap m pc o) → (∀ b, e ≠ .deliverVs b) →
      ∀ t, step s = .next t → t.outcome = s.outcome) ∧
    (s.agenda = .env (.higherTrap m pc o) :: rest → m = .M ∨ (m = .HS ∧ s.mode ≠ .M) →
      step s =
        .next (((((s.setAgenda rest).setMode m).setPc (pc &&& s.cfg.xmask)).setOutside o).setOutcome none)) ∧
    (s.outcome = some r → s.agenda = .env (.deliverVs b) :: rest → r.kind = .illegalInstruction →
      s.mode.virt = true →
      ∃ handler d, (s.vstvec &&& 3 = 0 ∨ s.vstvec &&& 3 = 1 → handler = s.vstvec &&& ~~~3) ∧
        step s = .next (((((((((((s.setAgenda rest).setVsepc s.pc).setVscause 2).setVstval
          (if b then r.instr.setWidth 64 else 0)).setVsSPP (decide (s.mode = .VS))).setVsSPIE s.vsSIE).setVsSIE
          false).setMode .VS).setPc handler).setOutcome none).setDraws d)) ∧
    (s.outcome = some r → s.agenda = .env (.deliverVs b) :: rest → r.kind = .virtualInstruction →
      step s = .refused .notDeliverable)

/-! ### Whole-machine rules -/

/-- R166, R176, R178: a turn of the hart leaves VS-mode and VU-mode only for the other of the two: V = 0 is reached
from V = 1 only by a trap to M-mode or HS-mode, which is another agent's turn here. -/
def Obligations.HartTurnKeepsVirtualMode : Prop :=
  ∀ s t : State, hartMoves s = true → s.mode.virt = true → step s = .next t → t.mode.virt = true

/-- R120, R178: a turn of the hart with V = 1 leaves hideleg, hvien, hvictl, hviprio1, hviprio2, VGEIN, the inputs sret
reads outside VS level, IommuMap, and every guest file but the current one; of hvip it changes only bits 63:13 that
hvien virtualizes and bit 2 where hideleg delegates it, of sip and sie only bits 63:13 that hideleg delegates. -/
def Obligations.GuestTurnKeepsHypervisorState : Prop :=
  ∀ s t : State, hartMoves s = true → s.mode.virt = true → step s = .next t →
    t.hideleg = s.hideleg ∧ t.hvien = s.hvien ∧ t.hvictl = s.hvictl ∧ t.hviprio1 = s.hviprio1 ∧
    t.hviprio2 = s.hviprio2 ∧ t.vgein = s.vgein ∧ t.outside = s.outside ∧ t.iommu = s.iommu ∧ t.cfg = s.cfg ∧
    (∀ g, g ≠ s.vgein.toNat → fileAt t g = fileAt s g) ∧ (vgeinValid s = false → t.files = s.files) ∧
    (∀ i, i < 64 → t.hvip.getLsbD i ≠ s.hvip.getLsbD i →
      (13 ≤ i ∧ s.hideleg.getLsbD i = false ∧ s.hvien.getLsbD i = true) ∨ (i = 2 ∧ s.hideleg.getLsbD 2 = true)) ∧
    (∀ i, i < 64 → t.sip.getLsbD i ≠ s.sip.getLsbD i → 13 ≤ i ∧ s.hideleg.getLsbD i = true) ∧
    (∀ i, i < 64 → t.sie.getLsbD i ≠ s.sie.getLsbD i → 13 ≤ i ∧ s.hideleg.getLsbD i = true)

/-- R134, R43: with hvictl.VTI = 1 no turn of the hart in VS-mode or VU-mode clears a bit of vsip other than bit 9: the
purpose R135 gives the virtual instruction exceptions. -/
def Obligations.VtiGuestClearsNoPendingBit : Prop :=
  ∀ s t : State, hartMoves s = true → s.mode.virt = true → s.hvictl.vti = true → step s = .next t →
    ∀ i, i < 64 → i ≠ 9 → (vsip s).getLsbD i = true → (vsip t).getLsbD i = true

/-- Every stored value stays legal: a step from a legal state gives a legal state (R14-R24, R38, R42, R47, R53, R54);
vscause too holds only implemented bits, an interrupt's identity included. -/
def Obligations.StepKeepsLegal : Prop :=
  ∀ s t : State, s.legal = true → step s = .next t → t.legal = true

/-- R74, D6: no step modifies the program text, and none changes the configuration. -/
def Obligations.StepKeepsProgramText : Prop :=
  ∀ s t : State, step s = .next t → (∀ a, Memory.read t.mem a = Memory.read s.mem a) ∧ t.cfg = s.cfg

/-- R201, R52: the state after reset is in M-mode with V = 0 at the reset address with its fixed values, is legal, and
takes no VS-level interrupt. The other values are the model's choice (assumption 1); of every state the spec admits
after reset it is said that no VS-level interrupt is taken. -/
def Obligations.ResetIsLegal : Prop :=
  State.reset.mode = .M ∧ State.reset.mode.virt = false ∧ readReg 0 State.reset = 0 ∧
    State.reset.pc = State.reset.cfg.resetPc ∧ State.reset.legal = true ∧ State.reset.maybeReset = true ∧
    ∀ s : State, s.maybeReset = true → interruptTaken s = false
end

