-- ==== Sys2Proof/Laws/Agents.lean ====
section
/-! SUPPORT. What the turns of the agents other than the hart can do, said once. -/

namespace Sys2Proof.Machine

/-! ### The form of an MSI write -/

/-- The data of an MSI is four bytes (R67). -/
theorem msiData_eq_none (l : List Byte) : msiData l = none ↔ l.length ≠ 4 := by
  unfold msiData
  split
  · simp
  · next h =>
    refine ⟨fun _ hl => ?_, fun _ => rfl⟩
    match l, hl with
    | [a, b, c, d], _ => exact h a b c d rfl

/-- A write that has not the one form an interrupt file's page admits gives no data (R68, D2). -/
theorem msiWord_eq_none (addr : Nat) (l : List Byte) : msiWord addr l = none ↔ l.length ≠ 4 ∨ addr % 4096 ≠ 0 := by
  unfold msiWord
  split
  · next h => simp [msiData_eq_none, h]
  · next h => simp [h]

/-- The four bytes of a word, in memory order, are that word (R67, D1). -/
theorem wordOfBytes_extract (n : BitVec 32) :
    wordOfBytes (n.extractLsb' 0 8) (n.extractLsb' 8 8) (n.extractLsb' 16 8) (n.extractLsb' 24 8) = n := by
  unfold wordOfBytes
  ext i hi
  simp
  grind

/-- The four bytes of a word at offset 0 of a page are the data of an MSI (R62, R67). -/
theorem msiWord_bytes (addr : Nat) (n : BitVec 32) (h : addr % 4096 = 0) :
    msiWord addr [n.extractLsb' 0 8, n.extractLsb' 8 8, n.extractLsb' 16 8, n.extractLsb' 24 8] = some n := by
  unfold msiWord
  rw [if_pos h]
  exact congrArg some (wordOfBytes_extract n)

/-! ### The pages of the files -/

/-- An address in the page at index `j` of a list of distinct pages is found there (R70, D3). -/
theorem pageFile_of_getElem? (addr base : Nat) (hq : addr / 4096 = base / 4096) (l : List Nat) (g j : Nat)
    (hn : l.Nodup) (ha : ∀ a ∈ l, a % 4096 = 0) (h : l[j]? = some base) : pageFile addr g l = some (g + j) := by
  induction l generalizing g j with
  | nil => simp at h
  | cons a l ih =>
    cases j with
    | zero =>
      obtain rfl : a = base := by simpa using h
      simp [pageFile, hq]
    | succ j =>
      have h' : l[j]? = some base := by simpa using h
      have hm : base ∈ l := List.mem_of_getElem? h'
      have hne : a ≠ base := fun e => (List.nodup_cons.mp hn).1 (e ▸ hm)
      have h1 := ha a (by simp)
      have h2 := ha base (by simp [hm])
      rw [pageFile, if_neg (by omega), ih (g + 1) j (List.nodup_cons.mp hn).2 (fun x hx => ha x (by simp [hx])) h']
      congr 1
      omega

/-! ### The turns -/

/-- An MSI write that gives a next state reaches a file of this hart (R62). -/
theorem applyMsi_next (g n : Nat) (s t : State) (h : applyMsi g n s = .next t) :
    1 ≤ g ∧ g ≤ s.cfg.geilen ∧ t = setFileAt s g (msiWrite s.cfg (fileAt s g) n) := by
  unfold applyMsi at h
  split at h
  · next hg => cases h; exact ⟨hg.1, hg.2, rfl⟩
  · cases h

/-- A bus write that gives a next state is the MSI write of its data to the file of its page (R62, R68). -/
theorem applyBusWrite_next (addr : Nat) (l : List Byte) (s t : State) (h : applyBusWrite addr l s = .next t) :
    ∃ g n, pageFile addr 1 s.cfg.fileAddr = some g ∧ msiWord addr l = some n ∧ applyMsi g n.toNat s = .next t := by
  unfold applyBusWrite at h
  split at h
  · cases h
  · next g hg =>
    split at h
    · next n hn => exact ⟨g, n, hg, hn, h⟩
    · cases h

/-- A device write that gives a next state has the form of an MSI write, and is that of its data to the file IommuMap
gives, or changes nothing where that is a file of another hart (R63, R68). -/
theorem applyDeviceWrite_next (gpa : Nat) (l : List Byte) (s t : State) (h : applyDeviceWrite gpa l s = .next t) :
    ∃ f n, s.iommu.lookup gpa = some f ∧ msiWord gpa l = some n ∧
      ((f.hart = s.cfg.hartId ∧ applyMsi f.file n.toNat s = .next t) ∨ (f.hart ≠ s.cfg.hartId ∧ t = s)) := by
  unfold applyDeviceWrite at h
  split at h
  · cases h
  · next f hf =>
    split at h
    · cases h
    · next n hn =>
      refine ⟨f, n, hf, hn, ?_⟩
      split at h
      · next hh => exact .inl ⟨hh, h⟩
      · next hh => cases h; exact .inr ⟨hh, rfl⟩

/-- The turns of the other agents but the trap to M-mode or HS-mode and the delivery to VS-mode keep the outcome record
(R171). -/
theorem applyEvent_outcome (e : Event) (s t : State) (h : applyEvent e s = .next t)
    (h1 : ∀ m pc o, e ≠ .higherTrap m pc o) (h2 : ∀ b, e ≠ .deliverVs b) : t.outcome = s.outcome := by
  have hm : ∀ g n, applyMsi g n s = .next t → t.outcome = s.outcome := fun g n hg => by
    unfold applyMsi at hg
    split at hg <;> cases hg
    rfl
  cases e with
  | msi g d => exact hm _ _ h
  | busWrite a l =>
    obtain ⟨g, n, -, -, hg⟩ := applyBusWrite_next a l s t h
    exact hm _ _ hg
  | deviceWrite a l =>
    obtain ⟨f, n, -, -, ⟨-, hg⟩ | ⟨-, rfl⟩⟩ := applyDeviceWrite_next a l s t h
    · exact hm _ _ hg
    · rfl
  | higherTrap m pc o => exact absurd rfl (h1 m pc o)
  | deliverVs b => exact absurd rfl (h2 b)
  | setIommu gpa target => cases h; rfl
  | setSip v => cases h; rfl
  | setSie v => cases h; rfl
  | setHie v => cases h; rfl
  | setTimer b => cases h; rfl
  | setPlatform b => cases h; rfl
  | setOutside o => cases h; rfl

/-- What the turn of another agent can do: set a pending bit of one file, change one input or IommuMap, trap to M-mode or
HS-mode, or deliver an illegal instruction exception to VS-mode. -/
theorem applyEvent_next (e : Event) (s t : State) (h : applyEvent e s = .next t) :
    t = s ∨ (∃ g n, applyMsi g n s = .next t) ∨ (∃ m, t = s.setIommu m) ∨ (∃ v, t = s.setSip v) ∨
      (∃ v, t = s.setSie v) ∨ (∃ v, t = s.setHie v) ∨ (∃ b, t = s.setVstipTimer b) ∨ (∃ b, t = s.setVseipPlatform b) ∨
      (∃ o, t = s.setOutside o) ∨
      (∃ m pc o, (m = .M ∨ (m = .HS ∧ s.mode ≠ .M)) ∧
        t = (((s.setMode m).setPc (pc &&& s.cfg.xmask)).setOutside o).setOutcome none) ∨
      (∃ r v, s.outcome = some r ∧ r.kind = .illegalInstruction ∧ s.mode.virt = true ∧
        (v = 0 ∨ v = r.instr.setWidth 64) ∧ t = (trapToVS false r.kind.code v s).setOutcome none) := by
  cases e with
  | msi g data => exact .inr (.inl ⟨g, data.toNat, h⟩)
  | busWrite addr l =>
    obtain ⟨g, n, -, -, hm⟩ := applyBusWrite_next addr l s t h
    exact .inr (.inl ⟨g, n.toNat, hm⟩)
  | deviceWrite gpa l =>
    obtain ⟨f, n, -, -, ⟨-, hm⟩ | ⟨-, rfl⟩⟩ := applyDeviceWrite_next gpa l s t h
    · exact .inr (.inl ⟨f.file, n.toNat, hm⟩)
    · exact .inl rfl
  | setIommu gpa target => cases h; exact .inr (.inr (.inl ⟨_, rfl⟩))
  | setSip v => cases h; exact .inr (.inr (.inr (.inl ⟨_, rfl⟩)))
  | setSie v => cases h; exact .inr (.inr (.inr (.inr (.inl ⟨_, rfl⟩))))
  | setHie v => cases h; exact .inr (.inr (.inr (.inr (.inr (.inl ⟨_, rfl⟩)))))
  | setTimer b => cases h; exact .inr (.inr (.inr (.inr (.inr (.inr (.inl ⟨_, rfl⟩))))))
  | setPlatform b => cases h; exact .inr (.inr (.inr (.inr (.inr (.inr (.inr (.inl ⟨_, rfl⟩)))))))
  | setOutside o => cases h; exact .inr (.inr (.inr (.inr (.inr (.inr (.inr (.inr (.inl ⟨_, rfl⟩))))))))
  | higherTrap m pc o =>
    simp only [applyEvent, applyHigherTrap] at h
    split at h
    · next hm => cases h; exact .inr (.inr (.inr (.inr (.inr (.inr (.inr (.inr (.inr (.inl ⟨m, pc, o, hm, rfl⟩)))))))))
    · cases h
  | deliverVs b =>
    simp only [applyEvent, applyDeliverVs] at h
    split at h
    · cases h
    · next r hr =>
      split at h
      · next hk =>
        cases h
        refine .inr (.inr (.inr (.inr (.inr (.inr (.inr (.inr (.inr (.inr ⟨r, _, hr, hk.1, hk.2, ?_, rfl⟩)))))))))
        cases b
        · exact .inl rfl
        · exact .inr rfl
      · cases h

end Sys2Proof.Machine
end

