-- ==== Sys2Proof/Laws/State.lean ====
section
/-! SUPPORT. Each field of a state after each update of State.lean: one lemma per field per update, true by rfl.
-/

namespace Sys2Proof.Machine

section
variable (s : State) (v : Mode)
@[simp] theorem State.setMode_cfg : (s.setMode v).cfg = s.cfg := rfl
@[simp] theorem State.setMode_mode : (s.setMode v).mode = v := rfl
@[simp] theorem State.setMode_pc : (s.setMode v).pc = s.pc := rfl
@[simp] theorem State.setMode_x : (s.setMode v).x = s.x := rfl
@[simp] theorem State.setMode_vgein : (s.setMode v).vgein = s.vgein := rfl
@[simp] theorem State.setMode_vsSIE : (s.setMode v).vsSIE = s.vsSIE := rfl
@[simp] theorem State.setMode_vsSPIE : (s.setMode v).vsSPIE = s.vsSPIE := rfl
@[simp] theorem State.setMode_vsSPP : (s.setMode v).vsSPP = s.vsSPP := rfl
@[simp] theorem State.setMode_vscause : (s.setMode v).vscause = s.vscause := rfl
@[simp] theorem State.setMode_vsepc : (s.setMode v).vsepc = s.vsepc := rfl
@[simp] theorem State.setMode_vstvec : (s.setMode v).vstvec = s.vstvec := rfl
@[simp] theorem State.setMode_vstval : (s.setMode v).vstval = s.vstval := rfl
@[simp] theorem State.setMode_hideleg : (s.setMode v).hideleg = s.hideleg := rfl
@[simp] theorem State.setMode_hvien : (s.setMode v).hvien = s.hvien := rfl
@[simp] theorem State.setMode_hvip : (s.setMode v).hvip = s.hvip := rfl
@[simp] theorem State.setMode_hvictl : (s.setMode v).hvictl = s.hvictl := rfl
@[simp] theorem State.setMode_hviprio1 : (s.setMode v).hviprio1 = s.hviprio1 := rfl
@[simp] theorem State.setMode_hviprio2 : (s.setMode v).hviprio2 = s.hviprio2 := rfl
@[simp] theorem State.setMode_vsieOwn : (s.setMode v).vsieOwn = s.vsieOwn := rfl
@[simp] theorem State.setMode_vsiselect : (s.setMode v).vsiselect = s.vsiselect := rfl
@[simp] theorem State.setMode_files : (s.setMode v).files = s.files := rfl
@[simp] theorem State.setMode_sip : (s.setMode v).sip = s.sip := rfl
@[simp] theorem State.setMode_sie : (s.setMode v).sie = s.sie := rfl
@[simp] theorem State.setMode_hie : (s.setMode v).hie = s.hie := rfl
@[simp] theorem State.setMode_vstipTimer : (s.setMode v).vstipTimer = s.vstipTimer := rfl
@[simp] theorem State.setMode_vseipPlatform : (s.setMode v).vseipPlatform = s.vseipPlatform := rfl
@[simp] theorem State.setMode_outside : (s.setMode v).outside = s.outside := rfl
@[simp] theorem State.setMode_iommu : (s.setMode v).iommu = s.iommu := rfl
@[simp] theorem State.setMode_mem : (s.setMode v).mem = s.mem := rfl
@[simp] theorem State.setMode_outcome : (s.setMode v).outcome = s.outcome := rfl
@[simp] theorem State.setMode_agenda : (s.setMode v).agenda = s.agenda := rfl
@[simp] theorem State.setMode_draws : (s.setMode v).draws = s.draws := rfl
end

section
variable (s : State) (v : Word)
@[simp] theorem State.setPc_cfg : (s.setPc v).cfg = s.cfg := rfl
@[simp] theorem State.setPc_mode : (s.setPc v).mode = s.mode := rfl
@[simp] theorem State.setPc_pc : (s.setPc v).pc = v := rfl
@[simp] theorem State.setPc_x : (s.setPc v).x = s.x := rfl
@[simp] theorem State.setPc_vgein : (s.setPc v).vgein = s.vgein := rfl
@[simp] theorem State.setPc_vsSIE : (s.setPc v).vsSIE = s.vsSIE := rfl
@[simp] theorem State.setPc_vsSPIE : (s.setPc v).vsSPIE = s.vsSPIE := rfl
@[simp] theorem State.setPc_vsSPP : (s.setPc v).vsSPP = s.vsSPP := rfl
@[simp] theorem State.setPc_vscause : (s.setPc v).vscause = s.vscause := rfl
@[simp] theorem State.setPc_vsepc : (s.setPc v).vsepc = s.vsepc := rfl
@[simp] theorem State.setPc_vstvec : (s.setPc v).vstvec = s.vstvec := rfl
@[simp] theorem State.setPc_vstval : (s.setPc v).vstval = s.vstval := rfl
@[simp] theorem State.setPc_hideleg : (s.setPc v).hideleg = s.hideleg := rfl
@[simp] theorem State.setPc_hvien : (s.setPc v).hvien = s.hvien := rfl
@[simp] theorem State.setPc_hvip : (s.setPc v).hvip = s.hvip := rfl
@[simp] theorem State.setPc_hvictl : (s.setPc v).hvictl = s.hvictl := rfl
@[simp] theorem State.setPc_hviprio1 : (s.setPc v).hviprio1 = s.hviprio1 := rfl
@[simp] theorem State.setPc_hviprio2 : (s.setPc v).hviprio2 = s.hviprio2 := rfl
@[simp] theorem State.setPc_vsieOwn : (s.setPc v).vsieOwn = s.vsieOwn := rfl
@[simp] theorem State.setPc_vsiselect : (s.setPc v).vsiselect = s.vsiselect := rfl
@[simp] theorem State.setPc_files : (s.setPc v).files = s.files := rfl
@[simp] theorem State.setPc_sip : (s.setPc v).sip = s.sip := rfl
@[simp] theorem State.setPc_sie : (s.setPc v).sie = s.sie := rfl
@[simp] theorem State.setPc_hie : (s.setPc v).hie = s.hie := rfl
@[simp] theorem State.setPc_vstipTimer : (s.setPc v).vstipTimer = s.vstipTimer := rfl
@[simp] theorem State.setPc_vseipPlatform : (s.setPc v).vseipPlatform = s.vseipPlatform := rfl
@[simp] theorem State.setPc_outside : (s.setPc v).outside = s.outside := rfl
@[simp] theorem State.setPc_iommu : (s.setPc v).iommu = s.iommu := rfl
@[simp] theorem State.setPc_mem : (s.setPc v).mem = s.mem := rfl
@[simp] theorem State.setPc_outcome : (s.setPc v).outcome = s.outcome := rfl
@[simp] theorem State.setPc_agenda : (s.setPc v).agenda = s.agenda := rfl
@[simp] theorem State.setPc_draws : (s.setPc v).draws = s.draws := rfl
end

section
variable (s : State) (v : Vector Word 32)
@[simp] theorem State.setX_cfg : (s.setX v).cfg = s.cfg := rfl
@[simp] theorem State.setX_mode : (s.setX v).mode = s.mode := rfl
@[simp] theorem State.setX_pc : (s.setX v).pc = s.pc := rfl
@[simp] theorem State.setX_x : (s.setX v).x = v := rfl
@[simp] theorem State.setX_vgein : (s.setX v).vgein = s.vgein := rfl
@[simp] theorem State.setX_vsSIE : (s.setX v).vsSIE = s.vsSIE := rfl
@[simp] theorem State.setX_vsSPIE : (s.setX v).vsSPIE = s.vsSPIE := rfl
@[simp] theorem State.setX_vsSPP : (s.setX v).vsSPP = s.vsSPP := rfl
@[simp] theorem State.setX_vscause : (s.setX v).vscause = s.vscause := rfl
@[simp] theorem State.setX_vsepc : (s.setX v).vsepc = s.vsepc := rfl
@[simp] theorem State.setX_vstvec : (s.setX v).vstvec = s.vstvec := rfl
@[simp] theorem State.setX_vstval : (s.setX v).vstval = s.vstval := rfl
@[simp] theorem State.setX_hideleg : (s.setX v).hideleg = s.hideleg := rfl
@[simp] theorem State.setX_hvien : (s.setX v).hvien = s.hvien := rfl
@[simp] theorem State.setX_hvip : (s.setX v).hvip = s.hvip := rfl
@[simp] theorem State.setX_hvictl : (s.setX v).hvictl = s.hvictl := rfl
@[simp] theorem State.setX_hviprio1 : (s.setX v).hviprio1 = s.hviprio1 := rfl
@[simp] theorem State.setX_hviprio2 : (s.setX v).hviprio2 = s.hviprio2 := rfl
@[simp] theorem State.setX_vsieOwn : (s.setX v).vsieOwn = s.vsieOwn := rfl
@[simp] theorem State.setX_vsiselect : (s.setX v).vsiselect = s.vsiselect := rfl
@[simp] theorem State.setX_files : (s.setX v).files = s.files := rfl
@[simp] theorem State.setX_sip : (s.setX v).sip = s.sip := rfl
@[simp] theorem State.setX_sie : (s.setX v).sie = s.sie := rfl
@[simp] theorem State.setX_hie : (s.setX v).hie = s.hie := rfl
@[simp] theorem State.setX_vstipTimer : (s.setX v).vstipTimer = s.vstipTimer := rfl
@[simp] theorem State.setX_vseipPlatform : (s.setX v).vseipPlatform = s.vseipPlatform := rfl
@[simp] theorem State.setX_outside : (s.setX v).outside = s.outside := rfl
@[simp] theorem State.setX_iommu : (s.setX v).iommu = s.iommu := rfl
@[simp] theorem State.setX_mem : (s.setX v).mem = s.mem := rfl
@[simp] theorem State.setX_outcome : (s.setX v).outcome = s.outcome := rfl
@[simp] theorem State.setX_agenda : (s.setX v).agenda = s.agenda := rfl
@[simp] theorem State.setX_draws : (s.setX v).draws = s.draws := rfl
end

section
variable (s : State) (v : BitVec 6)
@[simp] theorem State.setVgein_cfg : (s.setVgein v).cfg = s.cfg := rfl
@[simp] theorem State.setVgein_mode : (s.setVgein v).mode = s.mode := rfl
@[simp] theorem State.setVgein_pc : (s.setVgein v).pc = s.pc := rfl
@[simp] theorem State.setVgein_x : (s.setVgein v).x = s.x := rfl
@[simp] theorem State.setVgein_vgein : (s.setVgein v).vgein = v := rfl
@[simp] theorem State.setVgein_vsSIE : (s.setVgein v).vsSIE = s.vsSIE := rfl
@[simp] theorem State.setVgein_vsSPIE : (s.setVgein v).vsSPIE = s.vsSPIE := rfl
@[simp] theorem State.setVgein_vsSPP : (s.setVgein v).vsSPP = s.vsSPP := rfl
@[simp] theorem State.setVgein_vscause : (s.setVgein v).vscause = s.vscause := rfl
@[simp] theorem State.setVgein_vsepc : (s.setVgein v).vsepc = s.vsepc := rfl
@[simp] theorem State.setVgein_vstvec : (s.setVgein v).vstvec = s.vstvec := rfl
@[simp] theorem State.setVgein_vstval : (s.setVgein v).vstval = s.vstval := rfl
@[simp] theorem State.setVgein_hideleg : (s.setVgein v).hideleg = s.hideleg := rfl
@[simp] theorem State.setVgein_hvien : (s.setVgein v).hvien = s.hvien := rfl
@[simp] theorem State.setVgein_hvip : (s.setVgein v).hvip = s.hvip := rfl
@[simp] theorem State.setVgein_hvictl : (s.setVgein v).hvictl = s.hvictl := rfl
@[simp] theorem State.setVgein_hviprio1 : (s.setVgein v).hviprio1 = s.hviprio1 := rfl
@[simp] theorem State.setVgein_hviprio2 : (s.setVgein v).hviprio2 = s.hviprio2 := rfl
@[simp] theorem State.setVgein_vsieOwn : (s.setVgein v).vsieOwn = s.vsieOwn := rfl
@[simp] theorem State.setVgein_vsiselect : (s.setVgein v).vsiselect = s.vsiselect := rfl
@[simp] theorem State.setVgein_files : (s.setVgein v).files = s.files := rfl
@[simp] theorem State.setVgein_sip : (s.setVgein v).sip = s.sip := rfl
@[simp] theorem State.setVgein_sie : (s.setVgein v).sie = s.sie := rfl
@[simp] theorem State.setVgein_hie : (s.setVgein v).hie = s.hie := rfl
@[simp] theorem State.setVgein_vstipTimer : (s.setVgein v).vstipTimer = s.vstipTimer := rfl
@[simp] theorem State.setVgein_vseipPlatform : (s.setVgein v).vseipPlatform = s.vseipPlatform := rfl
@[simp] theorem State.setVgein_outside : (s.setVgein v).outside = s.outside := rfl
@[simp] theorem State.setVgein_iommu : (s.setVgein v).iommu = s.iommu := rfl
@[simp] theorem State.setVgein_mem : (s.setVgein v).mem = s.mem := rfl
@[simp] theorem State.setVgein_outcome : (s.setVgein v).outcome = s.outcome := rfl
@[simp] theorem State.setVgein_agenda : (s.setVgein v).agenda = s.agenda := rfl
@[simp] theorem State.setVgein_draws : (s.setVgein v).draws = s.draws := rfl
end

section
variable (s : State) (v : Bool)
@[simp] theorem State.setVsSIE_cfg : (s.setVsSIE v).cfg = s.cfg := rfl
@[simp] theorem State.setVsSIE_mode : (s.setVsSIE v).mode = s.mode := rfl
@[simp] theorem State.setVsSIE_pc : (s.setVsSIE v).pc = s.pc := rfl
@[simp] theorem State.setVsSIE_x : (s.setVsSIE v).x = s.x := rfl
@[simp] theorem State.setVsSIE_vgein : (s.setVsSIE v).vgein = s.vgein := rfl
@[simp] theorem State.setVsSIE_vsSIE : (s.setVsSIE v).vsSIE = v := rfl
@[simp] theorem State.setVsSIE_vsSPIE : (s.setVsSIE v).vsSPIE = s.vsSPIE := rfl
@[simp] theorem State.setVsSIE_vsSPP : (s.setVsSIE v).vsSPP = s.vsSPP := rfl
@[simp] theorem State.setVsSIE_vscause : (s.setVsSIE v).vscause = s.vscause := rfl
@[simp] theorem State.setVsSIE_vsepc : (s.setVsSIE v).vsepc = s.vsepc := rfl
@[simp] theorem State.setVsSIE_vstvec : (s.setVsSIE v).vstvec = s.vstvec := rfl
@[simp] theorem State.setVsSIE_vstval : (s.setVsSIE v).vstval = s.vstval := rfl
@[simp] theorem State.setVsSIE_hideleg : (s.setVsSIE v).hideleg = s.hideleg := rfl
@[simp] theorem State.setVsSIE_hvien : (s.setVsSIE v).hvien = s.hvien := rfl
@[simp] theorem State.setVsSIE_hvip : (s.setVsSIE v).hvip = s.hvip := rfl
@[simp] theorem State.setVsSIE_hvictl : (s.setVsSIE v).hvictl = s.hvictl := rfl
@[simp] theorem State.setVsSIE_hviprio1 : (s.setVsSIE v).hviprio1 = s.hviprio1 := rfl
@[simp] theorem State.setVsSIE_hviprio2 : (s.setVsSIE v).hviprio2 = s.hviprio2 := rfl
@[simp] theorem State.setVsSIE_vsieOwn : (s.setVsSIE v).vsieOwn = s.vsieOwn := rfl
@[simp] theorem State.setVsSIE_vsiselect : (s.setVsSIE v).vsiselect = s.vsiselect := rfl
@[simp] theorem State.setVsSIE_files : (s.setVsSIE v).files = s.files := rfl
@[simp] theorem State.setVsSIE_sip : (s.setVsSIE v).sip = s.sip := rfl
@[simp] theorem State.setVsSIE_sie : (s.setVsSIE v).sie = s.sie := rfl
@[simp] theorem State.setVsSIE_hie : (s.setVsSIE v).hie = s.hie := rfl
@[simp] theorem State.setVsSIE_vstipTimer : (s.setVsSIE v).vstipTimer = s.vstipTimer := rfl
@[simp] theorem State.setVsSIE_vseipPlatform : (s.setVsSIE v).vseipPlatform = s.vseipPlatform := rfl
@[simp] theorem State.setVsSIE_outside : (s.setVsSIE v).outside = s.outside := rfl
@[simp] theorem State.setVsSIE_iommu : (s.setVsSIE v).iommu = s.iommu := rfl
@[simp] theorem State.setVsSIE_mem : (s.setVsSIE v).mem = s.mem := rfl
@[simp] theorem State.setVsSIE_outcome : (s.setVsSIE v).outcome = s.outcome := rfl
@[simp] theorem State.setVsSIE_agenda : (s.setVsSIE v).agenda = s.agenda := rfl
@[simp] theorem State.setVsSIE_draws : (s.setVsSIE v).draws = s.draws := rfl
end

section
variable (s : State) (v : Bool)
@[simp] theorem State.setVsSPIE_cfg : (s.setVsSPIE v).cfg = s.cfg := rfl
@[simp] theorem State.setVsSPIE_mode : (s.setVsSPIE v).mode = s.mode := rfl
@[simp] theorem State.setVsSPIE_pc : (s.setVsSPIE v).pc = s.pc := rfl
@[simp] theorem State.setVsSPIE_x : (s.setVsSPIE v).x = s.x := rfl
@[simp] theorem State.setVsSPIE_vgein : (s.setVsSPIE v).vgein = s.vgein := rfl
@[simp] theorem State.setVsSPIE_vsSIE : (s.setVsSPIE v).vsSIE = s.vsSIE := rfl
@[simp] theorem State.setVsSPIE_vsSPIE : (s.setVsSPIE v).vsSPIE = v := rfl
@[simp] theorem State.setVsSPIE_vsSPP : (s.setVsSPIE v).vsSPP = s.vsSPP := rfl
@[simp] theorem State.setVsSPIE_vscause : (s.setVsSPIE v).vscause = s.vscause := rfl
@[simp] theorem State.setVsSPIE_vsepc : (s.setVsSPIE v).vsepc = s.vsepc := rfl
@[simp] theorem State.setVsSPIE_vstvec : (s.setVsSPIE v).vstvec = s.vstvec := rfl
@[simp] theorem State.setVsSPIE_vstval : (s.setVsSPIE v).vstval = s.vstval := rfl
@[simp] theorem State.setVsSPIE_hideleg : (s.setVsSPIE v).hideleg = s.hideleg := rfl
@[simp] theorem State.setVsSPIE_hvien : (s.setVsSPIE v).hvien = s.hvien := rfl
@[simp] theorem State.setVsSPIE_hvip : (s.setVsSPIE v).hvip = s.hvip := rfl
@[simp] theorem State.setVsSPIE_hvictl : (s.setVsSPIE v).hvictl = s.hvictl := rfl
@[simp] theorem State.setVsSPIE_hviprio1 : (s.setVsSPIE v).hviprio1 = s.hviprio1 := rfl
@[simp] theorem State.setVsSPIE_hviprio2 : (s.setVsSPIE v).hviprio2 = s.hviprio2 := rfl
@[simp] theorem State.setVsSPIE_vsieOwn : (s.setVsSPIE v).vsieOwn = s.vsieOwn := rfl
@[simp] theorem State.setVsSPIE_vsiselect : (s.setVsSPIE v).vsiselect = s.vsiselect := rfl
@[simp] theorem State.setVsSPIE_files : (s.setVsSPIE v).files = s.files := rfl
@[simp] theorem State.setVsSPIE_sip : (s.setVsSPIE v).sip = s.sip := rfl
@[simp] theorem State.setVsSPIE_sie : (s.setVsSPIE v).sie = s.sie := rfl
@[simp] theorem State.setVsSPIE_hie : (s.setVsSPIE v).hie = s.hie := rfl
@[simp] theorem State.setVsSPIE_vstipTimer : (s.setVsSPIE v).vstipTimer = s.vstipTimer := rfl
@[simp] theorem State.setVsSPIE_vseipPlatform : (s.setVsSPIE v).vseipPlatform = s.vseipPlatform := rfl
@[simp] theorem State.setVsSPIE_outside : (s.setVsSPIE v).outside = s.outside := rfl
@[simp] theorem State.setVsSPIE_iommu : (s.setVsSPIE v).iommu = s.iommu := rfl
@[simp] theorem State.setVsSPIE_mem : (s.setVsSPIE v).mem = s.mem := rfl
@[simp] theorem State.setVsSPIE_outcome : (s.setVsSPIE v).outcome = s.outcome := rfl
@[simp] theorem State.setVsSPIE_agenda : (s.setVsSPIE v).agenda = s.agenda := rfl
@[simp] theorem State.setVsSPIE_draws : (s.setVsSPIE v).draws = s.draws := rfl
end

section
variable (s : State) (v : Bool)
@[simp] theorem State.setVsSPP_cfg : (s.setVsSPP v).cfg = s.cfg := rfl
@[simp] theorem State.setVsSPP_mode : (s.setVsSPP v).mode = s.mode := rfl
@[simp] theorem State.setVsSPP_pc : (s.setVsSPP v).pc = s.pc := rfl
@[simp] theorem State.setVsSPP_x : (s.setVsSPP v).x = s.x := rfl
@[simp] theorem State.setVsSPP_vgein : (s.setVsSPP v).vgein = s.vgein := rfl
@[simp] theorem State.setVsSPP_vsSIE : (s.setVsSPP v).vsSIE = s.vsSIE := rfl
@[simp] theorem State.setVsSPP_vsSPIE : (s.setVsSPP v).vsSPIE = s.vsSPIE := rfl
@[simp] theorem State.setVsSPP_vsSPP : (s.setVsSPP v).vsSPP = v := rfl
@[simp] theorem State.setVsSPP_vscause : (s.setVsSPP v).vscause = s.vscause := rfl
@[simp] theorem State.setVsSPP_vsepc : (s.setVsSPP v).vsepc = s.vsepc := rfl
@[simp] theorem State.setVsSPP_vstvec : (s.setVsSPP v).vstvec = s.vstvec := rfl
@[simp] theorem State.setVsSPP_vstval : (s.setVsSPP v).vstval = s.vstval := rfl
@[simp] theorem State.setVsSPP_hideleg : (s.setVsSPP v).hideleg = s.hideleg := rfl
@[simp] theorem State.setVsSPP_hvien : (s.setVsSPP v).hvien = s.hvien := rfl
@[simp] theorem State.setVsSPP_hvip : (s.setVsSPP v).hvip = s.hvip := rfl
@[simp] theorem State.setVsSPP_hvictl : (s.setVsSPP v).hvictl = s.hvictl := rfl
@[simp] theorem State.setVsSPP_hviprio1 : (s.setVsSPP v).hviprio1 = s.hviprio1 := rfl
@[simp] theorem State.setVsSPP_hviprio2 : (s.setVsSPP v).hviprio2 = s.hviprio2 := rfl
@[simp] theorem State.setVsSPP_vsieOwn : (s.setVsSPP v).vsieOwn = s.vsieOwn := rfl
@[simp] theorem State.setVsSPP_vsiselect : (s.setVsSPP v).vsiselect = s.vsiselect := rfl
@[simp] theorem State.setVsSPP_files : (s.setVsSPP v).files = s.files := rfl
@[simp] theorem State.setVsSPP_sip : (s.setVsSPP v).sip = s.sip := rfl
@[simp] theorem State.setVsSPP_sie : (s.setVsSPP v).sie = s.sie := rfl
@[simp] theorem State.setVsSPP_hie : (s.setVsSPP v).hie = s.hie := rfl
@[simp] theorem State.setVsSPP_vstipTimer : (s.setVsSPP v).vstipTimer = s.vstipTimer := rfl
@[simp] theorem State.setVsSPP_vseipPlatform : (s.setVsSPP v).vseipPlatform = s.vseipPlatform := rfl
@[simp] theorem State.setVsSPP_outside : (s.setVsSPP v).outside = s.outside := rfl
@[simp] theorem State.setVsSPP_iommu : (s.setVsSPP v).iommu = s.iommu := rfl
@[simp] theorem State.setVsSPP_mem : (s.setVsSPP v).mem = s.mem := rfl
@[simp] theorem State.setVsSPP_outcome : (s.setVsSPP v).outcome = s.outcome := rfl
@[simp] theorem State.setVsSPP_agenda : (s.setVsSPP v).agenda = s.agenda := rfl
@[simp] theorem State.setVsSPP_draws : (s.setVsSPP v).draws = s.draws := rfl
end

section
variable (s : State) (v : Word)
@[simp] theorem State.setVscause_cfg : (s.setVscause v).cfg = s.cfg := rfl
@[simp] theorem State.setVscause_mode : (s.setVscause v).mode = s.mode := rfl
@[simp] theorem State.setVscause_pc : (s.setVscause v).pc = s.pc := rfl
@[simp] theorem State.setVscause_x : (s.setVscause v).x = s.x := rfl
@[simp] theorem State.setVscause_vgein : (s.setVscause v).vgein = s.vgein := rfl
@[simp] theorem State.setVscause_vsSIE : (s.setVscause v).vsSIE = s.vsSIE := rfl
@[simp] theorem State.setVscause_vsSPIE : (s.setVscause v).vsSPIE = s.vsSPIE := rfl
@[simp] theorem State.setVscause_vsSPP : (s.setVscause v).vsSPP = s.vsSPP := rfl
@[simp] theorem State.setVscause_vscause : (s.setVscause v).vscause = v := rfl
@[simp] theorem State.setVscause_vsepc : (s.setVscause v).vsepc = s.vsepc := rfl
@[simp] theorem State.setVscause_vstvec : (s.setVscause v).vstvec = s.vstvec := rfl
@[simp] theorem State.setVscause_vstval : (s.setVscause v).vstval = s.vstval := rfl
@[simp] theorem State.setVscause_hideleg : (s.setVscause v).hideleg = s.hideleg := rfl
@[simp] theorem State.setVscause_hvien : (s.setVscause v).hvien = s.hvien := rfl
@[simp] theorem State.setVscause_hvip : (s.setVscause v).hvip = s.hvip := rfl
@[simp] theorem State.setVscause_hvictl : (s.setVscause v).hvictl = s.hvictl := rfl
@[simp] theorem State.setVscause_hviprio1 : (s.setVscause v).hviprio1 = s.hviprio1 := rfl
@[simp] theorem State.setVscause_hviprio2 : (s.setVscause v).hviprio2 = s.hviprio2 := rfl
@[simp] theorem State.setVscause_vsieOwn : (s.setVscause v).vsieOwn = s.vsieOwn := rfl
@[simp] theorem State.setVscause_vsiselect : (s.setVscause v).vsiselect = s.vsiselect := rfl
@[simp] theorem State.setVscause_files : (s.setVscause v).files = s.files := rfl
@[simp] theorem State.setVscause_sip : (s.setVscause v).sip = s.sip := rfl
@[simp] theorem State.setVscause_sie : (s.setVscause v).sie = s.sie := rfl
@[simp] theorem State.setVscause_hie : (s.setVscause v).hie = s.hie := rfl
@[simp] theorem State.setVscause_vstipTimer : (s.setVscause v).vstipTimer = s.vstipTimer := rfl
@[simp] theorem State.setVscause_vseipPlatform : (s.setVscause v).vseipPlatform = s.vseipPlatform := rfl
@[simp] theorem State.setVscause_outside : (s.setVscause v).outside = s.outside := rfl
@[simp] theorem State.setVscause_iommu : (s.setVscause v).iommu = s.iommu := rfl
@[simp] theorem State.setVscause_mem : (s.setVscause v).mem = s.mem := rfl
@[simp] theorem State.setVscause_outcome : (s.setVscause v).outcome = s.outcome := rfl
@[simp] theorem State.setVscause_agenda : (s.setVscause v).agenda = s.agenda := rfl
@[simp] theorem State.setVscause_draws : (s.setVscause v).draws = s.draws := rfl
end

section
variable (s : State) (v : Word)
@[simp] theorem State.setVsepc_cfg : (s.setVsepc v).cfg = s.cfg := rfl
@[simp] theorem State.setVsepc_mode : (s.setVsepc v).mode = s.mode := rfl
@[simp] theorem State.setVsepc_pc : (s.setVsepc v).pc = s.pc := rfl
@[simp] theorem State.setVsepc_x : (s.setVsepc v).x = s.x := rfl
@[simp] theorem State.setVsepc_vgein : (s.setVsepc v).vgein = s.vgein := rfl
@[simp] theorem State.setVsepc_vsSIE : (s.setVsepc v).vsSIE = s.vsSIE := rfl
@[simp] theorem State.setVsepc_vsSPIE : (s.setVsepc v).vsSPIE = s.vsSPIE := rfl
@[simp] theorem State.setVsepc_vsSPP : (s.setVsepc v).vsSPP = s.vsSPP := rfl
@[simp] theorem State.setVsepc_vscause : (s.setVsepc v).vscause = s.vscause := rfl
@[simp] theorem State.setVsepc_vsepc : (s.setVsepc v).vsepc = v := rfl
@[simp] theorem State.setVsepc_vstvec : (s.setVsepc v).vstvec = s.vstvec := rfl
@[simp] theorem State.setVsepc_vstval : (s.setVsepc v).vstval = s.vstval := rfl
@[simp] theorem State.setVsepc_hideleg : (s.setVsepc v).hideleg = s.hideleg := rfl
@[simp] theorem State.setVsepc_hvien : (s.setVsepc v).hvien = s.hvien := rfl
@[simp] theorem State.setVsepc_hvip : (s.setVsepc v).hvip = s.hvip := rfl
@[simp] theorem State.setVsepc_hvictl : (s.setVsepc v).hvictl = s.hvictl := rfl
@[simp] theorem State.setVsepc_hviprio1 : (s.setVsepc v).hviprio1 = s.hviprio1 := rfl
@[simp] theorem State.setVsepc_hviprio2 : (s.setVsepc v).hviprio2 = s.hviprio2 := rfl
@[simp] theorem State.setVsepc_vsieOwn : (s.setVsepc v).vsieOwn = s.vsieOwn := rfl
@[simp] theorem State.setVsepc_vsiselect : (s.setVsepc v).vsiselect = s.vsiselect := rfl
@[simp] theorem State.setVsepc_files : (s.setVsepc v).files = s.files := rfl
@[simp] theorem State.setVsepc_sip : (s.setVsepc v).sip = s.sip := rfl
@[simp] theorem State.setVsepc_sie : (s.setVsepc v).sie = s.sie := rfl
@[simp] theorem State.setVsepc_hie : (s.setVsepc v).hie = s.hie := rfl
@[simp] theorem State.setVsepc_vstipTimer : (s.setVsepc v).vstipTimer = s.vstipTimer := rfl
@[simp] theorem State.setVsepc_vseipPlatform : (s.setVsepc v).vseipPlatform = s.vseipPlatform := rfl
@[simp] theorem State.setVsepc_outside : (s.setVsepc v).outside = s.outside := rfl
@[simp] theorem State.setVsepc_iommu : (s.setVsepc v).iommu = s.iommu := rfl
@[simp] theorem State.setVsepc_mem : (s.setVsepc v).mem = s.mem := rfl
@[simp] theorem State.setVsepc_outcome : (s.setVsepc v).outcome = s.outcome := rfl
@[simp] theorem State.setVsepc_agenda : (s.setVsepc v).agenda = s.agenda := rfl
@[simp] theorem State.setVsepc_draws : (s.setVsepc v).draws = s.draws := rfl
end

section
variable (s : State) (v : Word)
@[simp] theorem State.setVstvec_cfg : (s.setVstvec v).cfg = s.cfg := rfl
@[simp] theorem State.setVstvec_mode : (s.setVstvec v).mode = s.mode := rfl
@[simp] theorem State.setVstvec_pc : (s.setVstvec v).pc = s.pc := rfl
@[simp] theorem State.setVstvec_x : (s.setVstvec v).x = s.x := rfl
@[simp] theorem State.setVstvec_vgein : (s.setVstvec v).vgein = s.vgein := rfl
@[simp] theorem State.setVstvec_vsSIE : (s.setVstvec v).vsSIE = s.vsSIE := rfl
@[simp] theorem State.setVstvec_vsSPIE : (s.setVstvec v).vsSPIE = s.vsSPIE := rfl
@[simp] theorem State.setVstvec_vsSPP : (s.setVstvec v).vsSPP = s.vsSPP := rfl
@[simp] theorem State.setVstvec_vscause : (s.setVstvec v).vscause = s.vscause := rfl
@[simp] theorem State.setVstvec_vsepc : (s.setVstvec v).vsepc = s.vsepc := rfl
@[simp] theorem State.setVstvec_vstvec : (s.setVstvec v).vstvec = v := rfl
@[simp] theorem State.setVstvec_vstval : (s.setVstvec v).vstval = s.vstval := rfl
@[simp] theorem State.setVstvec_hideleg : (s.setVstvec v).hideleg = s.hideleg := rfl
@[simp] theorem State.setVstvec_hvien : (s.setVstvec v).hvien = s.hvien := rfl
@[simp] theorem State.setVstvec_hvip : (s.setVstvec v).hvip = s.hvip := rfl
@[simp] theorem State.setVstvec_hvictl : (s.setVstvec v).hvictl = s.hvictl := rfl
@[simp] theorem State.setVstvec_hviprio1 : (s.setVstvec v).hviprio1 = s.hviprio1 := rfl
@[simp] theorem State.setVstvec_hviprio2 : (s.setVstvec v).hviprio2 = s.hviprio2 := rfl
@[simp] theorem State.setVstvec_vsieOwn : (s.setVstvec v).vsieOwn = s.vsieOwn := rfl
@[simp] theorem State.setVstvec_vsiselect : (s.setVstvec v).vsiselect = s.vsiselect := rfl
@[simp] theorem State.setVstvec_files : (s.setVstvec v).files = s.files := rfl
@[simp] theorem State.setVstvec_sip : (s.setVstvec v).sip = s.sip := rfl
@[simp] theorem State.setVstvec_sie : (s.setVstvec v).sie = s.sie := rfl
@[simp] theorem State.setVstvec_hie : (s.setVstvec v).hie = s.hie := rfl
@[simp] theorem State.setVstvec_vstipTimer : (s.setVstvec v).vstipTimer = s.vstipTimer := rfl
@[simp] theorem State.setVstvec_vseipPlatform : (s.setVstvec v).vseipPlatform = s.vseipPlatform := rfl
@[simp] theorem State.setVstvec_outside : (s.setVstvec v).outside = s.outside := rfl
@[simp] theorem State.setVstvec_iommu : (s.setVstvec v).iommu = s.iommu := rfl
@[simp] theorem State.setVstvec_mem : (s.setVstvec v).mem = s.mem := rfl
@[simp] theorem State.setVstvec_outcome : (s.setVstvec v).outcome = s.outcome := rfl
@[simp] theorem State.setVstvec_agenda : (s.setVstvec v).agenda = s.agenda := rfl
@[simp] theorem State.setVstvec_draws : (s.setVstvec v).draws = s.draws := rfl
end

section
variable (s : State) (v : Word)
@[simp] theorem State.setVstval_cfg : (s.setVstval v).cfg = s.cfg := rfl
@[simp] theorem State.setVstval_mode : (s.setVstval v).mode = s.mode := rfl
@[simp] theorem State.setVstval_pc : (s.setVstval v).pc = s.pc := rfl
@[simp] theorem State.setVstval_x : (s.setVstval v).x = s.x := rfl
@[simp] theorem State.setVstval_vgein : (s.setVstval v).vgein = s.vgein := rfl
@[simp] theorem State.setVstval_vsSIE : (s.setVstval v).vsSIE = s.vsSIE := rfl
@[simp] theorem State.setVstval_vsSPIE : (s.setVstval v).vsSPIE = s.vsSPIE := rfl
@[simp] theorem State.setVstval_vsSPP : (s.setVstval v).vsSPP = s.vsSPP := rfl
@[simp] theorem State.setVstval_vscause : (s.setVstval v).vscause = s.vscause := rfl
@[simp] theorem State.setVstval_vsepc : (s.setVstval v).vsepc = s.vsepc := rfl
@[simp] theorem State.setVstval_vstvec : (s.setVstval v).vstvec = s.vstvec := rfl
@[simp] theorem State.setVstval_vstval : (s.setVstval v).vstval = v := rfl
@[simp] theorem State.setVstval_hideleg : (s.setVstval v).hideleg = s.hideleg := rfl
@[simp] theorem State.setVstval_hvien : (s.setVstval v).hvien = s.hvien := rfl
@[simp] theorem State.setVstval_hvip : (s.setVstval v).hvip = s.hvip := rfl
@[simp] theorem State.setVstval_hvictl : (s.setVstval v).hvictl = s.hvictl := rfl
@[simp] theorem State.setVstval_hviprio1 : (s.setVstval v).hviprio1 = s.hviprio1 := rfl
@[simp] theorem State.setVstval_hviprio2 : (s.setVstval v).hviprio2 = s.hviprio2 := rfl
@[simp] theorem State.setVstval_vsieOwn : (s.setVstval v).vsieOwn = s.vsieOwn := rfl
@[simp] theorem State.setVstval_vsiselect : (s.setVstval v).vsiselect = s.vsiselect := rfl
@[simp] theorem State.setVstval_files : (s.setVstval v).files = s.files := rfl
@[simp] theorem State.setVstval_sip : (s.setVstval v).sip = s.sip := rfl
@[simp] theorem State.setVstval_sie : (s.setVstval v).sie = s.sie := rfl
@[simp] theorem State.setVstval_hie : (s.setVstval v).hie = s.hie := rfl
@[simp] theorem State.setVstval_vstipTimer : (s.setVstval v).vstipTimer = s.vstipTimer := rfl
@[simp] theorem State.setVstval_vseipPlatform : (s.setVstval v).vseipPlatform = s.vseipPlatform := rfl
@[simp] theorem State.setVstval_outside : (s.setVstval v).outside = s.outside := rfl
@[simp] theorem State.setVstval_iommu : (s.setVstval v).iommu = s.iommu := rfl
@[simp] theorem State.setVstval_mem : (s.setVstval v).mem = s.mem := rfl
@[simp] theorem State.setVstval_outcome : (s.setVstval v).outcome = s.outcome := rfl
@[simp] theorem State.setVstval_agenda : (s.setVstval v).agenda = s.agenda := rfl
@[simp] theorem State.setVstval_draws : (s.setVstval v).draws = s.draws := rfl
end

section
variable (s : State) (v : BitVec 64)
@[simp] theorem State.setHideleg_cfg : (s.setHideleg v).cfg = s.cfg := rfl
@[simp] theorem State.setHideleg_mode : (s.setHideleg v).mode = s.mode := rfl
@[simp] theorem State.setHideleg_pc : (s.setHideleg v).pc = s.pc := rfl
@[simp] theorem State.setHideleg_x : (s.setHideleg v).x = s.x := rfl
@[simp] theorem State.setHideleg_vgein : (s.setHideleg v).vgein = s.vgein := rfl
@[simp] theorem State.setHideleg_vsSIE : (s.setHideleg v).vsSIE = s.vsSIE := rfl
@[simp] theorem State.setHideleg_vsSPIE : (s.setHideleg v).vsSPIE = s.vsSPIE := rfl
@[simp] theorem State.setHideleg_vsSPP : (s.setHideleg v).vsSPP = s.vsSPP := rfl
@[simp] theorem State.setHideleg_vscause : (s.setHideleg v).vscause = s.vscause := rfl
@[simp] theorem State.setHideleg_vsepc : (s.setHideleg v).vsepc = s.vsepc := rfl
@[simp] theorem State.setHideleg_vstvec : (s.setHideleg v).vstvec = s.vstvec := rfl
@[simp] theorem State.setHideleg_vstval : (s.setHideleg v).vstval = s.vstval := rfl
@[simp] theorem State.setHideleg_hideleg : (s.setHideleg v).hideleg = v := rfl
@[simp] theorem State.setHideleg_hvien : (s.setHideleg v).hvien = s.hvien := rfl
@[simp] theorem State.setHideleg_hvip : (s.setHideleg v).hvip = s.hvip := rfl
@[simp] theorem State.setHideleg_hvictl : (s.setHideleg v).hvictl = s.hvictl := rfl
@[simp] theorem State.setHideleg_hviprio1 : (s.setHideleg v).hviprio1 = s.hviprio1 := rfl
@[simp] theorem State.setHideleg_hviprio2 : (s.setHideleg v).hviprio2 = s.hviprio2 := rfl
@[simp] theorem State.setHideleg_vsieOwn : (s.setHideleg v).vsieOwn = s.vsieOwn := rfl
@[simp] theorem State.setHideleg_vsiselect : (s.setHideleg v).vsiselect = s.vsiselect := rfl
@[simp] theorem State.setHideleg_files : (s.setHideleg v).files = s.files := rfl
@[simp] theorem State.setHideleg_sip : (s.setHideleg v).sip = s.sip := rfl
@[simp] theorem State.setHideleg_sie : (s.setHideleg v).sie = s.sie := rfl
@[simp] theorem State.setHideleg_hie : (s.setHideleg v).hie = s.hie := rfl
@[simp] theorem State.setHideleg_vstipTimer : (s.setHideleg v).vstipTimer = s.vstipTimer := rfl
@[simp] theorem State.setHideleg_vseipPlatform : (s.setHideleg v).vseipPlatform = s.vseipPlatform := rfl
@[simp] theorem State.setHideleg_outside : (s.setHideleg v).outside = s.outside := rfl
@[simp] theorem State.setHideleg_iommu : (s.setHideleg v).iommu = s.iommu := rfl
@[simp] theorem State.setHideleg_mem : (s.setHideleg v).mem = s.mem := rfl
@[simp] theorem State.setHideleg_outcome : (s.setHideleg v).outcome = s.outcome := rfl
@[simp] theorem State.setHideleg_agenda : (s.setHideleg v).agenda = s.agenda := rfl
@[simp] theorem State.setHideleg_draws : (s.setHideleg v).draws = s.draws := rfl
end

section
variable (s : State) (v : BitVec 64)
@[simp] theorem State.setHvien_cfg : (s.setHvien v).cfg = s.cfg := rfl
@[simp] theorem State.setHvien_mode : (s.setHvien v).mode = s.mode := rfl
@[simp] theorem State.setHvien_pc : (s.setHvien v).pc = s.pc := rfl
@[simp] theorem State.setHvien_x : (s.setHvien v).x = s.x := rfl
@[simp] theorem State.setHvien_vgein : (s.setHvien v).vgein = s.vgein := rfl
@[simp] theorem State.setHvien_vsSIE : (s.setHvien v).vsSIE = s.vsSIE := rfl
@[simp] theorem State.setHvien_vsSPIE : (s.setHvien v).vsSPIE = s.vsSPIE := rfl
@[simp] theorem State.setHvien_vsSPP : (s.setHvien v).vsSPP = s.vsSPP := rfl
@[simp] theorem State.setHvien_vscause : (s.setHvien v).vscause = s.vscause := rfl
@[simp] theorem State.setHvien_vsepc : (s.setHvien v).vsepc = s.vsepc := rfl
@[simp] theorem State.setHvien_vstvec : (s.setHvien v).vstvec = s.vstvec := rfl
@[simp] theorem State.setHvien_vstval : (s.setHvien v).vstval = s.vstval := rfl
@[simp] theorem State.setHvien_hideleg : (s.setHvien v).hideleg = s.hideleg := rfl
@[simp] theorem State.setHvien_hvien : (s.setHvien v).hvien = v := rfl
@[simp] theorem State.setHvien_hvip : (s.setHvien v).hvip = s.hvip := rfl
@[simp] theorem State.setHvien_hvictl : (s.setHvien v).hvictl = s.hvictl := rfl
@[simp] theorem State.setHvien_hviprio1 : (s.setHvien v).hviprio1 = s.hviprio1 := rfl
@[simp] theorem State.setHvien_hviprio2 : (s.setHvien v).hviprio2 = s.hviprio2 := rfl
@[simp] theorem State.setHvien_vsieOwn : (s.setHvien v).vsieOwn = s.vsieOwn := rfl
@[simp] theorem State.setHvien_vsiselect : (s.setHvien v).vsiselect = s.vsiselect := rfl
@[simp] theorem State.setHvien_files : (s.setHvien v).files = s.files := rfl
@[simp] theorem State.setHvien_sip : (s.setHvien v).sip = s.sip := rfl
@[simp] theorem State.setHvien_sie : (s.setHvien v).sie = s.sie := rfl
@[simp] theorem State.setHvien_hie : (s.setHvien v).hie = s.hie := rfl
@[simp] theorem State.setHvien_vstipTimer : (s.setHvien v).vstipTimer = s.vstipTimer := rfl
@[simp] theorem State.setHvien_vseipPlatform : (s.setHvien v).vseipPlatform = s.vseipPlatform := rfl
@[simp] theorem State.setHvien_outside : (s.setHvien v).outside = s.outside := rfl
@[simp] theorem State.setHvien_iommu : (s.setHvien v).iommu = s.iommu := rfl
@[simp] theorem State.setHvien_mem : (s.setHvien v).mem = s.mem := rfl
@[simp] theorem State.setHvien_outcome : (s.setHvien v).outcome = s.outcome := rfl
@[simp] theorem State.setHvien_agenda : (s.setHvien v).agenda = s.agenda := rfl
@[simp] theorem State.setHvien_draws : (s.setHvien v).draws = s.draws := rfl
end

section
variable (s : State) (v : BitVec 64)
@[simp] theorem State.setHvip_cfg : (s.setHvip v).cfg = s.cfg := rfl
@[simp] theorem State.setHvip_mode : (s.setHvip v).mode = s.mode := rfl
@[simp] theorem State.setHvip_pc : (s.setHvip v).pc = s.pc := rfl
@[simp] theorem State.setHvip_x : (s.setHvip v).x = s.x := rfl
@[simp] theorem State.setHvip_vgein : (s.setHvip v).vgein = s.vgein := rfl
@[simp] theorem State.setHvip_vsSIE : (s.setHvip v).vsSIE = s.vsSIE := rfl
@[simp] theorem State.setHvip_vsSPIE : (s.setHvip v).vsSPIE = s.vsSPIE := rfl
@[simp] theorem State.setHvip_vsSPP : (s.setHvip v).vsSPP = s.vsSPP := rfl
@[simp] theorem State.setHvip_vscause : (s.setHvip v).vscause = s.vscause := rfl
@[simp] theorem State.setHvip_vsepc : (s.setHvip v).vsepc = s.vsepc := rfl
@[simp] theorem State.setHvip_vstvec : (s.setHvip v).vstvec = s.vstvec := rfl
@[simp] theorem State.setHvip_vstval : (s.setHvip v).vstval = s.vstval := rfl
@[simp] theorem State.setHvip_hideleg : (s.setHvip v).hideleg = s.hideleg := rfl
@[simp] theorem State.setHvip_hvien : (s.setHvip v).hvien = s.hvien := rfl
@[simp] theorem State.setHvip_hvip : (s.setHvip v).hvip = v := rfl
@[simp] theorem State.setHvip_hvictl : (s.setHvip v).hvictl = s.hvictl := rfl
@[simp] theorem State.setHvip_hviprio1 : (s.setHvip v).hviprio1 = s.hviprio1 := rfl
@[simp] theorem State.setHvip_hviprio2 : (s.setHvip v).hviprio2 = s.hviprio2 := rfl
@[simp] theorem State.setHvip_vsieOwn : (s.setHvip v).vsieOwn = s.vsieOwn := rfl
@[simp] theorem State.setHvip_vsiselect : (s.setHvip v).vsiselect = s.vsiselect := rfl
@[simp] theorem State.setHvip_files : (s.setHvip v).files = s.files := rfl
@[simp] theorem State.setHvip_sip : (s.setHvip v).sip = s.sip := rfl
@[simp] theorem State.setHvip_sie : (s.setHvip v).sie = s.sie := rfl
@[simp] theorem State.setHvip_hie : (s.setHvip v).hie = s.hie := rfl
@[simp] theorem State.setHvip_vstipTimer : (s.setHvip v).vstipTimer = s.vstipTimer := rfl
@[simp] theorem State.setHvip_vseipPlatform : (s.setHvip v).vseipPlatform = s.vseipPlatform := rfl
@[simp] theorem State.setHvip_outside : (s.setHvip v).outside = s.outside := rfl
@[simp] theorem State.setHvip_iommu : (s.setHvip v).iommu = s.iommu := rfl
@[simp] theorem State.setHvip_mem : (s.setHvip v).mem = s.mem := rfl
@[simp] theorem State.setHvip_outcome : (s.setHvip v).outcome = s.outcome := rfl
@[simp] theorem State.setHvip_agenda : (s.setHvip v).agenda = s.agenda := rfl
@[simp] theorem State.setHvip_draws : (s.setHvip v).draws = s.draws := rfl
end

section
variable (s : State) (v : Hvictl)
@[simp] theorem State.setHvictl_cfg : (s.setHvictl v).cfg = s.cfg := rfl
@[simp] theorem State.setHvictl_mode : (s.setHvictl v).mode = s.mode := rfl
@[simp] theorem State.setHvictl_pc : (s.setHvictl v).pc = s.pc := rfl
@[simp] theorem State.setHvictl_x : (s.setHvictl v).x = s.x := rfl
@[simp] theorem State.setHvictl_vgein : (s.setHvictl v).vgein = s.vgein := rfl
@[simp] theorem State.setHvictl_vsSIE : (s.setHvictl v).vsSIE = s.vsSIE := rfl
@[simp] theorem State.setHvictl_vsSPIE : (s.setHvictl v).vsSPIE = s.vsSPIE := rfl
@[simp] theorem State.setHvictl_vsSPP : (s.setHvictl v).vsSPP = s.vsSPP := rfl
@[simp] theorem State.setHvictl_vscause : (s.setHvictl v).vscause = s.vscause := rfl
@[simp] theorem State.setHvictl_vsepc : (s.setHvictl v).vsepc = s.vsepc := rfl
@[simp] theorem State.setHvictl_vstvec : (s.setHvictl v).vstvec = s.vstvec := rfl
@[simp] theorem State.setHvictl_vstval : (s.setHvictl v).vstval = s.vstval := rfl
@[simp] theorem State.setHvictl_hideleg : (s.setHvictl v).hideleg = s.hideleg := rfl
@[simp] theorem State.setHvictl_hvien : (s.setHvictl v).hvien = s.hvien := rfl
@[simp] theorem State.setHvictl_hvip : (s.setHvictl v).hvip = s.hvip := rfl
@[simp] theorem State.setHvictl_hvictl : (s.setHvictl v).hvictl = v := rfl
@[simp] theorem State.setHvictl_hviprio1 : (s.setHvictl v).hviprio1 = s.hviprio1 := rfl
@[simp] theorem State.setHvictl_hviprio2 : (s.setHvictl v).hviprio2 = s.hviprio2 := rfl
@[simp] theorem State.setHvictl_vsieOwn : (s.setHvictl v).vsieOwn = s.vsieOwn := rfl
@[simp] theorem State.setHvictl_vsiselect : (s.setHvictl v).vsiselect = s.vsiselect := rfl
@[simp] theorem State.setHvictl_files : (s.setHvictl v).files = s.files := rfl
@[simp] theorem State.setHvictl_sip : (s.setHvictl v).sip = s.sip := rfl
@[simp] theorem State.setHvictl_sie : (s.setHvictl v).sie = s.sie := rfl
@[simp] theorem State.setHvictl_hie : (s.setHvictl v).hie = s.hie := rfl
@[simp] theorem State.setHvictl_vstipTimer : (s.setHvictl v).vstipTimer = s.vstipTimer := rfl
@[simp] theorem State.setHvictl_vseipPlatform : (s.setHvictl v).vseipPlatform = s.vseipPlatform := rfl
@[simp] theorem State.setHvictl_outside : (s.setHvictl v).outside = s.outside := rfl
@[simp] theorem State.setHvictl_iommu : (s.setHvictl v).iommu = s.iommu := rfl
@[simp] theorem State.setHvictl_mem : (s.setHvictl v).mem = s.mem := rfl
@[simp] theorem State.setHvictl_outcome : (s.setHvictl v).outcome = s.outcome := rfl
@[simp] theorem State.setHvictl_agenda : (s.setHvictl v).agenda = s.agenda := rfl
@[simp] theorem State.setHvictl_draws : (s.setHvictl v).draws = s.draws := rfl
end

section
variable (s : State) (v : BitVec 64)
@[simp] theorem State.setHviprio1_cfg : (s.setHviprio1 v).cfg = s.cfg := rfl
@[simp] theorem State.setHviprio1_mode : (s.setHviprio1 v).mode = s.mode := rfl
@[simp] theorem State.setHviprio1_pc : (s.setHviprio1 v).pc = s.pc := rfl
@[simp] theorem State.setHviprio1_x : (s.setHviprio1 v).x = s.x := rfl
@[simp] theorem State.setHviprio1_vgein : (s.setHviprio1 v).vgein = s.vgein := rfl
@[simp] theorem State.setHviprio1_vsSIE : (s.setHviprio1 v).vsSIE = s.vsSIE := rfl
@[simp] theorem State.setHviprio1_vsSPIE : (s.setHviprio1 v).vsSPIE = s.vsSPIE := rfl
@[simp] theorem State.setHviprio1_vsSPP : (s.setHviprio1 v).vsSPP = s.vsSPP := rfl
@[simp] theorem State.setHviprio1_vscause : (s.setHviprio1 v).vscause = s.vscause := rfl
@[simp] theorem State.setHviprio1_vsepc : (s.setHviprio1 v).vsepc = s.vsepc := rfl
@[simp] theorem State.setHviprio1_vstvec : (s.setHviprio1 v).vstvec = s.vstvec := rfl
@[simp] theorem State.setHviprio1_vstval : (s.setHviprio1 v).vstval = s.vstval := rfl
@[simp] theorem State.setHviprio1_hideleg : (s.setHviprio1 v).hideleg = s.hideleg := rfl
@[simp] theorem State.setHviprio1_hvien : (s.setHviprio1 v).hvien = s.hvien := rfl
@[simp] theorem State.setHviprio1_hvip : (s.setHviprio1 v).hvip = s.hvip := rfl
@[simp] theorem State.setHviprio1_hvictl : (s.setHviprio1 v).hvictl = s.hvictl := rfl
@[simp] theorem State.setHviprio1_hviprio1 : (s.setHviprio1 v).hviprio1 = v := rfl
@[simp] theorem State.setHviprio1_hviprio2 : (s.setHviprio1 v).hviprio2 = s.hviprio2 := rfl
@[simp] theorem State.setHviprio1_vsieOwn : (s.setHviprio1 v).vsieOwn = s.vsieOwn := rfl
@[simp] theorem State.setHviprio1_vsiselect : (s.setHviprio1 v).vsiselect = s.vsiselect := rfl
@[simp] theorem State.setHviprio1_files : (s.setHviprio1 v).files = s.files := rfl
@[simp] theorem State.setHviprio1_sip : (s.setHviprio1 v).sip = s.sip := rfl
@[simp] theorem State.setHviprio1_sie : (s.setHviprio1 v).sie = s.sie := rfl
@[simp] theorem State.setHviprio1_hie : (s.setHviprio1 v).hie = s.hie := rfl
@[simp] theorem State.setHviprio1_vstipTimer : (s.setHviprio1 v).vstipTimer = s.vstipTimer := rfl
@[simp] theorem State.setHviprio1_vseipPlatform : (s.setHviprio1 v).vseipPlatform = s.vseipPlatform := rfl
@[simp] theorem State.setHviprio1_outside : (s.setHviprio1 v).outside = s.outside := rfl
@[simp] theorem State.setHviprio1_iommu : (s.setHviprio1 v).iommu = s.iommu := rfl
@[simp] theorem State.setHviprio1_mem : (s.setHviprio1 v).mem = s.mem := rfl
@[simp] theorem State.setHviprio1_outcome : (s.setHviprio1 v).outcome = s.outcome := rfl
@[simp] theorem State.setHviprio1_agenda : (s.setHviprio1 v).agenda = s.agenda := rfl
@[simp] theorem State.setHviprio1_draws : (s.setHviprio1 v).draws = s.draws := rfl
end

section
variable (s : State) (v : BitVec 64)
@[simp] theorem State.setHviprio2_cfg : (s.setHviprio2 v).cfg = s.cfg := rfl
@[simp] theorem State.setHviprio2_mode : (s.setHviprio2 v).mode = s.mode := rfl
@[simp] theorem State.setHviprio2_pc : (s.setHviprio2 v).pc = s.pc := rfl
@[simp] theorem State.setHviprio2_x : (s.setHviprio2 v).x = s.x := rfl
@[simp] theorem State.setHviprio2_vgein : (s.setHviprio2 v).vgein = s.vgein := rfl
@[simp] theorem State.setHviprio2_vsSIE : (s.setHviprio2 v).vsSIE = s.vsSIE := rfl
@[simp] theorem State.setHviprio2_vsSPIE : (s.setHviprio2 v).vsSPIE = s.vsSPIE := rfl
@[simp] theorem State.setHviprio2_vsSPP : (s.setHviprio2 v).vsSPP = s.vsSPP := rfl
@[simp] theorem State.setHviprio2_vscause : (s.setHviprio2 v).vscause = s.vscause := rfl
@[simp] theorem State.setHviprio2_vsepc : (s.setHviprio2 v).vsepc = s.vsepc := rfl
@[simp] theorem State.setHviprio2_vstvec : (s.setHviprio2 v).vstvec = s.vstvec := rfl
@[simp] theorem State.setHviprio2_vstval : (s.setHviprio2 v).vstval = s.vstval := rfl
@[simp] theorem State.setHviprio2_hideleg : (s.setHviprio2 v).hideleg = s.hideleg := rfl
@[simp] theorem State.setHviprio2_hvien : (s.setHviprio2 v).hvien = s.hvien := rfl
@[simp] theorem State.setHviprio2_hvip : (s.setHviprio2 v).hvip = s.hvip := rfl
@[simp] theorem State.setHviprio2_hvictl : (s.setHviprio2 v).hvictl = s.hvictl := rfl
@[simp] theorem State.setHviprio2_hviprio1 : (s.setHviprio2 v).hviprio1 = s.hviprio1 := rfl
@[simp] theorem State.setHviprio2_hviprio2 : (s.setHviprio2 v).hviprio2 = v := rfl
@[simp] theorem State.setHviprio2_vsieOwn : (s.setHviprio2 v).vsieOwn = s.vsieOwn := rfl
@[simp] theorem State.setHviprio2_vsiselect : (s.setHviprio2 v).vsiselect = s.vsiselect := rfl
@[simp] theorem State.setHviprio2_files : (s.setHviprio2 v).files = s.files := rfl
@[simp] theorem State.setHviprio2_sip : (s.setHviprio2 v).sip = s.sip := rfl
@[simp] theorem State.setHviprio2_sie : (s.setHviprio2 v).sie = s.sie := rfl
@[simp] theorem State.setHviprio2_hie : (s.setHviprio2 v).hie = s.hie := rfl
@[simp] theorem State.setHviprio2_vstipTimer : (s.setHviprio2 v).vstipTimer = s.vstipTimer := rfl
@[simp] theorem State.setHviprio2_vseipPlatform : (s.setHviprio2 v).vseipPlatform = s.vseipPlatform := rfl
@[simp] theorem State.setHviprio2_outside : (s.setHviprio2 v).outside = s.outside := rfl
@[simp] theorem State.setHviprio2_iommu : (s.setHviprio2 v).iommu = s.iommu := rfl
@[simp] theorem State.setHviprio2_mem : (s.setHviprio2 v).mem = s.mem := rfl
@[simp] theorem State.setHviprio2_outcome : (s.setHviprio2 v).outcome = s.outcome := rfl
@[simp] theorem State.setHviprio2_agenda : (s.setHviprio2 v).agenda = s.agenda := rfl
@[simp] theorem State.setHviprio2_draws : (s.setHviprio2 v).draws = s.draws := rfl
end

section
variable (s : State) (v : BitVec 64)
@[simp] theorem State.setVsieOwn_cfg : (s.setVsieOwn v).cfg = s.cfg := rfl
@[simp] theorem State.setVsieOwn_mode : (s.setVsieOwn v).mode = s.mode := rfl
@[simp] theorem State.setVsieOwn_pc : (s.setVsieOwn v).pc = s.pc := rfl
@[simp] theorem State.setVsieOwn_x : (s.setVsieOwn v).x = s.x := rfl
@[simp] theorem State.setVsieOwn_vgein : (s.setVsieOwn v).vgein = s.vgein := rfl
@[simp] theorem State.setVsieOwn_vsSIE : (s.setVsieOwn v).vsSIE = s.vsSIE := rfl
@[simp] theorem State.setVsieOwn_vsSPIE : (s.setVsieOwn v).vsSPIE = s.vsSPIE := rfl
@[simp] theorem State.setVsieOwn_vsSPP : (s.setVsieOwn v).vsSPP = s.vsSPP := rfl
@[simp] theorem State.setVsieOwn_vscause : (s.setVsieOwn v).vscause = s.vscause := rfl
@[simp] theorem State.setVsieOwn_vsepc : (s.setVsieOwn v).vsepc = s.vsepc := rfl
@[simp] theorem State.setVsieOwn_vstvec : (s.setVsieOwn v).vstvec = s.vstvec := rfl
@[simp] theorem State.setVsieOwn_vstval : (s.setVsieOwn v).vstval = s.vstval := rfl
@[simp] theorem State.setVsieOwn_hideleg : (s.setVsieOwn v).hideleg = s.hideleg := rfl
@[simp] theorem State.setVsieOwn_hvien : (s.setVsieOwn v).hvien = s.hvien := rfl
@[simp] theorem State.setVsieOwn_hvip : (s.setVsieOwn v).hvip = s.hvip := rfl
@[simp] theorem State.setVsieOwn_hvictl : (s.setVsieOwn v).hvictl = s.hvictl := rfl
@[simp] theorem State.setVsieOwn_hviprio1 : (s.setVsieOwn v).hviprio1 = s.hviprio1 := rfl
@[simp] theorem State.setVsieOwn_hviprio2 : (s.setVsieOwn v).hviprio2 = s.hviprio2 := rfl
@[simp] theorem State.setVsieOwn_vsieOwn : (s.setVsieOwn v).vsieOwn = v := rfl
@[simp] theorem State.setVsieOwn_vsiselect : (s.setVsieOwn v).vsiselect = s.vsiselect := rfl
@[simp] theorem State.setVsieOwn_files : (s.setVsieOwn v).files = s.files := rfl
@[simp] theorem State.setVsieOwn_sip : (s.setVsieOwn v).sip = s.sip := rfl
@[simp] theorem State.setVsieOwn_sie : (s.setVsieOwn v).sie = s.sie := rfl
@[simp] theorem State.setVsieOwn_hie : (s.setVsieOwn v).hie = s.hie := rfl
@[simp] theorem State.setVsieOwn_vstipTimer : (s.setVsieOwn v).vstipTimer = s.vstipTimer := rfl
@[simp] theorem State.setVsieOwn_vseipPlatform : (s.setVsieOwn v).vseipPlatform = s.vseipPlatform := rfl
@[simp] theorem State.setVsieOwn_outside : (s.setVsieOwn v).outside = s.outside := rfl
@[simp] theorem State.setVsieOwn_iommu : (s.setVsieOwn v).iommu = s.iommu := rfl
@[simp] theorem State.setVsieOwn_mem : (s.setVsieOwn v).mem = s.mem := rfl
@[simp] theorem State.setVsieOwn_outcome : (s.setVsieOwn v).outcome = s.outcome := rfl
@[simp] theorem State.setVsieOwn_agenda : (s.setVsieOwn v).agenda = s.agenda := rfl
@[simp] theorem State.setVsieOwn_draws : (s.setVsieOwn v).draws = s.draws := rfl
end

section
variable (s : State) (v : Word)
@[simp] theorem State.setVsiselect_cfg : (s.setVsiselect v).cfg = s.cfg := rfl
@[simp] theorem State.setVsiselect_mode : (s.setVsiselect v).mode = s.mode := rfl
@[simp] theorem State.setVsiselect_pc : (s.setVsiselect v).pc = s.pc := rfl
@[simp] theorem State.setVsiselect_x : (s.setVsiselect v).x = s.x := rfl
@[simp] theorem State.setVsiselect_vgein : (s.setVsiselect v).vgein = s.vgein := rfl
@[simp] theorem State.setVsiselect_vsSIE : (s.setVsiselect v).vsSIE = s.vsSIE := rfl
@[simp] theorem State.setVsiselect_vsSPIE : (s.setVsiselect v).vsSPIE = s.vsSPIE := rfl
@[simp] theorem State.setVsiselect_vsSPP : (s.setVsiselect v).vsSPP = s.vsSPP := rfl
@[simp] theorem State.setVsiselect_vscause : (s.setVsiselect v).vscause = s.vscause := rfl
@[simp] theorem State.setVsiselect_vsepc : (s.setVsiselect v).vsepc = s.vsepc := rfl
@[simp] theorem State.setVsiselect_vstvec : (s.setVsiselect v).vstvec = s.vstvec := rfl
@[simp] theorem State.setVsiselect_vstval : (s.setVsiselect v).vstval = s.vstval := rfl
@[simp] theorem State.setVsiselect_hideleg : (s.setVsiselect v).hideleg = s.hideleg := rfl
@[simp] theorem State.setVsiselect_hvien : (s.setVsiselect v).hvien = s.hvien := rfl
@[simp] theorem State.setVsiselect_hvip : (s.setVsiselect v).hvip = s.hvip := rfl
@[simp] theorem State.setVsiselect_hvictl : (s.setVsiselect v).hvictl = s.hvictl := rfl
@[simp] theorem State.setVsiselect_hviprio1 : (s.setVsiselect v).hviprio1 = s.hviprio1 := rfl
@[simp] theorem State.setVsiselect_hviprio2 : (s.setVsiselect v).hviprio2 = s.hviprio2 := rfl
@[simp] theorem State.setVsiselect_vsieOwn : (s.setVsiselect v).vsieOwn = s.vsieOwn := rfl
@[simp] theorem State.setVsiselect_vsiselect : (s.setVsiselect v).vsiselect = v := rfl
@[simp] theorem State.setVsiselect_files : (s.setVsiselect v).files = s.files := rfl
@[simp] theorem State.setVsiselect_sip : (s.setVsiselect v).sip = s.sip := rfl
@[simp] theorem State.setVsiselect_sie : (s.setVsiselect v).sie = s.sie := rfl
@[simp] theorem State.setVsiselect_hie : (s.setVsiselect v).hie = s.hie := rfl
@[simp] theorem State.setVsiselect_vstipTimer : (s.setVsiselect v).vstipTimer = s.vstipTimer := rfl
@[simp] theorem State.setVsiselect_vseipPlatform : (s.setVsiselect v).vseipPlatform = s.vseipPlatform := rfl
@[simp] theorem State.setVsiselect_outside : (s.setVsiselect v).outside = s.outside := rfl
@[simp] theorem State.setVsiselect_iommu : (s.setVsiselect v).iommu = s.iommu := rfl
@[simp] theorem State.setVsiselect_mem : (s.setVsiselect v).mem = s.mem := rfl
@[simp] theorem State.setVsiselect_outcome : (s.setVsiselect v).outcome = s.outcome := rfl
@[simp] theorem State.setVsiselect_agenda : (s.setVsiselect v).agenda = s.agenda := rfl
@[simp] theorem State.setVsiselect_draws : (s.setVsiselect v).draws = s.draws := rfl
end

section
variable (s : State) (v : Vector IntrFile 64)
@[simp] theorem State.setFiles_cfg : (s.setFiles v).cfg = s.cfg := rfl
@[simp] theorem State.setFiles_mode : (s.setFiles v).mode = s.mode := rfl
@[simp] theorem State.setFiles_pc : (s.setFiles v).pc = s.pc := rfl
@[simp] theorem State.setFiles_x : (s.setFiles v).x = s.x := rfl
@[simp] theorem State.setFiles_vgein : (s.setFiles v).vgein = s.vgein := rfl
@[simp] theorem State.setFiles_vsSIE : (s.setFiles v).vsSIE = s.vsSIE := rfl
@[simp] theorem State.setFiles_vsSPIE : (s.setFiles v).vsSPIE = s.vsSPIE := rfl
@[simp] theorem State.setFiles_vsSPP : (s.setFiles v).vsSPP = s.vsSPP := rfl
@[simp] theorem State.setFiles_vscause : (s.setFiles v).vscause = s.vscause := rfl
@[simp] theorem State.setFiles_vsepc : (s.setFiles v).vsepc = s.vsepc := rfl
@[simp] theorem State.setFiles_vstvec : (s.setFiles v).vstvec = s.vstvec := rfl
@[simp] theorem State.setFiles_vstval : (s.setFiles v).vstval = s.vstval := rfl
@[simp] theorem State.setFiles_hideleg : (s.setFiles v).hideleg = s.hideleg := rfl
@[simp] theorem State.setFiles_hvien : (s.setFiles v).hvien = s.hvien := rfl
@[simp] theorem State.setFiles_hvip : (s.setFiles v).hvip = s.hvip := rfl
@[simp] theorem State.setFiles_hvictl : (s.setFiles v).hvictl = s.hvictl := rfl
@[simp] theorem State.setFiles_hviprio1 : (s.setFiles v).hviprio1 = s.hviprio1 := rfl
@[simp] theorem State.setFiles_hviprio2 : (s.setFiles v).hviprio2 = s.hviprio2 := rfl
@[simp] theorem State.setFiles_vsieOwn : (s.setFiles v).vsieOwn = s.vsieOwn := rfl
@[simp] theorem State.setFiles_vsiselect : (s.setFiles v).vsiselect = s.vsiselect := rfl
@[simp] theorem State.setFiles_files : (s.setFiles v).files = v := rfl
@[simp] theorem State.setFiles_sip : (s.setFiles v).sip = s.sip := rfl
@[simp] theorem State.setFiles_sie : (s.setFiles v).sie = s.sie := rfl
@[simp] theorem State.setFiles_hie : (s.setFiles v).hie = s.hie := rfl
@[simp] theorem State.setFiles_vstipTimer : (s.setFiles v).vstipTimer = s.vstipTimer := rfl
@[simp] theorem State.setFiles_vseipPlatform : (s.setFiles v).vseipPlatform = s.vseipPlatform := rfl
@[simp] theorem State.setFiles_outside : (s.setFiles v).outside = s.outside := rfl
@[simp] theorem State.setFiles_iommu : (s.setFiles v).iommu = s.iommu := rfl
@[simp] theorem State.setFiles_mem : (s.setFiles v).mem = s.mem := rfl
@[simp] theorem State.setFiles_outcome : (s.setFiles v).outcome = s.outcome := rfl
@[simp] theorem State.setFiles_agenda : (s.setFiles v).agenda = s.agenda := rfl
@[simp] theorem State.setFiles_draws : (s.setFiles v).draws = s.draws := rfl
end

section
variable (s : State) (v : BitVec 64)
@[simp] theorem State.setSip_cfg : (s.setSip v).cfg = s.cfg := rfl
@[simp] theorem State.setSip_mode : (s.setSip v).mode = s.mode := rfl
@[simp] theorem State.setSip_pc : (s.setSip v).pc = s.pc := rfl
@[simp] theorem State.setSip_x : (s.setSip v).x = s.x := rfl
@[simp] theorem State.setSip_vgein : (s.setSip v).vgein = s.vgein := rfl
@[simp] theorem State.setSip_vsSIE : (s.setSip v).vsSIE = s.vsSIE := rfl
@[simp] theorem State.setSip_vsSPIE : (s.setSip v).vsSPIE = s.vsSPIE := rfl
@[simp] theorem State.setSip_vsSPP : (s.setSip v).vsSPP = s.vsSPP := rfl
@[simp] theorem State.setSip_vscause : (s.setSip v).vscause = s.vscause := rfl
@[simp] theorem State.setSip_vsepc : (s.setSip v).vsepc = s.vsepc := rfl
@[simp] theorem State.setSip_vstvec : (s.setSip v).vstvec = s.vstvec := rfl
@[simp] theorem State.setSip_vstval : (s.setSip v).vstval = s.vstval := rfl
@[simp] theorem State.setSip_hideleg : (s.setSip v).hideleg = s.hideleg := rfl
@[simp] theorem State.setSip_hvien : (s.setSip v).hvien = s.hvien := rfl
@[simp] theorem State.setSip_hvip : (s.setSip v).hvip = s.hvip := rfl
@[simp] theorem State.setSip_hvictl : (s.setSip v).hvictl = s.hvictl := rfl
@[simp] theorem State.setSip_hviprio1 : (s.setSip v).hviprio1 = s.hviprio1 := rfl
@[simp] theorem State.setSip_hviprio2 : (s.setSip v).hviprio2 = s.hviprio2 := rfl
@[simp] theorem State.setSip_vsieOwn : (s.setSip v).vsieOwn = s.vsieOwn := rfl
@[simp] theorem State.setSip_vsiselect : (s.setSip v).vsiselect = s.vsiselect := rfl
@[simp] theorem State.setSip_files : (s.setSip v).files = s.files := rfl
@[simp] theorem State.setSip_sip : (s.setSip v).sip = v := rfl
@[simp] theorem State.setSip_sie : (s.setSip v).sie = s.sie := rfl
@[simp] theorem State.setSip_hie : (s.setSip v).hie = s.hie := rfl
@[simp] theorem State.setSip_vstipTimer : (s.setSip v).vstipTimer = s.vstipTimer := rfl
@[simp] theorem State.setSip_vseipPlatform : (s.setSip v).vseipPlatform = s.vseipPlatform := rfl
@[simp] theorem State.setSip_outside : (s.setSip v).outside = s.outside := rfl
@[simp] theorem State.setSip_iommu : (s.setSip v).iommu = s.iommu := rfl
@[simp] theorem State.setSip_mem : (s.setSip v).mem = s.mem := rfl
@[simp] theorem State.setSip_outcome : (s.setSip v).outcome = s.outcome := rfl
@[simp] theorem State.setSip_agenda : (s.setSip v).agenda = s.agenda := rfl
@[simp] theorem State.setSip_draws : (s.setSip v).draws = s.draws := rfl
end

section
variable (s : State) (v : BitVec 64)
@[simp] theorem State.setSie_cfg : (s.setSie v).cfg = s.cfg := rfl
@[simp] theorem State.setSie_mode : (s.setSie v).mode = s.mode := rfl
@[simp] theorem State.setSie_pc : (s.setSie v).pc = s.pc := rfl
@[simp] theorem State.setSie_x : (s.setSie v).x = s.x := rfl
@[simp] theorem State.setSie_vgein : (s.setSie v).vgein = s.vgein := rfl
@[simp] theorem State.setSie_vsSIE : (s.setSie v).vsSIE = s.vsSIE := rfl
@[simp] theorem State.setSie_vsSPIE : (s.setSie v).vsSPIE = s.vsSPIE := rfl
@[simp] theorem State.setSie_vsSPP : (s.setSie v).vsSPP = s.vsSPP := rfl
@[simp] theorem State.setSie_vscause : (s.setSie v).vscause = s.vscause := rfl
@[simp] theorem State.setSie_vsepc : (s.setSie v).vsepc = s.vsepc := rfl
@[simp] theorem State.setSie_vstvec : (s.setSie v).vstvec = s.vstvec := rfl
@[simp] theorem State.setSie_vstval : (s.setSie v).vstval = s.vstval := rfl
@[simp] theorem State.setSie_hideleg : (s.setSie v).hideleg = s.hideleg := rfl
@[simp] theorem State.setSie_hvien : (s.setSie v).hvien = s.hvien := rfl
@[simp] theorem State.setSie_hvip : (s.setSie v).hvip = s.hvip := rfl
@[simp] theorem State.setSie_hvictl : (s.setSie v).hvictl = s.hvictl := rfl
@[simp] theorem State.setSie_hviprio1 : (s.setSie v).hviprio1 = s.hviprio1 := rfl
@[simp] theorem State.setSie_hviprio2 : (s.setSie v).hviprio2 = s.hviprio2 := rfl
@[simp] theorem State.setSie_vsieOwn : (s.setSie v).vsieOwn = s.vsieOwn := rfl
@[simp] theorem State.setSie_vsiselect : (s.setSie v).vsiselect = s.vsiselect := rfl
@[simp] theorem State.setSie_files : (s.setSie v).files = s.files := rfl
@[simp] theorem State.setSie_sip : (s.setSie v).sip = s.sip := rfl
@[simp] theorem State.setSie_sie : (s.setSie v).sie = v := rfl
@[simp] theorem State.setSie_hie : (s.setSie v).hie = s.hie := rfl
@[simp] theorem State.setSie_vstipTimer : (s.setSie v).vstipTimer = s.vstipTimer := rfl
@[simp] theorem State.setSie_vseipPlatform : (s.setSie v).vseipPlatform = s.vseipPlatform := rfl
@[simp] theorem State.setSie_outside : (s.setSie v).outside = s.outside := rfl
@[simp] theorem State.setSie_iommu : (s.setSie v).iommu = s.iommu := rfl
@[simp] theorem State.setSie_mem : (s.setSie v).mem = s.mem := rfl
@[simp] theorem State.setSie_outcome : (s.setSie v).outcome = s.outcome := rfl
@[simp] theorem State.setSie_agenda : (s.setSie v).agenda = s.agenda := rfl
@[simp] theorem State.setSie_draws : (s.setSie v).draws = s.draws := rfl
end

section
variable (s : State) (v : BitVec 64)
@[simp] theorem State.setHie_cfg : (s.setHie v).cfg = s.cfg := rfl
@[simp] theorem State.setHie_mode : (s.setHie v).mode = s.mode := rfl
@[simp] theorem State.setHie_pc : (s.setHie v).pc = s.pc := rfl
@[simp] theorem State.setHie_x : (s.setHie v).x = s.x := rfl
@[simp] theorem State.setHie_vgein : (s.setHie v).vgein = s.vgein := rfl
@[simp] theorem State.setHie_vsSIE : (s.setHie v).vsSIE = s.vsSIE := rfl
@[simp] theorem State.setHie_vsSPIE : (s.setHie v).vsSPIE = s.vsSPIE := rfl
@[simp] theorem State.setHie_vsSPP : (s.setHie v).vsSPP = s.vsSPP := rfl
@[simp] theorem State.setHie_vscause : (s.setHie v).vscause = s.vscause := rfl
@[simp] theorem State.setHie_vsepc : (s.setHie v).vsepc = s.vsepc := rfl
@[simp] theorem State.setHie_vstvec : (s.setHie v).vstvec = s.vstvec := rfl
@[simp] theorem State.setHie_vstval : (s.setHie v).vstval = s.vstval := rfl
@[simp] theorem State.setHie_hideleg : (s.setHie v).hideleg = s.hideleg := rfl
@[simp] theorem State.setHie_hvien : (s.setHie v).hvien = s.hvien := rfl
@[simp] theorem State.setHie_hvip : (s.setHie v).hvip = s.hvip := rfl
@[simp] theorem State.setHie_hvictl : (s.setHie v).hvictl = s.hvictl := rfl
@[simp] theorem State.setHie_hviprio1 : (s.setHie v).hviprio1 = s.hviprio1 := rfl
@[simp] theorem State.setHie_hviprio2 : (s.setHie v).hviprio2 = s.hviprio2 := rfl
@[simp] theorem State.setHie_vsieOwn : (s.setHie v).vsieOwn = s.vsieOwn := rfl
@[simp] theorem State.setHie_vsiselect : (s.setHie v).vsiselect = s.vsiselect := rfl
@[simp] theorem State.setHie_files : (s.setHie v).files = s.files := rfl
@[simp] theorem State.setHie_sip : (s.setHie v).sip = s.sip := rfl
@[simp] theorem State.setHie_sie : (s.setHie v).sie = s.sie := rfl
@[simp] theorem State.setHie_hie : (s.setHie v).hie = v := rfl
@[simp] theorem State.setHie_vstipTimer : (s.setHie v).vstipTimer = s.vstipTimer := rfl
@[simp] theorem State.setHie_vseipPlatform : (s.setHie v).vseipPlatform = s.vseipPlatform := rfl
@[simp] theorem State.setHie_outside : (s.setHie v).outside = s.outside := rfl
@[simp] theorem State.setHie_iommu : (s.setHie v).iommu = s.iommu := rfl
@[simp] theorem State.setHie_mem : (s.setHie v).mem = s.mem := rfl
@[simp] theorem State.setHie_outcome : (s.setHie v).outcome = s.outcome := rfl
@[simp] theorem State.setHie_agenda : (s.setHie v).agenda = s.agenda := rfl
@[simp] theorem State.setHie_draws : (s.setHie v).draws = s.draws := rfl
end

section
variable (s : State) (v : Bool)
@[simp] theorem State.setVstipTimer_cfg : (s.setVstipTimer v).cfg = s.cfg := rfl
@[simp] theorem State.setVstipTimer_mode : (s.setVstipTimer v).mode = s.mode := rfl
@[simp] theorem State.setVstipTimer_pc : (s.setVstipTimer v).pc = s.pc := rfl
@[simp] theorem State.setVstipTimer_x : (s.setVstipTimer v).x = s.x := rfl
@[simp] theorem State.setVstipTimer_vgein : (s.setVstipTimer v).vgein = s.vgein := rfl
@[simp] theorem State.setVstipTimer_vsSIE : (s.setVstipTimer v).vsSIE = s.vsSIE := rfl
@[simp] theorem State.setVstipTimer_vsSPIE : (s.setVstipTimer v).vsSPIE = s.vsSPIE := rfl
@[simp] theorem State.setVstipTimer_vsSPP : (s.setVstipTimer v).vsSPP = s.vsSPP := rfl
@[simp] theorem State.setVstipTimer_vscause : (s.setVstipTimer v).vscause = s.vscause := rfl
@[simp] theorem State.setVstipTimer_vsepc : (s.setVstipTimer v).vsepc = s.vsepc := rfl
@[simp] theorem State.setVstipTimer_vstvec : (s.setVstipTimer v).vstvec = s.vstvec := rfl
@[simp] theorem State.setVstipTimer_vstval : (s.setVstipTimer v).vstval = s.vstval := rfl
@[simp] theorem State.setVstipTimer_hideleg : (s.setVstipTimer v).hideleg = s.hideleg := rfl
@[simp] theorem State.setVstipTimer_hvien : (s.setVstipTimer v).hvien = s.hvien := rfl
@[simp] theorem State.setVstipTimer_hvip : (s.setVstipTimer v).hvip = s.hvip := rfl
@[simp] theorem State.setVstipTimer_hvictl : (s.setVstipTimer v).hvictl = s.hvictl := rfl
@[simp] theorem State.setVstipTimer_hviprio1 : (s.setVstipTimer v).hviprio1 = s.hviprio1 := rfl
@[simp] theorem State.setVstipTimer_hviprio2 : (s.setVstipTimer v).hviprio2 = s.hviprio2 := rfl
@[simp] theorem State.setVstipTimer_vsieOwn : (s.setVstipTimer v).vsieOwn = s.vsieOwn := rfl
@[simp] theorem State.setVstipTimer_vsiselect : (s.setVstipTimer v).vsiselect = s.vsiselect := rfl
@[simp] theorem State.setVstipTimer_files : (s.setVstipTimer v).files = s.files := rfl
@[simp] theorem State.setVstipTimer_sip : (s.setVstipTimer v).sip = s.sip := rfl
@[simp] theorem State.setVstipTimer_sie : (s.setVstipTimer v).sie = s.sie := rfl
@[simp] theorem State.setVstipTimer_hie : (s.setVstipTimer v).hie = s.hie := rfl
@[simp] theorem State.setVstipTimer_vstipTimer : (s.setVstipTimer v).vstipTimer = v := rfl
@[simp] theorem State.setVstipTimer_vseipPlatform : (s.setVstipTimer v).vseipPlatform = s.vseipPlatform := rfl
@[simp] theorem State.setVstipTimer_outside : (s.setVstipTimer v).outside = s.outside := rfl
@[simp] theorem State.setVstipTimer_iommu : (s.setVstipTimer v).iommu = s.iommu := rfl
@[simp] theorem State.setVstipTimer_mem : (s.setVstipTimer v).mem = s.mem := rfl
@[simp] theorem State.setVstipTimer_outcome : (s.setVstipTimer v).outcome = s.outcome := rfl
@[simp] theorem State.setVstipTimer_agenda : (s.setVstipTimer v).agenda = s.agenda := rfl
@[simp] theorem State.setVstipTimer_draws : (s.setVstipTimer v).draws = s.draws := rfl
end

section
variable (s : State) (v : Bool)
@[simp] theorem State.setVseipPlatform_cfg : (s.setVseipPlatform v).cfg = s.cfg := rfl
@[simp] theorem State.setVseipPlatform_mode : (s.setVseipPlatform v).mode = s.mode := rfl
@[simp] theorem State.setVseipPlatform_pc : (s.setVseipPlatform v).pc = s.pc := rfl
@[simp] theorem State.setVseipPlatform_x : (s.setVseipPlatform v).x = s.x := rfl
@[simp] theorem State.setVseipPlatform_vgein : (s.setVseipPlatform v).vgein = s.vgein := rfl
@[simp] theorem State.setVseipPlatform_vsSIE : (s.setVseipPlatform v).vsSIE = s.vsSIE := rfl
@[simp] theorem State.setVseipPlatform_vsSPIE : (s.setVseipPlatform v).vsSPIE = s.vsSPIE := rfl
@[simp] theorem State.setVseipPlatform_vsSPP : (s.setVseipPlatform v).vsSPP = s.vsSPP := rfl
@[simp] theorem State.setVseipPlatform_vscause : (s.setVseipPlatform v).vscause = s.vscause := rfl
@[simp] theorem State.setVseipPlatform_vsepc : (s.setVseipPlatform v).vsepc = s.vsepc := rfl
@[simp] theorem State.setVseipPlatform_vstvec : (s.setVseipPlatform v).vstvec = s.vstvec := rfl
@[simp] theorem State.setVseipPlatform_vstval : (s.setVseipPlatform v).vstval = s.vstval := rfl
@[simp] theorem State.setVseipPlatform_hideleg : (s.setVseipPlatform v).hideleg = s.hideleg := rfl
@[simp] theorem State.setVseipPlatform_hvien : (s.setVseipPlatform v).hvien = s.hvien := rfl
@[simp] theorem State.setVseipPlatform_hvip : (s.setVseipPlatform v).hvip = s.hvip := rfl
@[simp] theorem State.setVseipPlatform_hvictl : (s.setVseipPlatform v).hvictl = s.hvictl := rfl
@[simp] theorem State.setVseipPlatform_hviprio1 : (s.setVseipPlatform v).hviprio1 = s.hviprio1 := rfl
@[simp] theorem State.setVseipPlatform_hviprio2 : (s.setVseipPlatform v).hviprio2 = s.hviprio2 := rfl
@[simp] theorem State.setVseipPlatform_vsieOwn : (s.setVseipPlatform v).vsieOwn = s.vsieOwn := rfl
@[simp] theorem State.setVseipPlatform_vsiselect : (s.setVseipPlatform v).vsiselect = s.vsiselect := rfl
@[simp] theorem State.setVseipPlatform_files : (s.setVseipPlatform v).files = s.files := rfl
@[simp] theorem State.setVseipPlatform_sip : (s.setVseipPlatform v).sip = s.sip := rfl
@[simp] theorem State.setVseipPlatform_sie : (s.setVseipPlatform v).sie = s.sie := rfl
@[simp] theorem State.setVseipPlatform_hie : (s.setVseipPlatform v).hie = s.hie := rfl
@[simp] theorem State.setVseipPlatform_vstipTimer : (s.setVseipPlatform v).vstipTimer = s.vstipTimer := rfl
@[simp] theorem State.setVseipPlatform_vseipPlatform : (s.setVseipPlatform v).vseipPlatform = v := rfl
@[simp] theorem State.setVseipPlatform_outside : (s.setVseipPlatform v).outside = s.outside := rfl
@[simp] theorem State.setVseipPlatform_iommu : (s.setVseipPlatform v).iommu = s.iommu := rfl
@[simp] theorem State.setVseipPlatform_mem : (s.setVseipPlatform v).mem = s.mem := rfl
@[simp] theorem State.setVseipPlatform_outcome : (s.setVseipPlatform v).outcome = s.outcome := rfl
@[simp] theorem State.setVseipPlatform_agenda : (s.setVseipPlatform v).agenda = s.agenda := rfl
@[simp] theorem State.setVseipPlatform_draws : (s.setVseipPlatform v).draws = s.draws := rfl
end

section
variable (s : State) (v : Outside)
@[simp] theorem State.setOutside_cfg : (s.setOutside v).cfg = s.cfg := rfl
@[simp] theorem State.setOutside_mode : (s.setOutside v).mode = s.mode := rfl
@[simp] theorem State.setOutside_pc : (s.setOutside v).pc = s.pc := rfl
@[simp] theorem State.setOutside_x : (s.setOutside v).x = s.x := rfl
@[simp] theorem State.setOutside_vgein : (s.setOutside v).vgein = s.vgein := rfl
@[simp] theorem State.setOutside_vsSIE : (s.setOutside v).vsSIE = s.vsSIE := rfl
@[simp] theorem State.setOutside_vsSPIE : (s.setOutside v).vsSPIE = s.vsSPIE := rfl
@[simp] theorem State.setOutside_vsSPP : (s.setOutside v).vsSPP = s.vsSPP := rfl
@[simp] theorem State.setOutside_vscause : (s.setOutside v).vscause = s.vscause := rfl
@[simp] theorem State.setOutside_vsepc : (s.setOutside v).vsepc = s.vsepc := rfl
@[simp] theorem State.setOutside_vstvec : (s.setOutside v).vstvec = s.vstvec := rfl
@[simp] theorem State.setOutside_vstval : (s.setOutside v).vstval = s.vstval := rfl
@[simp] theorem State.setOutside_hideleg : (s.setOutside v).hideleg = s.hideleg := rfl
@[simp] theorem State.setOutside_hvien : (s.setOutside v).hvien = s.hvien := rfl
@[simp] theorem State.setOutside_hvip : (s.setOutside v).hvip = s.hvip := rfl
@[simp] theorem State.setOutside_hvictl : (s.setOutside v).hvictl = s.hvictl := rfl
@[simp] theorem State.setOutside_hviprio1 : (s.setOutside v).hviprio1 = s.hviprio1 := rfl
@[simp] theorem State.setOutside_hviprio2 : (s.setOutside v).hviprio2 = s.hviprio2 := rfl
@[simp] theorem State.setOutside_vsieOwn : (s.setOutside v).vsieOwn = s.vsieOwn := rfl
@[simp] theorem State.setOutside_vsiselect : (s.setOutside v).vsiselect = s.vsiselect := rfl
@[simp] theorem State.setOutside_files : (s.setOutside v).files = s.files := rfl
@[simp] theorem State.setOutside_sip : (s.setOutside v).sip = s.sip := rfl
@[simp] theorem State.setOutside_sie : (s.setOutside v).sie = s.sie := rfl
@[simp] theorem State.setOutside_hie : (s.setOutside v).hie = s.hie := rfl
@[simp] theorem State.setOutside_vstipTimer : (s.setOutside v).vstipTimer = s.vstipTimer := rfl
@[simp] theorem State.setOutside_vseipPlatform : (s.setOutside v).vseipPlatform = s.vseipPlatform := rfl
@[simp] theorem State.setOutside_outside : (s.setOutside v).outside = v := rfl
@[simp] theorem State.setOutside_iommu : (s.setOutside v).iommu = s.iommu := rfl
@[simp] theorem State.setOutside_mem : (s.setOutside v).mem = s.mem := rfl
@[simp] theorem State.setOutside_outcome : (s.setOutside v).outcome = s.outcome := rfl
@[simp] theorem State.setOutside_agenda : (s.setOutside v).agenda = s.agenda := rfl
@[simp] theorem State.setOutside_draws : (s.setOutside v).draws = s.draws := rfl
end

section
variable (s : State) (v : List (Nat × FileRef))
@[simp] theorem State.setIommu_cfg : (s.setIommu v).cfg = s.cfg := rfl
@[simp] theorem State.setIommu_mode : (s.setIommu v).mode = s.mode := rfl
@[simp] theorem State.setIommu_pc : (s.setIommu v).pc = s.pc := rfl
@[simp] theorem State.setIommu_x : (s.setIommu v).x = s.x := rfl
@[simp] theorem State.setIommu_vgein : (s.setIommu v).vgein = s.vgein := rfl
@[simp] theorem State.setIommu_vsSIE : (s.setIommu v).vsSIE = s.vsSIE := rfl
@[simp] theorem State.setIommu_vsSPIE : (s.setIommu v).vsSPIE = s.vsSPIE := rfl
@[simp] theorem State.setIommu_vsSPP : (s.setIommu v).vsSPP = s.vsSPP := rfl
@[simp] theorem State.setIommu_vscause : (s.setIommu v).vscause = s.vscause := rfl
@[simp] theorem State.setIommu_vsepc : (s.setIommu v).vsepc = s.vsepc := rfl
@[simp] theorem State.setIommu_vstvec : (s.setIommu v).vstvec = s.vstvec := rfl
@[simp] theorem State.setIommu_vstval : (s.setIommu v).vstval = s.vstval := rfl
@[simp] theorem State.setIommu_hideleg : (s.setIommu v).hideleg = s.hideleg := rfl
@[simp] theorem State.setIommu_hvien : (s.setIommu v).hvien = s.hvien := rfl
@[simp] theorem State.setIommu_hvip : (s.setIommu v).hvip = s.hvip := rfl
@[simp] theorem State.setIommu_hvictl : (s.setIommu v).hvictl = s.hvictl := rfl
@[simp] theorem State.setIommu_hviprio1 : (s.setIommu v).hviprio1 = s.hviprio1 := rfl
@[simp] theorem State.setIommu_hviprio2 : (s.setIommu v).hviprio2 = s.hviprio2 := rfl
@[simp] theorem State.setIommu_vsieOwn : (s.setIommu v).vsieOwn = s.vsieOwn := rfl
@[simp] theorem State.setIommu_vsiselect : (s.setIommu v).vsiselect = s.vsiselect := rfl
@[simp] theorem State.setIommu_files : (s.setIommu v).files = s.files := rfl
@[simp] theorem State.setIommu_sip : (s.setIommu v).sip = s.sip := rfl
@[simp] theorem State.setIommu_sie : (s.setIommu v).sie = s.sie := rfl
@[simp] theorem State.setIommu_hie : (s.setIommu v).hie = s.hie := rfl
@[simp] theorem State.setIommu_vstipTimer : (s.setIommu v).vstipTimer = s.vstipTimer := rfl
@[simp] theorem State.setIommu_vseipPlatform : (s.setIommu v).vseipPlatform = s.vseipPlatform := rfl
@[simp] theorem State.setIommu_outside : (s.setIommu v).outside = s.outside := rfl
@[simp] theorem State.setIommu_iommu : (s.setIommu v).iommu = v := rfl
@[simp] theorem State.setIommu_mem : (s.setIommu v).mem = s.mem := rfl
@[simp] theorem State.setIommu_outcome : (s.setIommu v).outcome = s.outcome := rfl
@[simp] theorem State.setIommu_agenda : (s.setIommu v).agenda = s.agenda := rfl
@[simp] theorem State.setIommu_draws : (s.setIommu v).draws = s.draws := rfl
end

section
variable (s : State) (v : Memory)
@[simp] theorem State.setMem_cfg : (s.setMem v).cfg = s.cfg := rfl
@[simp] theorem State.setMem_mode : (s.setMem v).mode = s.mode := rfl
@[simp] theorem State.setMem_pc : (s.setMem v).pc = s.pc := rfl
@[simp] theorem State.setMem_x : (s.setMem v).x = s.x := rfl
@[simp] theorem State.setMem_vgein : (s.setMem v).vgein = s.vgein := rfl
@[simp] theorem State.setMem_vsSIE : (s.setMem v).vsSIE = s.vsSIE := rfl
@[simp] theorem State.setMem_vsSPIE : (s.setMem v).vsSPIE = s.vsSPIE := rfl
@[simp] theorem State.setMem_vsSPP : (s.setMem v).vsSPP = s.vsSPP := rfl
@[simp] theorem State.setMem_vscause : (s.setMem v).vscause = s.vscause := rfl
@[simp] theorem State.setMem_vsepc : (s.setMem v).vsepc = s.vsepc := rfl
@[simp] theorem State.setMem_vstvec : (s.setMem v).vstvec = s.vstvec := rfl
@[simp] theorem State.setMem_vstval : (s.setMem v).vstval = s.vstval := rfl
@[simp] theorem State.setMem_hideleg : (s.setMem v).hideleg = s.hideleg := rfl
@[simp] theorem State.setMem_hvien : (s.setMem v).hvien = s.hvien := rfl
@[simp] theorem State.setMem_hvip : (s.setMem v).hvip = s.hvip := rfl
@[simp] theorem State.setMem_hvictl : (s.setMem v).hvictl = s.hvictl := rfl
@[simp] theorem State.setMem_hviprio1 : (s.setMem v).hviprio1 = s.hviprio1 := rfl
@[simp] theorem State.setMem_hviprio2 : (s.setMem v).hviprio2 = s.hviprio2 := rfl
@[simp] theorem State.setMem_vsieOwn : (s.setMem v).vsieOwn = s.vsieOwn := rfl
@[simp] theorem State.setMem_vsiselect : (s.setMem v).vsiselect = s.vsiselect := rfl
@[simp] theorem State.setMem_files : (s.setMem v).files = s.files := rfl
@[simp] theorem State.setMem_sip : (s.setMem v).sip = s.sip := rfl
@[simp] theorem State.setMem_sie : (s.setMem v).sie = s.sie := rfl
@[simp] theorem State.setMem_hie : (s.setMem v).hie = s.hie := rfl
@[simp] theorem State.setMem_vstipTimer : (s.setMem v).vstipTimer = s.vstipTimer := rfl
@[simp] theorem State.setMem_vseipPlatform : (s.setMem v).vseipPlatform = s.vseipPlatform := rfl
@[simp] theorem State.setMem_outside : (s.setMem v).outside = s.outside := rfl
@[simp] theorem State.setMem_iommu : (s.setMem v).iommu = s.iommu := rfl
@[simp] theorem State.setMem_mem : (s.setMem v).mem = v := rfl
@[simp] theorem State.setMem_outcome : (s.setMem v).outcome = s.outcome := rfl
@[simp] theorem State.setMem_agenda : (s.setMem v).agenda = s.agenda := rfl
@[simp] theorem State.setMem_draws : (s.setMem v).draws = s.draws := rfl
end

section
variable (s : State) (v : Option TrapRecord)
@[simp] theorem State.setOutcome_cfg : (s.setOutcome v).cfg = s.cfg := rfl
@[simp] theorem State.setOutcome_mode : (s.setOutcome v).mode = s.mode := rfl
@[simp] theorem State.setOutcome_pc : (s.setOutcome v).pc = s.pc := rfl
@[simp] theorem State.setOutcome_x : (s.setOutcome v).x = s.x := rfl
@[simp] theorem State.setOutcome_vgein : (s.setOutcome v).vgein = s.vgein := rfl
@[simp] theorem State.setOutcome_vsSIE : (s.setOutcome v).vsSIE = s.vsSIE := rfl
@[simp] theorem State.setOutcome_vsSPIE : (s.setOutcome v).vsSPIE = s.vsSPIE := rfl
@[simp] theorem State.setOutcome_vsSPP : (s.setOutcome v).vsSPP = s.vsSPP := rfl
@[simp] theorem State.setOutcome_vscause : (s.setOutcome v).vscause = s.vscause := rfl
@[simp] theorem State.setOutcome_vsepc : (s.setOutcome v).vsepc = s.vsepc := rfl
@[simp] theorem State.setOutcome_vstvec : (s.setOutcome v).vstvec = s.vstvec := rfl
@[simp] theorem State.setOutcome_vstval : (s.setOutcome v).vstval = s.vstval := rfl
@[simp] theorem State.setOutcome_hideleg : (s.setOutcome v).hideleg = s.hideleg := rfl
@[simp] theorem State.setOutcome_hvien : (s.setOutcome v).hvien = s.hvien := rfl
@[simp] theorem State.setOutcome_hvip : (s.setOutcome v).hvip = s.hvip := rfl
@[simp] theorem State.setOutcome_hvictl : (s.setOutcome v).hvictl = s.hvictl := rfl
@[simp] theorem State.setOutcome_hviprio1 : (s.setOutcome v).hviprio1 = s.hviprio1 := rfl
@[simp] theorem State.setOutcome_hviprio2 : (s.setOutcome v).hviprio2 = s.hviprio2 := rfl
@[simp] theorem State.setOutcome_vsieOwn : (s.setOutcome v).vsieOwn = s.vsieOwn := rfl
@[simp] theorem State.setOutcome_vsiselect : (s.setOutcome v).vsiselect = s.vsiselect := rfl
@[simp] theorem State.setOutcome_files : (s.setOutcome v).files = s.files := rfl
@[simp] theorem State.setOutcome_sip : (s.setOutcome v).sip = s.sip := rfl
@[simp] theorem State.setOutcome_sie : (s.setOutcome v).sie = s.sie := rfl
@[simp] theorem State.setOutcome_hie : (s.setOutcome v).hie = s.hie := rfl
@[simp] theorem State.setOutcome_vstipTimer : (s.setOutcome v).vstipTimer = s.vstipTimer := rfl
@[simp] theorem State.setOutcome_vseipPlatform : (s.setOutcome v).vseipPlatform = s.vseipPlatform := rfl
@[simp] theorem State.setOutcome_outside : (s.setOutcome v).outside = s.outside := rfl
@[simp] theorem State.setOutcome_iommu : (s.setOutcome v).iommu = s.iommu := rfl
@[simp] theorem State.setOutcome_mem : (s.setOutcome v).mem = s.mem := rfl
@[simp] theorem State.setOutcome_outcome : (s.setOutcome v).outcome = v := rfl
@[simp] theorem State.setOutcome_agenda : (s.setOutcome v).agenda = s.agenda := rfl
@[simp] theorem State.setOutcome_draws : (s.setOutcome v).draws = s.draws := rfl
end

section
variable (s : State) (v : List Turn)
@[simp] theorem State.setAgenda_cfg : (s.setAgenda v).cfg = s.cfg := rfl
@[simp] theorem State.setAgenda_mode : (s.setAgenda v).mode = s.mode := rfl
@[simp] theorem State.setAgenda_pc : (s.setAgenda v).pc = s.pc := rfl
@[simp] theorem State.setAgenda_x : (s.setAgenda v).x = s.x := rfl
@[simp] theorem State.setAgenda_vgein : (s.setAgenda v).vgein = s.vgein := rfl
@[simp] theorem State.setAgenda_vsSIE : (s.setAgenda v).vsSIE = s.vsSIE := rfl
@[simp] theorem State.setAgenda_vsSPIE : (s.setAgenda v).vsSPIE = s.vsSPIE := rfl
@[simp] theorem State.setAgenda_vsSPP : (s.setAgenda v).vsSPP = s.vsSPP := rfl
@[simp] theorem State.setAgenda_vscause : (s.setAgenda v).vscause = s.vscause := rfl
@[simp] theorem State.setAgenda_vsepc : (s.setAgenda v).vsepc = s.vsepc := rfl
@[simp] theorem State.setAgenda_vstvec : (s.setAgenda v).vstvec = s.vstvec := rfl
@[simp] theorem State.setAgenda_vstval : (s.setAgenda v).vstval = s.vstval := rfl
@[simp] theorem State.setAgenda_hideleg : (s.setAgenda v).hideleg = s.hideleg := rfl
@[simp] theorem State.setAgenda_hvien : (s.setAgenda v).hvien = s.hvien := rfl
@[simp] theorem State.setAgenda_hvip : (s.setAgenda v).hvip = s.hvip := rfl
@[simp] theorem State.setAgenda_hvictl : (s.setAgenda v).hvictl = s.hvictl := rfl
@[simp] theorem State.setAgenda_hviprio1 : (s.setAgenda v).hviprio1 = s.hviprio1 := rfl
@[simp] theorem State.setAgenda_hviprio2 : (s.setAgenda v).hviprio2 = s.hviprio2 := rfl
@[simp] theorem State.setAgenda_vsieOwn : (s.setAgenda v).vsieOwn = s.vsieOwn := rfl
@[simp] theorem State.setAgenda_vsiselect : (s.setAgenda v).vsiselect = s.vsiselect := rfl
@[simp] theorem State.setAgenda_files : (s.setAgenda v).files = s.files := rfl
@[simp] theorem State.setAgenda_sip : (s.setAgenda v).sip = s.sip := rfl
@[simp] theorem State.setAgenda_sie : (s.setAgenda v).sie = s.sie := rfl
@[simp] theorem State.setAgenda_hie : (s.setAgenda v).hie = s.hie := rfl
@[simp] theorem State.setAgenda_vstipTimer : (s.setAgenda v).vstipTimer = s.vstipTimer := rfl
@[simp] theorem State.setAgenda_vseipPlatform : (s.setAgenda v).vseipPlatform = s.vseipPlatform := rfl
@[simp] theorem State.setAgenda_outside : (s.setAgenda v).outside = s.outside := rfl
@[simp] theorem State.setAgenda_iommu : (s.setAgenda v).iommu = s.iommu := rfl
@[simp] theorem State.setAgenda_mem : (s.setAgenda v).mem = s.mem := rfl
@[simp] theorem State.setAgenda_outcome : (s.setAgenda v).outcome = s.outcome := rfl
@[simp] theorem State.setAgenda_agenda : (s.setAgenda v).agenda = v := rfl
@[simp] theorem State.setAgenda_draws : (s.setAgenda v).draws = s.draws := rfl
end

section
variable (s : State) (v : Nat)
@[simp] theorem State.setDraws_cfg : (s.setDraws v).cfg = s.cfg := rfl
@[simp] theorem State.setDraws_mode : (s.setDraws v).mode = s.mode := rfl
@[simp] theorem State.setDraws_pc : (s.setDraws v).pc = s.pc := rfl
@[simp] theorem State.setDraws_x : (s.setDraws v).x = s.x := rfl
@[simp] theorem State.setDraws_vgein : (s.setDraws v).vgein = s.vgein := rfl
@[simp] theorem State.setDraws_vsSIE : (s.setDraws v).vsSIE = s.vsSIE := rfl
@[simp] theorem State.setDraws_vsSPIE : (s.setDraws v).vsSPIE = s.vsSPIE := rfl
@[simp] theorem State.setDraws_vsSPP : (s.setDraws v).vsSPP = s.vsSPP := rfl
@[simp] theorem State.setDraws_vscause : (s.setDraws v).vscause = s.vscause := rfl
@[simp] theorem State.setDraws_vsepc : (s.setDraws v).vsepc = s.vsepc := rfl
@[simp] theorem State.setDraws_vstvec : (s.setDraws v).vstvec = s.vstvec := rfl
@[simp] theorem State.setDraws_vstval : (s.setDraws v).vstval = s.vstval := rfl
@[simp] theorem State.setDraws_hideleg : (s.setDraws v).hideleg = s.hideleg := rfl
@[simp] theorem State.setDraws_hvien : (s.setDraws v).hvien = s.hvien := rfl
@[simp] theorem State.setDraws_hvip : (s.setDraws v).hvip = s.hvip := rfl
@[simp] theorem State.setDraws_hvictl : (s.setDraws v).hvictl = s.hvictl := rfl
@[simp] theorem State.setDraws_hviprio1 : (s.setDraws v).hviprio1 = s.hviprio1 := rfl
@[simp] theorem State.setDraws_hviprio2 : (s.setDraws v).hviprio2 = s.hviprio2 := rfl
@[simp] theorem State.setDraws_vsieOwn : (s.setDraws v).vsieOwn = s.vsieOwn := rfl
@[simp] theorem State.setDraws_vsiselect : (s.setDraws v).vsiselect = s.vsiselect := rfl
@[simp] theorem State.setDraws_files : (s.setDraws v).files = s.files := rfl
@[simp] theorem State.setDraws_sip : (s.setDraws v).sip = s.sip := rfl
@[simp] theorem State.setDraws_sie : (s.setDraws v).sie = s.sie := rfl
@[simp] theorem State.setDraws_hie : (s.setDraws v).hie = s.hie := rfl
@[simp] theorem State.setDraws_vstipTimer : (s.setDraws v).vstipTimer = s.vstipTimer := rfl
@[simp] theorem State.setDraws_vseipPlatform : (s.setDraws v).vseipPlatform = s.vseipPlatform := rfl
@[simp] theorem State.setDraws_outside : (s.setDraws v).outside = s.outside := rfl
@[simp] theorem State.setDraws_iommu : (s.setDraws v).iommu = s.iommu := rfl
@[simp] theorem State.setDraws_mem : (s.setDraws v).mem = s.mem := rfl
@[simp] theorem State.setDraws_outcome : (s.setDraws v).outcome = s.outcome := rfl
@[simp] theorem State.setDraws_agenda : (s.setDraws v).agenda = s.agenda := rfl
@[simp] theorem State.setDraws_draws : (s.setDraws v).draws = v := rfl
end

end Sys2Proof.Machine
end

