-- ==== Sys2Proof/Laws/Ops.lean ====
section
/-! SUPPORT. What the shared operations of Machine/Ops.lean do, said once. -/

namespace Sys2Proof.Machine

/-! ### Registers and pc -/

@[simp] theorem readReg_zero (s : State) : readReg 0 s = 0 := by simp [readReg]

/-- What a register reads depends on the registers alone. -/
theorem readReg_congr (r : BitVec 5) (s t : State) (h : s.x = t.x) : readReg r s = readReg r t := by
  simp only [readReg, h]

theorem readReg_writeReg_same (r : BitVec 5) (v : Word) (s : State) (h : r ≠ 0) :
    readReg r (writeReg r v s) = v &&& s.cfg.xmask := by
  simp only [readReg, writeReg, if_neg h, State.setX_x, Vector.getElem_set_self]

theorem readReg_writeReg_other (r q : BitVec 5) (v : Word) (s : State) (h : q ≠ r) :
    readReg q (writeReg r v s) = readReg q s := by
  have hn : r.toNat ≠ q.toNat := fun e => h (BitVec.eq_of_toNat_eq e.symm)
  by_cases hr : r = 0
  · simp only [writeReg, if_pos hr]
  · simp only [readReg, writeReg, if_neg hr, State.setX_x, Vector.getElem_set, if_neg hn]

/-- A register write is an update of `x` alone. -/
theorem writeReg_eq (r : BitVec 5) (v : Word) (s : State) : ∃ x, writeReg r v s = s.setX x := by
  unfold writeReg
  split
  · exact ⟨s.x, rfl⟩
  · exact ⟨_, rfl⟩

theorem advance_eq (s : State) : advance s = s.setPc ((s.pc + 4) &&& s.cfg.xmask) := rfl

theorem raise_eq (k : ExcKind) (w : InstrWord) (s : State) : raise k w s = s.setOutcome (some ⟨k, s.pc, w⟩) := rfl

/-! ### Free values -/

@[simp] theorem takeFree_state (s : State) : (takeFree s).2 = s.setDraws (s.draws + 1) := rfl

@[simp] theorem readPartly_state (k v : Word) (s : State) : (readPartly k v s).2 = s.setDraws (s.draws + 1) := rfl

/-- The bits named are those of the value. -/
theorem readPartly_known (k v : Word) (s : State) : (readPartly k v s).1 &&& k = v &&& k := by
  simp only [readPartly, mergeBits]
  ext i hi
  grind

/-! ### Bits -/

theorem getLsbD_mergeBits (m a b : BitVec 64) (i : Nat) :
    (mergeBits m a b).getLsbD i = if m.getLsbD i then b.getLsbD i else a.getLsbD i := by
  unfold mergeBits
  by_cases hi : i < 64
  · simp only [BitVec.getLsbD_or, BitVec.getLsbD_and, BitVec.getLsbD_not, hi, decide_true, Bool.true_and]
    cases m.getLsbD i <;> simp
  · simp [BitVec.getLsbD_of_ge _ i (Nat.le_of_not_lt hi)]

theorem mergeBits_zero (a b : BitVec 64) : mergeBits 0 a b = a := by
  refine BitVec.eq_of_getLsbD_eq fun i hi => ?_
  rw [getLsbD_mergeBits]
  simp

theorem getLsbD_bitAt (i j : Nat) (b : Bool) (hi : i < 64) : (bitAt i b).getLsbD j = (decide (j = i) && b) := by
  unfold bitAt
  cases b
  · simp
  · by_cases hj : j = i
    · simp [hj, hi]
    · simp [hj]
      omega

/-! ### Traps and returns -/

/-- The state in which the handler's address leaves the machine differs by at most one draw. -/
theorem vsHandler_state (b : Bool) (n : Nat) (s : State) :
    (vsHandler b n s).2 = s ∨ (vsHandler b n s).2 = s.setDraws (s.draws + 1) := by
  unfold vsHandler
  split
  · exact .inl rfl
  · split
    · exact .inl rfl
    · exact .inr rfl

/-- The trap into VS-mode changes the six fields, the mode, the pc, and at most the count of draws (R168). -/
theorem trapToVS_eq (b : Bool) (n : Nat) (tval : Word) (s : State) :
    ∃ d, trapToVS b n tval s =
      enterVS (vsHandler b n s).1 (((s.setDraws d).setVscause
        ((if b then interruptBit s.cfg else 0) ||| BitVec.ofNat 64 n)).setVstval tval) := by
  rcases vsHandler_state b n s with h | h
  · exact ⟨s.draws, by rw [trapToVS, h]; rfl⟩
  · exact ⟨s.draws + 1, by rw [trapToVS, h]⟩

end Sys2Proof.Machine
end

