-- ==== Sys2Proof/Laws/Csr.lean ====
section
/-! SUPPORT. What the access operations of Machine/CsrAccess.lean do, said once: numbers, the check, reads, writes, and
the common order of a CSR instruction. -/

namespace Sys2Proof.Machine

/-! ### Numbers -/

theorem csrNamed_csrNumber (c : Csr) : csrNamed (csrNumber c) = some (.own c) := by
  cases c <;> decide

theorem csrNamed_supNumber (c : Csr) (n : BitVec 12) (h : supNumber c = some n) : csrNamed n = some (.sup c) := by
  cases c <;> simp only [supNumber, Option.some.injEq, reduceCtorEq] at h <;> subst h <;> decide

/-- Own numbers lie at the hypervisor level (R85). -/
theorem csrLevel_csrNumber (c : Csr) : csrLevel (csrNumber c) = 2 := by cases c <;> decide

/-- Supervisor numbers lie at the supervisor level (R85). -/
theorem csrLevel_supNumber (c : Csr) (n : BitVec 12) (h : supNumber c = some n) : csrLevel n = 1 := by
  cases c <;> simp only [supNumber, Option.some.injEq, reduceCtorEq] at h <;> subst h <;> decide

/-- Of the own numbers vstopi's alone is read-only (R84, R85). -/
theorem csrReadOnly_csrNumber (c : Csr) : csrReadOnly (csrNumber c) = decide (c = .vstopi) := by cases c <;> decide

/-- Of the supervisor numbers stopi's alone is read-only (R84, R85). -/
theorem csrReadOnly_supNumber (c : Csr) (n : BitVec 12) (h : supNumber c = some n) :
    csrReadOnly n = decide (c = .vstopi) := by
  cases c <;> simp only [supNumber, Option.some.injEq, reduceCtorEq] at h <;> subst h <;> decide

/-- What a number can name: nothing, its own register, or a supervisor register. -/
theorem csrNamed_cases (n : BitVec 12) :
    csrNamed n = none ∨ (∃ c, csrNamed n = some (.own c) ∧ n = csrNumber c) ∨
      (∃ c, csrNamed n = some (.sup c) ∧ supNumber c = some n) := by
  unfold csrNamed
  cases h : allCsrs.find? (fun c => csrNumber c == n) with
  | some c =>
    have := List.find?_some h
    exact .inr (.inl ⟨c, rfl, (beq_iff_eq.mp this).symm⟩)
  | none =>
    cases h' : allCsrs.find? (fun c => supNumber c == some n) with
    | some c =>
      have := List.find?_some h'
      exact .inr (.inr ⟨c, rfl, beq_iff_eq.mp this⟩)
    | none => exact .inl rfl

/-! ### The check -/

/-- A check that passes reaches the register the number names in the mode, the general clauses of R120 and clause 4
having raised nothing. -/
theorem check_pass (s : State) (n : BitVec 12) (w : Bool) (c : Csr) (h : check s n w = .pass c) :
    csrReached s.mode n = some c ∧ csrExists s.cfg n = true ∧ (w = true → csrReadOnly n = false) ∧
      levelException s.mode (csrLevel n) = none ∧ registerException s c (vtiNamed s.cfg n c) w = none := by
  unfold check at h
  split at h
  · cases h
  · next he =>
    split at h
    · cases h
    · next hr =>
      split at h
      · cases h
      · next hl =>
        unfold checkReached at h
        split at h
        · next c' hc =>
          split at h
          · cases h
          · next hx =>
            cases h
            refine ⟨hc, by simpa using he, fun hw => ?_, hl, hx⟩
            simpa [hw] using hr
        · next hc =>
          split at h
          · cases h
          · split at h <;> cases h

/-- The general clauses and clause 4 raising nothing, the check passes. -/
theorem check_of_clauses (s : State) (n : BitVec 12) (w : Bool) (c : Csr) (he : csrExists s.cfg n = true)
    (hr : w = true → csrReadOnly n = false) (hl : levelException s.mode (csrLevel n) = none)
    (hc : csrReached s.mode n = some c) (hx : registerException s c (vtiNamed s.cfg n c) w = none) :
    check s n w = .pass c := by
  have h2 : ¬ (w = true ∧ csrReadOnly n = true) := fun ⟨a, b⟩ => by simp [hr a] at b
  rw [check, if_neg (by simp [he]), if_neg h2, hl]
  simp only [checkReached, hc, hx]

/-- Clause 3 raising an exception, the check raises it, the number existing and not being written read-only. -/
theorem check_of_level (s : State) (n : BitVec 12) (w : Bool) (k : ExcKind) (he : csrExists s.cfg n = true)
    (hr : w = true → csrReadOnly n = false) (hl : levelException s.mode (csrLevel n) = some k) :
    check s n w = .raises k := by
  have h2 : ¬ (w = true ∧ csrReadOnly n = true) := fun ⟨a, b⟩ => by simp [hr a] at b
  rw [check, if_neg (by simp [he]), if_neg h2, hl]

/-- Clause 4 raising an exception on the register reached, the check raises it. -/
theorem check_of_register (s : State) (n : BitVec 12) (w : Bool) (c : Csr) (k : ExcKind)
    (he : csrExists s.cfg n = true) (hr : w = true → csrReadOnly n = false)
    (hl : levelException s.mode (csrLevel n) = none) (hc : csrReached s.mode n = some c)
    (hx : registerException s c (vtiNamed s.cfg n c) w = some k) : check s n w = .raises k := by
  have h2 : ¬ (w = true ∧ csrReadOnly n = true) := fun ⟨a, b⟩ => by simp [hr a] at b
  rw [check, if_neg (by simp [he]), if_neg h2, hl]
  simp only [checkReached, hc, hx]

theorem csrExists_csrNumber (cfg : Config) (c : Csr) : csrExists cfg (csrNumber c) = csrPresent cfg c := by
  simp only [csrExists, csrNamed_csrNumber, namedReg]

theorem csrExists_supNumber (cfg : Config) (c : Csr) (n : BitVec 12) (h : supNumber c = some n) :
    csrExists cfg n = csrPresent cfg c := by
  simp only [csrExists, csrNamed_supNumber c n h, namedReg]

/-! ### The common order of a CSR instruction -/

/-- A CSR instruction that gives a next state raises an exception or completes (R100, R109). -/
theorem csrExec_next (w : InstrWord) (n : BitVec 12) (r wr : Bool) (f : Word → Word) (rd : BitVec 5) (s t : State)
    (h : csrExec w n r wr f rd s = .next t) :
    (∃ k, check s n wr = .raises k ∧ t = raise k w s) ∨
      (∃ c, check s n wr = .pass c ∧ t = csrComplete c r wr f rd s) := by
  unfold csrExec at h
  split at h
  · next k hk => cases h; exact .inl ⟨k, hk, rfl⟩
  · cases h
  · next c hc => cases h; exact .inr ⟨c, hc, rfl⟩

theorem csrExec_pass (w : InstrWord) (n : BitVec 12) (r wr : Bool) (f : Word → Word) (rd : BitVec 5) (s : State) (c : Csr)
    (h : check s n wr = .pass c) : csrExec w n r wr f rd s = .next (csrComplete c r wr f rd s) := by
  simp only [csrExec, h]

theorem csrExec_raises (w : InstrWord) (n : BitVec 12) (r wr : Bool) (f : Word → Word) (rd : BitVec 5) (s : State)
    (k : ExcKind) (h : check s n wr = .raises k) : csrExec w n r wr f rd s = .next (raise k w s) := by
  simp only [csrExec, h]

theorem csrExec_refuses (w : InstrWord) (n : BitVec 12) (r wr : Bool) (f : Word → Word) (rd : BitVec 5) (s : State)
    (e : Refusal) (h : check s n wr = .refuses e) : csrExec w n r wr f rd s = .refused e := by
  simp only [csrExec, h]

/-- A read leaves the state, but for the count of draws. -/
theorem csrRead_state (c : Csr) (s : State) : (csrRead c s).2 = s ∨ (csrRead c s).2 = s.setDraws (s.draws + 1) := by
  cases c <;> first | exact .inl rfl | exact .inr rfl

/-! ### Writes -/

/-- A draw of bits of VSIE_OWN writes those bits and at most counts the draw (R35). -/
theorem drawOwn_eq (bits : BitVec 64) (s : State) :
    ∃ d, drawOwn bits s = (s.setVsieOwn (mergeBits bits s.vsieOwn (Config.freeValue s.draws))).setDraws d := by
  unfold drawOwn
  split
  · next h =>
    refine ⟨s.draws, ?_⟩
    have : mergeBits bits s.vsieOwn (Config.freeValue s.draws) = s.vsieOwn := by
      rw [h, mergeBits_zero]
    rw [this]
    rfl
  · exact ⟨_, rfl⟩

/-- A write of hideleg (R123, R35). -/
theorem writeHideleg_eq (h : Half) (v : Word) (s : State) :
    ∃ d, writeHideleg h v s = ((s.setHideleg (h.write s.cfg.hidelegW s.hideleg v)).setVsieOwn
      (mergeBits (unspecifiedBits s.hideleg s.hvien (h.write s.cfg.hidelegW s.hideleg v) s.hvien) s.vsieOwn
        (Config.freeValue s.draws))).setDraws d := drawOwn_eq _ _

/-- A write of hvien (R123, R35). -/
theorem writeHvien_eq (h : Half) (v : Word) (s : State) :
    ∃ d, writeHvien h v s = ((s.setHvien (h.write s.cfg.hvienW s.hvien v)).setVsieOwn
      (mergeBits (unspecifiedBits s.hideleg s.hvien s.hideleg (h.write s.cfg.hvienW s.hvien v)) s.vsieOwn
        (Config.freeValue s.draws))).setDraws d := drawOwn_eq _ _

/-- A write of hstatus changes VGEIN and at most the count of draws (R142). -/
theorem writeHstatus_eq (v : Word) (s : State) : ∃ g d, writeHstatus v s = (s.setVgein g).setDraws d := by
  unfold writeHstatus
  split
  · exact ⟨v.extractLsb' 12 6, s.draws, rfl⟩
  · exact ⟨(takeFree s).1.extractLsb' 0 6, s.draws + 1, rfl⟩

/-- A write of a register of a file changes the current file and at most the count of draws (R129, R131). -/
theorem writeFileReg_eq (r : FileReg) (v : Word) (s : State) :
    ∃ f d, writeFileReg r v s = (setCurrentFile s f).setDraws d := by
  unfold writeFileReg
  split
  · split
    · exact ⟨_, s.draws, rfl⟩
    · split
      · exact ⟨_, s.draws, rfl⟩
      · exact ⟨_, _, rfl⟩
  · exact ⟨_, s.draws, rfl⟩
  · exact ⟨_, s.draws, rfl⟩
  · exact ⟨_, s.draws, rfl⟩

/-- A write of vsireg changes at most the current file and the count of draws. -/
theorem writeVsireg_eq (v : Word) (s : State) :
    writeVsireg v s = s ∨ ∃ f d, writeVsireg v s = (setCurrentFile s f).setDraws d := by
  unfold writeVsireg
  split
  · exact .inr (writeFileReg_eq _ _ _)
  · exact .inl rfl

/-- A claim changes at most the current file's pending bits (R133). -/
theorem claim_eq (s : State) : claim s = s ∨ ∃ f, claim s = setCurrentFile s f := by
  unfold claim
  split
  · exact .inl rfl
  · exact .inr ⟨_, rfl⟩

/-- What a write of each register changes, said once: the new state is the old one with the fields of that register
replaced, and perhaps the count of draws. -/
theorem csrStore_cases (c : Csr) (v : Word) (s : State) :
    csrStore c v s = s ∨
    (c = .hstatus ∧ ∃ g d, csrStore c v s = (s.setVgein g).setDraws d) ∨
    ((c = .hideleg ∨ c = .hidelegh) ∧ ∃ a o d, csrStore c v s = ((s.setHideleg a).setVsieOwn o).setDraws d) ∨
    ((c = .hvien ∨ c = .hvienh) ∧ ∃ a o d, csrStore c v s = ((s.setHvien a).setVsieOwn o).setDraws d) ∨
    (c = .hie ∧ ∃ a, csrStore c v s = s.setHie a) ∨
    (c = .hvictl ∧ ∃ a, csrStore c v s = s.setHvictl a) ∨
    ((c = .hip ∨ c = .hvip ∨ c = .hviph) ∧ ∃ a, csrStore c v s = s.setHvip a) ∨
    ((c = .hviprio1 ∨ c = .hviprio1h) ∧ ∃ a, csrStore c v s = s.setHviprio1 a) ∨
    ((c = .hviprio2 ∨ c = .hviprio2h) ∧ ∃ a, csrStore c v s = s.setHviprio2 a) ∨
    (c = .vsstatus ∧ ∃ a b d, csrStore c v s = ((s.setVsSIE a).setVsSPIE b).setVsSPP d) ∨
    ((c = .vsie ∨ c = .vsieh) ∧ ∃ a b d, csrStore c v s = ((s.setHie a).setSie b).setVsieOwn d) ∨
    ((c = .vsip ∨ c = .vsiph) ∧ ∃ a b, csrStore c v s = (s.setHvip a).setSip b) ∨
    (c = .vstvec ∧ ∃ a, csrStore c v s = s.setVstvec a) ∨
    (c = .vsepc ∧ ∃ a, csrStore c v s = s.setVsepc a) ∨
    (c = .vscause ∧ ∃ a, csrStore c v s = s.setVscause a) ∨
    (c = .vstval ∧ ∃ a, csrStore c v s = s.setVstval a) ∨
    (c = .vsiselect ∧ ∃ a, csrStore c v s = s.setVsiselect a) ∨
    ((c = .vsireg ∨ c = .vstopei) ∧ ∃ f d, csrStore c v s = (setCurrentFile s f).setDraws d) := by
  cases c <;> simp only [reduceCtorEq, false_and, true_and, or_false, false_or, or_true]
  case hstatus => exact .inr (writeHstatus_eq _ _)
  case hideleg => obtain ⟨d, h⟩ := writeHideleg_eq (plainHalf s.cfg) v s; exact .inr ⟨_, _, d, h⟩
  case hidelegh => obtain ⟨d, h⟩ := writeHideleg_eq .high v s; exact .inr ⟨_, _, d, h⟩
  case hvien => obtain ⟨d, h⟩ := writeHvien_eq (plainHalf s.cfg) v s; exact .inr ⟨_, _, d, h⟩
  case hvienh => obtain ⟨d, h⟩ := writeHvien_eq .high v s; exact .inr ⟨_, _, d, h⟩
  case vsireg =>
    rcases writeVsireg_eq v s with h | h
    · exact .inl h
    · exact .inr h
  case vstopei =>
    rcases claim_eq s with h | ⟨f, h⟩
    · exact .inl h
    · exact .inr ⟨f, s.draws, h⟩
  case vstimecmp => rfl
  case vstimecmph => rfl
  case vstopi => rfl
  case vsstatus => exact .inr ⟨_, _, _, rfl⟩
  case vsie => exact .inr ⟨_, _, _, rfl⟩
  case vsieh => exact .inr ⟨_, _, _, rfl⟩
  case vsip => exact .inr ⟨_, _, rfl⟩
  case vsiph => exact .inr ⟨_, _, rfl⟩
  all_goals exact .inr ⟨_, rfl⟩

end Sys2Proof.Machine
end

