-- ==== Sys2Proof/Laws/Decode.lean ====
section
/-! SUPPORT. The fields of an encoded word, and words and their bytes. -/

namespace Sys2Proof

theorem fieldCsr_encodeCsr (csr : BitVec 12) (rs1 : BitVec 5) (f : BitVec 3) (rd : BitVec 5) :
    fieldCsr (encodeCsr csr rs1 f rd) = csr := by
  unfold fieldCsr encodeCsr
  ext i hi
  simp
  grind

theorem fieldRs1_encodeCsr (csr : BitVec 12) (rs1 : BitVec 5) (f : BitVec 3) (rd : BitVec 5) :
    fieldRs1 (encodeCsr csr rs1 f rd) = rs1 := by
  unfold fieldRs1 encodeCsr
  ext i hi
  simp
  grind

theorem fieldFunct3_encodeCsr (csr : BitVec 12) (rs1 : BitVec 5) (f : BitVec 3) (rd : BitVec 5) :
    fieldFunct3 (encodeCsr csr rs1 f rd) = f := by
  unfold fieldFunct3 encodeCsr
  ext i hi
  simp
  grind

theorem fieldRd_encodeCsr (csr : BitVec 12) (rs1 : BitVec 5) (f : BitVec 3) (rd : BitVec 5) :
    fieldRd (encodeCsr csr rs1 f rd) = rd := by
  unfold fieldRd encodeCsr
  ext i hi
  simp
  grind

theorem fieldOpcode_encodeCsr (csr : BitVec 12) (rs1 : BitVec 5) (f : BitVec 3) (rd : BitVec 5) :
    fieldOpcode (encodeCsr csr rs1 f rd) = 0x73 := by
  unfold fieldOpcode encodeCsr
  ext i hi
  simp
  grind

/-- The bytes of a word make the word again. -/
theorem wordOfBytes_byteOfWord (w : InstrWord) :
    wordOfBytes (byteOfWord w 0) (byteOfWord w 1) (byteOfWord w 2) (byteOfWord w 3) = w := by
  unfold wordOfBytes byteOfWord
  ext i hi
  simp
  grind

end Sys2Proof
end

