-- ==== Sys2Proof/Laws/Flags.lean ====
section
/-! SUPPORT. The bits of the interrupt registers that the operations of Machine/Flags.lean read and write, said once. -/

namespace Sys2Proof.Machine

theorem getLsbD_majorBits (i : Nat) (h : i < 64) : Config.majorBits.getLsbD i = decide (13 ≤ i) := by
  unfold Config.majorBits
  interval_cases i <;> decide

theorem getLsbD_delegated (s : State) (i : Nat) (h : i < 64) :
    (delegated s).getLsbD i = (decide (13 ≤ i) && s.hideleg.getLsbD i) := by
  unfold delegated
  rw [BitVec.getLsbD_and, getLsbD_majorBits i h]

theorem getLsbD_virtualized (s : State) (i : Nat) (h : i < 64) :
    (virtualized s).getLsbD i = (decide (13 ≤ i) && !s.hideleg.getLsbD i && s.hvien.getLsbD i) := by
  unfold virtualized
  rw [BitVec.getLsbD_and, BitVec.getLsbD_and, BitVec.getLsbD_not, getLsbD_majorBits i h]
  simp only [h, decide_true, Bool.true_and]

/-- A write of a part of a register changes the bits it may, inside the part, and no other (R23). -/
theorem getLsbD_half_write (p : Half) (w old : BitVec 64) (v : Word) (i : Nat) :
    (p.write w old v).getLsbD i =
      if w.getLsbD i && p.mask.getLsbD i then (p.place v).getLsbD i else old.getLsbD i := by
  unfold Half.write
  rw [getLsbD_mergeBits, BitVec.getLsbD_and]

theorem getLsbD_whole_mask (i : Nat) (h : i < 64) : Half.whole.mask.getLsbD i = true := by
  unfold Half.mask
  interval_cases i <;> decide

/-- A write of the whole register changes exactly the writable bits. -/
theorem getLsbD_whole_write (w old : BitVec 64) (v : Word) (i : Nat) (h : i < 64) :
    (Half.whole.write w old v).getLsbD i = if w.getLsbD i then v.getLsbD i else old.getLsbD i := by
  rw [getLsbD_half_write, getLsbD_whole_mask i h, Bool.and_true]
  rfl

end Sys2Proof.Machine
end

