-- ==== Sys2Proof/Laws/Imsic.lean ====
section
/-! SUPPORT. What the operations on the guest interrupt files do, said once: words and identities of an array, the file a
number reaches, the top identity. -/

namespace Sys2Proof.Machine

/-! ### Words and identities of an array -/

theorem arrayWord_setArrayWord (a : Vector (BitVec 64) 32) (k j : Nat) (v : BitVec 64) :
    arrayWord (setArrayWord a k v) j = if k = j ∧ k < 32 then v else arrayWord a j := by
  unfold arrayWord setArrayWord
  rw [Vector.getElem?_setIfInBounds]
  by_cases hk : k = j
  · subst hk
    by_cases h : k < 32
    · simp [h]
    · simp [h]
  · simp [hk]

/-- A word of an array replaced is seen by the identities of that word alone. -/
theorem idBit_setArrayWord (a : Vector (BitVec 64) 32) (k n : Nat) (v : BitVec 64) (hk : k < 32) :
    idBit (setArrayWord a k v) n = if n / 64 = k then v.getLsbD (n % 64) else idBit a n := by
  unfold idBit
  rw [arrayWord_setArrayWord]
  by_cases h : n / 64 = k
  · simp [h, hk]
  · rw [if_neg (fun e => h e.1.symm), if_neg h]

/-- Setting the bit of an identity is seen by that identity alone. -/
theorem idBit_setIdBit (a : Vector (BitVec 64) 32) (n m : Nat) (b : Bool) (hn : n < 2048) :
    idBit (setIdBit a n b) m = if m = n then b else idBit a m := by
  have hm : n % 64 < 64 := Nat.mod_lt _ (by omega)
  unfold idBit setIdBit
  rw [arrayWord_setArrayWord]
  by_cases hk : n / 64 = m / 64
  · rw [if_pos ⟨hk, by omega⟩, getLsbD_mergeBits, getLsbD_bitAt _ _ _ hm, getLsbD_bitAt _ _ _ hm]
    by_cases h : m = n
    · subst h; simp
    · have : m % 64 ≠ n % 64 := by omega
      simp [this, h, hk]
  · rw [if_neg (by omega), if_neg (by intro h; subst h; exact hk rfl)]

/-- Arrays that agree in the bit of every identity are the same array. -/
theorem array_ext_idBit (a b : Vector (BitVec 64) 32) (h : ∀ n, n < 2048 → idBit a n = idBit b n) : a = b := by
  ext k hk i hi
  have := h (64 * k + i) (by omega)
  unfold idBit arrayWord at this
  have h1 : (64 * k + i) / 64 = k := by omega
  have h2 : (64 * k + i) % 64 = i := by omega
  rw [h1, h2, Vector.getElem?_eq_getElem hk, Vector.getElem?_eq_getElem hk] at this
  simpa [BitVec.getLsbD_eq_getElem hi] using this

/-! ### The file a number reaches -/

theorem fileAt_setFileAt (s : State) (g k : Nat) (f : IntrFile) :
    fileAt (setFileAt s g f) k = if g = k ∧ g < 64 then f else fileAt s k := by
  unfold fileAt setFileAt
  rw [State.setFiles_files, Vector.getElem?_setIfInBounds]
  by_cases hk : g = k
  · subst hk
    by_cases h : g < 64
    · simp [h]
    · simp [h]
  · simp [hk]

/-- Of two replacements of one file the second stands. -/
theorem setFileAt_setFileAt (s : State) (g : Nat) (f h : IntrFile) : setFileAt (setFileAt s g f) g h = setFileAt s g h := by
  refine congrArg s.setFiles ?_
  show (s.files.setIfInBounds g f).setIfInBounds g h = s.files.setIfInBounds g h
  ext i hi : 1
  simp [Vector.getElem_setIfInBounds]

theorem setFileAt_eq (s : State) (g : Nat) (f : IntrFile) : setFileAt s g f = s.setFiles (s.files.setIfInBounds g f) := rfl

theorem setCurrentFile_eq (s : State) (f : IntrFile) :
    setCurrentFile s f = s.setFiles (s.files.setIfInBounds s.vgein.toNat f) := rfl

theorem currentFile_setCurrentFile (s : State) (f : IntrFile) : currentFile (setCurrentFile s f) = f := by
  have h := s.vgein.isLt
  have : (setCurrentFile s f).vgein = s.vgein := rfl
  unfold currentFile
  rw [this]
  unfold setCurrentFile
  rw [fileAt_setFileAt, if_pos ⟨rfl, h⟩]

/-- Replacing the current file leaves every other file. -/
theorem fileAt_setCurrentFile_other (s : State) (f : IntrFile) (g : Nat) (h : g ≠ s.vgein.toNat) :
    fileAt (setCurrentFile s f) g = fileAt s g := by
  unfold setCurrentFile
  rw [fileAt_setFileAt, if_neg (fun e => h e.1.symm)]

/-! ### The top identity -/

/-- Nothing may be reported: the top identity is 0. -/
theorem topId_none (c : Config) (f : IntrFile) (h : ∀ n, mayReport c f n = false) : topId c f = 0 := by
  unfold topId
  rw [List.find?_eq_none.mpr (fun n _ => by simp [h n])]
  rfl

/-- An identity that may be reported is an implemented one. -/
theorem mayReport_range (c : Config) (f : IntrFile) (n : Nat) (h : mayReport c f n = true) : 1 ≤ n ∧ n < c.numIds := by
  simp only [mayReport, Bool.and_eq_true, decide_eq_true_eq] at h
  exact ⟨h.1.1.1.1, h.1.1.1.2⟩

/-- The smallest identity that may be reported is the top identity (R49). -/
theorem topId_min (c : Config) (f : IntrFile) (n : Nat) (h : mayReport c f n = true)
    (hm : ∀ m, m < n → mayReport c f m = false) : topId c f = n := by
  have hr := mayReport_range c f n h
  unfold topId
  have : (List.range c.numIds).find? (mayReport c f) = some n := by
    rw [List.find?_range_eq_some]
    exact ⟨h, List.mem_range.mpr hr.2, fun m hm' => by simp [hm m hm']⟩
  rw [this]
  rfl

/-- The top identity is 0 or the smallest that may be reported (R49). -/
theorem topId_cases (c : Config) (f : IntrFile) :
    (topId c f = 0 ∧ ∀ n, mayReport c f n = false) ∨
      (mayReport c f (topId c f) = true ∧ ∀ m, m < topId c f → mayReport c f m = false) := by
  by_cases h : ∃ n, mayReport c f n = true
  · refine .inr ?_
    classical
    have h1 := Nat.find_spec h
    have h2 : ∀ m, m < Nat.find h → mayReport c f m = false := fun m hm => by
      simpa using Nat.find_min h hm
    rw [topId_min c f _ h1 h2]
    exact ⟨h1, h2⟩
  · have h' : ∀ n, mayReport c f n = false := fun n => by
      cases hn : mayReport c f n
      · rfl
      · exact absurd ⟨n, hn⟩ h
    exact .inl ⟨topId_none c f h', h'⟩

/-- The claim clears the pending bit of the top identity, if there is one, and nothing else of any file (R133). -/
theorem claim_spec (s : State) (h : s.cfg.numIds ≤ 2048) :
    (∀ k, k < 2048 → idBit (currentFile (claim s)).eip k =
      (idBit (currentFile s).eip k && !(decide (k = topId s.cfg (currentFile s)) && decide (k ≠ 0)))) ∧
    (currentFile (claim s)).eie = (currentFile s).eie ∧
    (currentFile (claim s)).eidelivery = (currentFile s).eidelivery ∧
    (currentFile (claim s)).eithreshold = (currentFile s).eithreshold ∧
    ∀ g, g ≠ s.vgein.toNat → fileAt (claim s) g = fileAt s g := by
  unfold claim
  split
  · next h0 =>
    refine ⟨fun k _ => ?_, rfl, rfl, rfl, fun g _ => rfl⟩
    rw [h0]
    by_cases hk : k = 0 <;> simp [hk]
  · next h0 =>
    have ht : topId s.cfg (currentFile s) < 2048 := by
      rcases topId_cases s.cfg (currentFile s) with ⟨h1, -⟩ | ⟨h1, -⟩
      · omega
      · have := mayReport_range _ _ _ h1
        omega
    rw [currentFile_setCurrentFile]
    refine ⟨fun k hk => ?_, rfl, rfl, rfl, fun g hg => fileAt_setCurrentFile_other s _ g hg⟩
    rw [idBit_setIdBit _ _ _ _ ht]
    by_cases e : k = topId s.cfg (currentFile s)
    · subst e
      simp [h0]
    · simp [e]

end Sys2Proof.Machine
end

