-- ==== Sys2Proof/Laws/Interrupts.lean ====
section
/-! SUPPORT. The default order, the priority order and the choice of the highest-priority interrupt, said once. -/

namespace Sys2Proof.Machine

/-! ### The fields of hviprio1 and hviprio2 -/

theorem getLsbD_lowMask (n : Nat) (hn : n < 64) (i : Nat) : (lowMask n).getLsbD i = decide (i < n) := by
  unfold lowMask
  rw [BitVec.getLsbD_ofNat, Nat.testBit_two_pow_sub_one]
  by_cases h : i < n
  · simp [h]; omega
  · simp [h]

/-- The implemented bits of the fields: those of an implemented field, HVIPRIO_BITS from its lowest bit (R22). -/
theorem getLsbD_prioMask (c : Config) (hb : c.hviprioBits ≤ 8) (fs : List (Nat × Nat)) (b : Nat) (hb64 : b < 64) :
    (prioMask c fs).getLsbD b =
      fs.any (fun f => c.hviprioImpl.getLsbD f.1 && decide (f.2 ≤ b ∧ b < f.2 + c.hviprioBits)) := by
  induction fs with
  | nil => simp [prioMask]
  | cons f fs ih =>
    obtain ⟨i, p⟩ := f
    rw [prioMask, BitVec.getLsbD_or, ih, List.any_cons]
    congr 1
    cases c.hviprioImpl.getLsbD i
    · simp
    · rw [if_pos rfl, BitVec.getLsbD_shiftLeft, getLsbD_lowMask _ (by omega), Bool.true_and]
      rw [Bool.eq_iff_iff]; simp; omega

/-! ### The default order -/

theorem rankOk_of_wf (c : Config) (h : c.wf = true) : c.rankOk = true := by
  simp only [Config.wf, Bool.and_eq_true] at h
  exact h.1.1.2

/-- Every interrupt number stands in a default order that is well formed (R157). -/
theorem mem_defaultRank (c : Config) (h : c.rankOk = true) (i : Nat) (hi : i < 64) : i ∈ c.defaultRank := by
  simp only [Config.rankOk, Bool.and_eq_true, beq_iff_eq, List.all_eq_true, decide_eq_true_eq] at h
  obtain ⟨⟨hl, ha⟩, hn⟩ := h
  have hsub : c.defaultRank.toFinset ⊆ Finset.range 64 := fun x hx =>
    Finset.mem_range.mpr (ha x (List.mem_toFinset.mp hx))
  have hcard : c.defaultRank.toFinset.card = 64 := by rw [List.toFinset_card_of_nodup hn, hl]
  have := Finset.eq_of_subset_of_card_le hsub (by rw [hcard, Finset.card_range])
  exact List.mem_toFinset.mp (this ▸ Finset.mem_range.mpr hi)

/-- Two interrupt numbers at one place of the default order are one. -/
theorem rank_inj (c : Config) (h : c.rankOk = true) (i j : Nat) (hi : i < 64)
    (e : c.defaultRank.idxOf i = c.defaultRank.idxOf j) : i = j :=
  (List.idxOf_inj (mem_defaultRank c h i hi)).mp e

/-- Of two interrupt numbers exactly one stands higher in the default order (R157). -/
theorem defaultHigher_total (c : Config) (h : c.rankOk = true) (i j : Nat) (hi : i < 64) (hne : i ≠ j) :
    defaultHigher c j i = !defaultHigher c i j := by
  have : c.defaultRank.idxOf i ≠ c.defaultRank.idxOf j := fun e => hne (rank_inj c h i j hi e)
  unfold defaultHigher
  by_cases hlt : c.defaultRank.idxOf i < c.defaultRank.idxOf j
  · have h2 : ¬ c.defaultRank.idxOf j < c.defaultRank.idxOf i := by omega
    simp [hlt, h2]
  · have h2 : c.defaultRank.idxOf j < c.defaultRank.idxOf i := by omega
    simp [hlt, h2]

/-! ### The priority order -/

/-- R158 as one order: by tier, in tier 1 by priority number, then by the default order. -/
theorem higherPriority_iff (c : Config) (a pa b pb : Nat) :
    higherPriority c a pa b pb = true ↔
      tier c a pa < tier c b pb ∨
        (tier c a pa = tier c b pb ∧
          ((tier c a pa = 1 ∧ pa < pb) ∨
            ((tier c a pa = 1 → pa = pb) ∧ c.defaultRank.idxOf a < c.defaultRank.idxOf b))) := by
  unfold higherPriority defaultHigher
  grind

/-- The priority order is transitive (R158). -/
theorem higherPriority_trans (c : Config) (i pi j pj k pk : Nat) (h1 : higherPriority c i pi j pj = true)
    (h2 : higherPriority c j pj k pk = true) : higherPriority c i pi k pk = true := by
  rw [higherPriority_iff] at *
  omega

/-- No interrupt has higher priority than one that has higher priority than it. -/
theorem higherPriority_asymm (c : Config) (i pi j pj : Nat) (h : higherPriority c i pi j pj = true) :
    higherPriority c j pj i pi = false := by
  rw [Bool.eq_false_iff]
  intro h2
  rw [higherPriority_iff] at *
  omega

/-- Of two interrupts one has higher priority than the other (R158, R159). -/
theorem higherPriority_total (c : Config) (hc : c.rankOk = true) (i pi j pj : Nat) (hi : i < 64) (hne : i ≠ j)
    (h : higherPriority c i pi j pj = false) : higherPriority c j pj i pi = true := by
  have hr : c.defaultRank.idxOf i ≠ c.defaultRank.idxOf j := fun e => hne (rank_inj c hc i j hi e)
  rw [Bool.eq_false_iff, Ne, higherPriority_iff] at h
  rw [higherPriority_iff]
  omega

/-! ### The highest of a list -/

theorem highest_eq_none (c : Config) (p : Nat → Nat) (l : List Nat) : highest c p l = none ↔ l = [] := by
  cases l with
  | nil => simp [highest]
  | cons i l =>
    unfold highest
    split
    · simp
    · split <;> simp

/-- The highest of a list is a member with higher priority than every other member (R159). -/
theorem highest_spec (c : Config) (p : Nat → Nat) (hc : c.rankOk = true) (l : List Nat) (hl : ∀ j ∈ l, j < 64) (i : Nat)
    (h : highest c p l = some i) : i ∈ l ∧ ∀ j ∈ l, j ≠ i → higherPriority c i (p i) j (p j) = true := by
  induction l generalizing i with
  | nil => simp [highest] at h
  | cons a l ih =>
    unfold highest at h
    split at h
    · next hn =>
      have := (highest_eq_none c p l).mp hn
      subst this
      obtain rfl := Option.some.inj h
      simp
    · next b hb =>
      obtain ⟨hmem, hmax⟩ := ih (fun j hj => hl j (List.mem_cons_of_mem _ hj)) b hb
      split at h
      · next hp =>
        obtain rfl := Option.some.inj h
        refine ⟨List.mem_cons_of_mem _ hmem, fun j hj hne => ?_⟩
        rcases List.mem_cons.mp hj with rfl | hj'
        · exact hp
        · exact hmax j hj' hne
      · next hp =>
        obtain rfl := Option.some.inj h
        refine ⟨List.mem_cons_self .., fun j hj hne => ?_⟩
        rcases List.mem_cons.mp hj with rfl | hj'
        · exact absurd rfl hne
        · by_cases hjb : j = b
          · subst hjb
            exact higherPriority_total _ hc _ _ _ _ (hl j (List.mem_cons_of_mem _ hj')) hne (by simpa using hp)
          · by_cases hab : b = a
            · subst hab
              exact hmax j hj' hjb
            · exact higherPriority_trans _ _ _ _ _ _ _
                (higherPriority_total _ hc b _ a _ (hl b (List.mem_cons_of_mem _ hmem)) hab (by simpa using hp))
                (hmax j hj' hjb)

end Sys2Proof.Machine
end

