-- ==== Sys2Proof/Laws/Memory.lean ====
section
/-! SUPPORT. Memory: a read after a write, and the canonical form kept by every operation. -/

namespace Sys2Proof.Machine

theorem memory_read_write_same (m : Memory) (a : Nat) (v : Byte) : Memory.read (Memory.write m a v) a = some v := by
  induction m with
  | nil => simp [Memory.write, Memory.read]
  | cons e m ih =>
    obtain ⟨b, u⟩ := e
    unfold Memory.write
    split
    · simp [Memory.read]
    · split
      · simp [Memory.read]
      · next h => simp [Memory.read, h, ih]

theorem memory_read_write_other (m : Memory) (a b : Nat) (v : Byte) (h : b ≠ a) :
    Memory.read (Memory.write m a v) b = Memory.read m b := by
  induction m with
  | nil => simp [Memory.write, Memory.read, h]
  | cons e m ih =>
    obtain ⟨c, u⟩ := e
    unfold Memory.write
    split
    · simp [Memory.read, h]
    · split
      · next hc => subst hc; simp [Memory.read, h]
      · simp [Memory.read, ih]

theorem memory_above_write (m : Memory) (a b : Nat) (v : Byte) (hb : b < a) (h : Memory.above b m = true) :
    Memory.above b (Memory.write m a v) = true := by
  induction m generalizing b with
  | nil => simp [Memory.write, Memory.above, hb]
  | cons e m ih =>
    obtain ⟨c, u⟩ := e
    simp only [Memory.above, Bool.and_eq_true, decide_eq_true_eq] at h
    unfold Memory.write
    split
    · next hac => simp [Memory.above, hb, hac, h.2]
    · split
      · next hac => subst hac; simp [Memory.above, hb, h.2]
      · next h1 h2 => simp [Memory.above, h.1, ih c (by omega) h.2]

/-- A write keeps the canonical form. -/
theorem memory_write_wf (m : Memory) (a : Nat) (v : Byte) (h : Memory.wf m = true) :
    Memory.wf (Memory.write m a v) = true := by
  cases m with
  | nil => rfl
  | cons e m =>
    obtain ⟨c, u⟩ := e
    simp only [Memory.wf] at h
    unfold Memory.write
    split
    · next hac => simp [Memory.wf, Memory.above, hac, h]
    · split
      · next hac => subst hac; simpa [Memory.wf] using h
      · next h1 h2 => simp [Memory.wf, memory_above_write m a c v (by omega) h]

/-- Writing a word keeps the canonical form. -/
theorem memory_writeWord_wf (m : Memory) (a : Nat) (w : InstrWord) (h : Memory.wf m = true) :
    Memory.wf (Memory.writeWord m a w) = true := by
  unfold Memory.writeWord
  exact memory_write_wf _ _ _ (memory_write_wf _ _ _ (memory_write_wf _ _ _ (memory_write_wf _ _ _ h)))

/-- A word written at an address is read there. -/
theorem memory_readWord_writeWord (m : Memory) (a : Nat) (w : InstrWord) :
    Memory.readWord (Memory.writeWord m a w) a = some w := by
  have h3 : Memory.read (Memory.writeWord m a w) (a + 3) = some (byteOfWord w 3) := memory_read_write_same _ _ _
  have h2 : Memory.read (Memory.writeWord m a w) (a + 2) = some (byteOfWord w 2) := by
    unfold Memory.writeWord
    rw [memory_read_write_other _ _ _ _ (by omega), memory_read_write_same]
  have h1 : Memory.read (Memory.writeWord m a w) (a + 1) = some (byteOfWord w 1) := by
    unfold Memory.writeWord
    rw [memory_read_write_other _ _ _ _ (by omega), memory_read_write_other _ _ _ _ (by omega), memory_read_write_same]
  have h0 : Memory.read (Memory.writeWord m a w) a = some (byteOfWord w 0) := by
    unfold Memory.writeWord
    rw [memory_read_write_other _ _ _ _ (by omega), memory_read_write_other _ _ _ _ (by omega),
      memory_read_write_other _ _ _ _ (by omega), memory_read_write_same]
  unfold Memory.readWord
  rw [h0, h1, h2, h3]
  simp only [wordOfBytes_byteOfWord]

/-- Writing a word leaves every byte outside its four. -/
theorem memory_read_writeWord_other (m : Memory) (a b : Nat) (w : InstrWord) (h : b < a ∨ a + 3 < b) :
    Memory.read (Memory.writeWord m a w) b = Memory.read m b := by
  unfold Memory.writeWord
  rw [memory_read_write_other _ _ _ _ (by omega), memory_read_write_other _ _ _ _ (by omega),
    memory_read_write_other _ _ _ _ (by omega), memory_read_write_other _ _ _ _ (by omega)]

end Sys2Proof.Machine
end

