-- ==== Sys2Proof/Laws/Operands.lean ====
section
/-! SUPPORT. What one CSR of a 64-bit register reads and writes (R23), and which registers of an interrupt file exist
(R48), said once for both values of XLEN. -/

namespace Sys2Proof.Machine

/-! ### Halves -/

/-- The part of a 64-bit register that one CSR reaches: the high half, or that of the plain name. -/
theorem holdsBits_range (c : Config) (high : Bool) (lo hi : Nat) (h : holdsBits c high lo hi) :
    hi - lo = c.xlenBits ∧ lo < hi ∧ hi ≤ 64 ∧ (high = false → lo = 0) ∧ (high = true → lo = 32) := by
  unfold Config.xlenBits
  rcases h with ⟨a, b, rfl, rfl⟩ | ⟨a, b, rfl, rfl⟩ | ⟨a, b, rfl, rfl⟩ <;> simp [a, b]

theorem getLsbD_low32 (i : Nat) (h : i < 64) : (0xFFFFFFFF#64).getLsbD i = decide (i < 32) := by
  interval_cases i <;> decide

theorem getLsbD_all64 (i : Nat) (h : i < 64) : (0xFFFFFFFFFFFFFFFF#64).getLsbD i = true := by
  interval_cases i <;> decide

/-- The part is the bits the CSR holds. -/
theorem getLsbD_half_mask (c : Config) (high : Bool) (lo hi : Nat) (h : holdsBits c high lo hi) (i : Nat) (hi64 : i < 64) :
    (if high then Half.high else plainHalf c).mask.getLsbD i = decide (lo ≤ i ∧ i < hi) := by
  rcases h with ⟨a, rfl, rfl, rfl⟩ | ⟨a, rfl, rfl, rfl⟩ | ⟨a, rfl, rfl, rfl⟩
  all_goals simp only [plainHalf, a, Half.mask, if_true, Bool.false_eq_true, if_false]
  all_goals interval_cases i <;> decide

/-- A bit of the value written stands at the bit of the register it writes. -/
theorem getLsbD_half_place (c : Config) (high : Bool) (lo hi : Nat) (h : holdsBits c high lo hi) (v : Word) (i : Nat)
    (h1 : lo ≤ i) (h2 : i < hi) :
    ((if high then Half.high else plainHalf c).place (v &&& c.xmask)).getLsbD i = v.getLsbD (i - lo) := by
  rcases h with ⟨a, rfl, rfl, rfl⟩ | ⟨a, rfl, rfl, rfl⟩ | ⟨a, rfl, rfl, rfl⟩
  all_goals simp only [plainHalf, a, Half.place, Config.xmask, if_true, Bool.false_eq_true, if_false]
  · rw [BitVec.getLsbD_and]
    simp [getLsbD_all64 i h2]
  · rw [BitVec.getLsbD_and, BitVec.getLsbD_and]
    simp [getLsbD_low32 i (by omega), h2]
  · have h3 : ¬ i < 32 := by omega
    have h4 : i - 32 < 32 := by omega
    rw [BitVec.getLsbD_shiftLeft, BitVec.getLsbD_and]
    simp [getLsbD_low32 (i - 32) (by omega), h2, h3, h4]

/-- A read of the part returns the bits of the register that it holds, from bit 0 on. -/
theorem getLsbD_half_get (c : Config) (high : Bool) (lo hi : Nat) (h : holdsBits c high lo hi) (r : BitVec 64) (i : Nat)
    (hi64 : i < 64) :
    ((if high then Half.high else plainHalf c).get r).getLsbD i = (decide (lo + i < hi) && r.getLsbD (lo + i)) := by
  rcases h with ⟨a, rfl, rfl, rfl⟩ | ⟨a, rfl, rfl, rfl⟩ | ⟨a, rfl, rfl, rfl⟩
  all_goals simp only [plainHalf, a, Half.get, if_true, Bool.false_eq_true, if_false]
  · simp [hi64]
  · rw [BitVec.getLsbD_and]
    simp [getLsbD_low32 i hi64, Bool.and_comm]
  · rw [BitVec.getLsbD_ushiftRight]
    by_cases e : 32 + i < 64
    · simp [e]
    · simp only [e, decide_false, Bool.false_and]
      exact BitVec.getLsbD_of_ge _ _ (by omega)

/-- A write of the part gives the bits of `w` that it holds the bits of the value, and changes no other bit. -/
theorem getLsbD_half_write_value (c : Config) (high : Bool) (lo hi : Nat) (h : holdsBits c high lo hi) (w old : BitVec 64)
    (v : Word) (i : Nat) (hi64 : i < 64) :
    ((if high then Half.high else plainHalf c).write w old (v &&& c.xmask)).getLsbD i =
      if lo ≤ i ∧ i < hi ∧ w.getLsbD i = true then v.getLsbD (i - lo) else old.getLsbD i := by
  rw [getLsbD_half_write, getLsbD_half_mask c high lo hi h i hi64]
  by_cases a : lo ≤ i ∧ i < hi
  · rw [getLsbD_half_place c high lo hi h v i a.1 a.2]
    simp [a]
  · rw [if_neg (by simp only [Bool.and_eq_true, decide_eq_true_eq]; tauto), if_neg (by tauto)]

/-! ### The registers of an interrupt file -/

/-- An array register that exists is the part of the word of 64 identities that begins at identity 32j (R48). -/
theorem arrayPart_holds (c : Config) (j : Nat) (hj : 32 * j < c.numIds) (he : c.xlen = .rv64 → j % 2 = 0) :
    ∃ high lo hi, holdsBits c high lo hi ∧
      arrayPart c j = some (j / 2, if high then Half.high else plainHalf c) ∧ 64 * (j / 2) + lo = 32 * j := by
  unfold arrayPart
  rw [if_neg (by omega)]
  cases hx : c.xlen
  · by_cases e : j % 2 = 0
    · exact ⟨false, 0, 32, by simp [holdsBits, hx], by simp [plainHalf, hx, e], by omega⟩
    · exact ⟨true, 32, 64, by simp [holdsBits, hx], by simp [e], by omega⟩
  · have := he hx
    exact ⟨false, 0, 64, by simp [holdsBits, hx], by simp [plainHalf, hx, this], by omega⟩

/-- An array register that is a part of a word exists (R48). -/
theorem arrayPart_exists (c : Config) (j : Nat) (p : Nat × Half) (h : arrayPart c j = some p) :
    32 * j < c.numIds ∧ (c.xlen = .rv64 → j % 2 = 0) := by
  unfold arrayPart at h
  split at h
  · cases h
  · next hn =>
    refine ⟨by omega, fun hx => ?_⟩
    by_contra e
    simp [hx, e] at h

/-- The select values of the array registers of pending bits, and no others, select one (R48). -/
theorem fileReg_eip (c : Config) (sel k : Nat) (h : Half) (hf : fileReg c sel = some (.eip k h)) :
    ∃ j, sel = 0x80 + j ∧ j < 64 ∧ arrayPart c j = some (k, h) := by
  unfold fileReg at hf
  split at hf
  · cases hf
  · split at hf
    · cases hf
    · split at hf
      · next hs =>
        cases e : arrayPart c (sel - 0x80) with
        | none => rw [e] at hf; cases hf
        | some p =>
          rw [e] at hf
          simp only [Option.map_some, Option.some.injEq, FileReg.eip.injEq] at hf
          obtain ⟨rfl, rfl⟩ := hf
          exact ⟨sel - 0x80, by omega, by omega, e⟩
      · split at hf
        · cases e : arrayPart c (sel - 0xC0) with
          | none => rw [e] at hf; cases hf
          | some p => rw [e] at hf; cases hf
        · cases hf

theorem fileReg_of_eip (c : Config) (j : Nat) (hj : j < 64) :
    fileReg c (0x80 + j) = (arrayPart c j).map (fun p => .eip p.1 p.2) := by
  unfold fileReg
  rw [if_neg (by omega), if_neg (by omega), if_pos (by omega), Nat.add_sub_cancel_left]

theorem fileReg_of_eie (c : Config) (j : Nat) (hj : j < 64) :
    fileReg c (0xC0 + j) = (arrayPart c j).map (fun p => .eie p.1 p.2) := by
  unfold fileReg
  rw [if_neg (by omega), if_neg (by omega), if_neg (by omega), if_pos (by omega), Nat.add_sub_cancel_left]

theorem arrayPart_absent (c : Config) (j : Nat) (h : c.numIds ≤ 32 * j ∨ (c.xlen = .rv64 ∧ j % 2 = 1)) :
    arrayPart c j = none := by
  unfold arrayPart
  rcases h with h | ⟨h, e⟩
  · rw [if_pos h]
  · simp [h, e]

/-- The select values of 0x70-0xFF that name no register (R48). -/
theorem fileReg_absent (c : Config) (sel : Nat) (h1 : sel ≠ 0x70) (h2 : sel ≠ 0x72)
    (h : ∀ j, j ≤ 63 → sel = 0x80 + j ∨ sel = 0xC0 + j → c.numIds ≤ 32 * j ∨ (c.xlen = .rv64 ∧ j % 2 = 1)) :
    fileReg c sel = none := by
  unfold fileReg
  rw [if_neg h1, if_neg h2]
  split
  · rw [arrayPart_absent c _ (h (sel - 0x80) (by omega) (.inl (by omega)))]
    rfl
  · split
    · rw [arrayPart_absent c _ (h (sel - 0xC0) (by omega) (.inr (by omega)))]
      rfl
    · rfl

/-! ### Implemented identities -/

theorem numIds_of_wf (c : Config) (h : c.wf = true) : 64 ≤ c.numIds ∧ c.numIds ≤ 2048 ∧ c.numIds % 64 = 0 := by
  simp only [Config.wf, Config.numIdsOk, Bool.and_eq_true, decide_eq_true_eq, beq_iff_eq] at h
  omega

/-- The implemented identities of a word are those from 1 to NUM_IDS - 1 (R47, R130). -/
theorem getLsbD_idMask (c : Config) (h : c.wf = true) (k i : Nat) (hi : i < 64) :
    (idMask c k).getLsbD i = decide (1 ≤ 64 * k + i ∧ 64 * k + i < c.numIds) := by
  have hn := numIds_of_wf c h
  unfold idMask
  by_cases hk : 64 * k < c.numIds
  · rw [if_pos hk]
    have h2 : 64 * k + i < c.numIds := by omega
    simp only [h2, and_true]
    split
    · next e =>
      subst e
      simp only [Nat.mul_zero, Nat.zero_add]
      clear hn h hk h2
      interval_cases i <;> decide
    · have : 1 ≤ 64 * k + i := by omega
      simp only [this, decide_true]
      exact getLsbD_all64 i hi
  · have h2 : ¬ 64 * k + i < c.numIds := by omega
    simp [hk, h2]

/-- The number of threshold bits is the ceiling of the logarithm of NUM_IDS (R129). -/
theorem ceilLog2_eq_clog (n : Nat) (h : 2 ≤ n) : ceilLog2 n = Nat.clog 2 n := by
  unfold ceilLog2
  have h1 : n - 1 ≠ 0 := by omega
  have l1 := Nat.log2_self_le h1
  have l2 := Nat.lt_log2_self (n := n - 1)
  apply Nat.le_antisymm
  · have : (n - 1).log2 < Nat.clog 2 n := by
      rw [Nat.lt_clog_iff_pow_lt (by omega)]
      omega
    omega
  · rw [Nat.clog_le_iff_le_pow (by omega)]
    omega

end Sys2Proof.Machine
end

