-- ==== Sys2Proof/Laws/PerInstr.lean ====
section
/-! SUPPORT. Statements for all instructions, one lemma per constructor. -/

namespace Sys2Proof.Laws

/-- Every instruction is well formed and its word carries the SYSTEM opcode (30_encoding.md R80, R81). -/
def SystemOpcode.Statement (i : Instr) : Prop := i.wellFormed = true ∧ fieldOpcode (encode i) = 0x73

theorem SystemOpcode.csrrw (rd : BitVec 5) (csr : BitVec 12) (rs1 : BitVec 5) :
    SystemOpcode.Statement (.csrrw rd csr rs1) := ⟨rfl, fieldOpcode_encodeCsr _ _ _ _⟩

theorem SystemOpcode.csrrs (rd : BitVec 5) (csr : BitVec 12) (rs1 : BitVec 5) :
    SystemOpcode.Statement (.csrrs rd csr rs1) := ⟨rfl, fieldOpcode_encodeCsr _ _ _ _⟩

theorem SystemOpcode.csrrc (rd : BitVec 5) (csr : BitVec 12) (rs1 : BitVec 5) :
    SystemOpcode.Statement (.csrrc rd csr rs1) := ⟨rfl, fieldOpcode_encodeCsr _ _ _ _⟩

theorem SystemOpcode.csrrwi (rd : BitVec 5) (csr : BitVec 12) (uimm : BitVec 5) :
    SystemOpcode.Statement (.csrrwi rd csr uimm) := ⟨rfl, fieldOpcode_encodeCsr _ _ _ _⟩

theorem SystemOpcode.csrrsi (rd : BitVec 5) (csr : BitVec 12) (uimm : BitVec 5) :
    SystemOpcode.Statement (.csrrsi rd csr uimm) := ⟨rfl, fieldOpcode_encodeCsr _ _ _ _⟩

theorem SystemOpcode.csrrci (rd : BitVec 5) (csr : BitVec 12) (uimm : BitVec 5) :
    SystemOpcode.Statement (.csrrci rd csr uimm) := ⟨rfl, fieldOpcode_encodeCsr _ _ _ _⟩

theorem SystemOpcode.sret : SystemOpcode.Statement .sret := ⟨rfl, by decide⟩

end Sys2Proof.Laws
end

