-- ==== Sys2Proof/Laws/Safety.lean ====
section
/-! SUPPORT. What the predicates of Safety.lean say, one lemma each. -/

namespace Sys2Proof.Machine

/-- Only bits of a mask, bit by bit. -/
theorem within_iff (a m : BitVec 64) :
    (a &&& ~~~m == 0) = true ↔ ∀ i, i < 64 → a.getLsbD i = true → m.getLsbD i = true := by
  rw [beq_iff_eq]
  constructor
  · intro h i hi ha
    have : (a &&& ~~~m).getLsbD i = false := by rw [h]; exact BitVec.getLsbD_zero
    rw [BitVec.getLsbD_and, BitVec.getLsbD_not, ha] at this
    simpa [hi] using this
  · intro h
    refine BitVec.eq_of_getLsbD_eq fun i hi => ?_
    have := h i hi
    rw [BitVec.getLsbD_and, BitVec.getLsbD_not]
    cases ha : a.getLsbD i <;> simp_all

theorem legal_iff (s : State) :
    s.legal = true ↔ s.cfg.wf = true ∧ registersLegal s = true ∧ vsiselectLegal s = true ∧ hidelegLegal s = true ∧
      hvienLegal s = true ∧ hvipLegal s = true ∧ hvictlLegal s = true ∧ hviprioLegal s = true ∧ vsieOwnLegal s = true ∧
      vscauseLegal s = true ∧ filesLegal s = true ∧ Memory.wf s.mem = true := by
  unfold State.legal
  simp only [Bool.and_eq_true]
  tauto

theorem vector_all_iff {α : Type} {n : Nat} (v : Vector α n) (p : α → Bool) :
    v.toList.all p = true ↔ ∀ i (h : i < n), p v[i] = true := by
  rw [List.all_eq_true]
  constructor
  · intro h i hi
    exact h _ (Vector.mem_toList_iff.mpr (Vector.mem_iff_getElem.mpr ⟨i, hi, rfl⟩))
  · intro h x hx
    obtain ⟨i, hi, rfl⟩ := Vector.mem_iff_getElem.mp (Vector.mem_toList_iff.mp hx)
    exact h i hi

theorem registersLegal_iff (s : State) :
    registersLegal s = true ↔ (∀ i (h : i < 32), fits s.cfg s.x[i] = true) ∧ s.x[0] = 0 ∧ fits s.cfg s.pc = true ∧
      fits s.cfg s.vsepc = true ∧ fits s.cfg s.vstvec = true ∧ fits s.cfg s.vstval = true := by
  unfold registersLegal
  simp only [Bool.and_eq_true, beq_iff_eq, vector_all_iff]
  tauto

theorem filesLegal_iff (s : State) : filesLegal s = true ↔ ∀ g (h : g < 64), fileLegal s.cfg s.files[g] = true := by
  unfold filesLegal
  exact vector_all_iff _ _

theorem fileLegal_iff (c : Config) (f : IntrFile) :
    fileLegal c f = true ↔
      (∀ k, k < 32 → (arrayWord f.eip k &&& ~~~(idMask c k) == 0) = true ∧
        (arrayWord f.eie k &&& ~~~(idMask c k) == 0) = true) ∧
      (f.eithreshold &&& ~~~(lowMask (ceilLog2 c.numIds)) == 0) = true := by
  unfold fileLegal fileWordLegal
  simp only [Bool.and_eq_true, List.all_eq_true, List.mem_range]

end Sys2Proof.Machine
end

