-- ==== Sys2Proof/Laws/Step.lean ====
section
/-! SUPPORT. What an instruction, a turn of the hart and a step can do, said once. -/

namespace Sys2Proof.Machine

/-! ### Instructions -/

/-- A CSR instruction is the common order of R100 with its own word, number, destination and write attempt; where it does
not read, its destination is x0 and it writes (R101-R107). -/
theorem exec_csr (i : Instr) (n : BitVec 12) (s : State) (h : csrField i = some n) :
    ∃ reads new, exec i s = csrExec (encode i) n reads (writeAttempt i) new (destination i) s ∧
      (reads = false → destination i = 0 ∧ writeAttempt i = true) := by
  cases i <;> simp only [csrField, Option.some.injEq, reduceCtorEq] at h
  all_goals subst h
  case csrrw rd n rs1 => exact ⟨_, _, rfl, fun e => ⟨by simpa [destination] using e, rfl⟩⟩
  case csrrwi rd n u => exact ⟨_, _, rfl, fun e => ⟨by simpa [destination] using e, rfl⟩⟩
  all_goals exact ⟨_, _, rfl, fun e => by cases e⟩

/-- A CSR instruction whose check raises takes the exception and changes nothing else (R100, R171). -/
theorem exec_csr_raises (i : Instr) (n : BitVec 12) (s : State) (k : ExcKind) (h : csrField i = some n)
    (hk : check s n (writeAttempt i) = .raises k) : exec i s = .next (s.setOutcome (some ⟨k, s.pc, encode i⟩)) := by
  obtain ⟨r, f, he, -⟩ := exec_csr i n s h
  rw [he, csrExec_raises _ _ _ _ _ _ _ _ hk, raise_eq]

/-- A CSR instruction whose check refuses is refused with the same reason. -/
theorem exec_csr_refuses (i : Instr) (n : BitVec 12) (s : State) (e : Refusal) (h : csrField i = some n)
    (hk : check s n (writeAttempt i) = .refuses e) : exec i s = .refused e := by
  obtain ⟨r, f, he, -⟩ := exec_csr i n s h
  rw [he, csrExec_refuses _ _ _ _ _ _ _ _ hk]

/-- What the steps 4 to 7 of a CSR instruction leave: a write or none, on the state the read leaves, then `x[rd]` and
the pc. -/
theorem csrComplete_eq (c : Csr) (r w : Bool) (f : Word → Word) (rd : BitVec 5) (s : State)
    (h : r = false → rd = 0 ∧ w = true) :
    ∃ d v pc x, ((w = false ∧ v = s.setDraws d) ∨ (w = true ∧ ∃ u, v = csrStore c (u &&& s.cfg.xmask) (s.setDraws d))) ∧
      csrComplete c r w f rd s = (v.setX x).setPc pc ∧
      (∀ q, q ≠ rd → readReg q (csrComplete c r w f rd s) = readReg q v) := by
  have hx : ∀ d : Nat, (s.setDraws d).cfg = s.cfg := fun _ => rfl
  have key : ∀ (v : State) (u : Word), ∃ pc x, advance (writeReg rd u v) = (v.setX x).setPc pc ∧
      ∀ q, q ≠ rd → readReg q (advance (writeReg rd u v)) = readReg q v := by
    intro v u
    obtain ⟨x, hx⟩ := writeReg_eq rd u v
    refine ⟨((v.pc + 4) &&& v.cfg.xmask), x, ?_, ?_⟩
    · rw [advance_eq, hx]; rfl
    · intro q hq
      rw [← readReg_writeReg_other rd q u v hq]
      rfl
  obtain ⟨d, hd⟩ : ∃ d, (csrRead c s).2 = s.setDraws d := by
    rcases csrRead_state c s with h | h
    · exact ⟨s.draws, by rw [h]; rfl⟩
    · exact ⟨_, h⟩
  unfold csrComplete
  split
  · split
    · next hw =>
      obtain ⟨pc, x, h1, h2⟩ := key (csrWrite c (f (csrRead c s).1) (csrRead c s).2) (csrRead c s).1
      exact ⟨d, _, pc, x, .inr ⟨hw, f (csrRead c s).1, by rw [hd]; rfl⟩, h1, h2⟩
    · next hw =>
      obtain ⟨pc, x, h1, h2⟩ := key (csrRead c s).2 (csrRead c s).1
      exact ⟨d, _, pc, x, .inl ⟨by simpa using hw, hd⟩, h1, h2⟩
  · next hr =>
    obtain ⟨h0, hw⟩ := h (by simpa using hr)
    refine ⟨s.draws, csrWrite c (f 0) s, _, (csrWrite c (f 0) s).x, .inr ⟨hw, f 0, rfl⟩, rfl, fun q _ => rfl⟩

/-- A CSR instruction that gives a next state raises an exception, or reaches a register and leaves what
`csrComplete_eq` says. -/
theorem exec_csr_next (i : Instr) (n : BitVec 12) (s t : State) (h : csrField i = some n) (ht : exec i s = .next t) :
    (∃ k, check s n (writeAttempt i) = .raises k ∧ t = s.setOutcome (some ⟨k, s.pc, encode i⟩)) ∨
      ∃ c, check s n (writeAttempt i) = .pass c ∧ ∃ d v pc x,
        ((writeAttempt i = false ∧ v = s.setDraws d) ∨
          (writeAttempt i = true ∧ ∃ u, v = csrStore c (u &&& s.cfg.xmask) (s.setDraws d))) ∧
        t = (v.setX x).setPc pc ∧ (∀ q, q ≠ destination i → readReg q t = readReg q v) := by
  obtain ⟨r, f, he, hr⟩ := exec_csr i n s h
  rw [he] at ht
  rcases csrExec_next _ _ _ _ _ _ _ _ ht with ⟨k, hk, rfl⟩ | ⟨c, hc, rfl⟩
  · exact .inl ⟨k, hk, rfl⟩
  · obtain ⟨d, v, pc, x, h1, h2, h3⟩ := csrComplete_eq c r (writeAttempt i) f (destination i) s hr
    exact .inr ⟨c, hc, d, v, pc, x, h1, h2, h3⟩

/-- A pure read that passes the check: rd takes the value read and the pc advances (R100). -/
theorem exec_csr_read (i : Instr) (n : BitVec 12) (s : State) (c : Csr) (h : csrField i = some n)
    (hw : writeAttempt i = false) (hc : check s n false = .pass c) :
    exec i s = .next (advance (writeReg (destination i) (csrRead c s).1 (csrRead c s).2)) := by
  obtain ⟨r, f, he, hr⟩ := exec_csr i n s h
  rw [he, hw, csrExec_pass _ _ _ _ _ _ _ _ hc]
  cases r with
  | true => rfl
  | false => exact absurd (hr rfl).2 (by simp [hw])

/-- A register reached in HS-mode or M-mode by its own number or in VS-mode by its supervisor number, its own clauses of
R120 raising nothing, passes the check (R120, R121, R143). -/
theorem check_reachesBy (s : State) (c : Csr) (sup n : BitVec 12) (w : Bool) (hs : supNumber c = some sup)
    (hr : reachesBy s (csrNumber c) sup n) (hp : csrPresent s.cfg c = true) (ho : c = .vstopi → w = false)
    (hf : fileException s c = none)
    (hv : s.mode = .VS → s.hvictl.vti = true →
      isIntrReg c = false ∧ (w = true → inVtiSet c = false ∧ vtiNamed s.cfg sup c = false)) :
    check s n w = .pass c := by
  rcases hr with ⟨hm, rfl⟩ | ⟨hm, rfl⟩
  · have hm' : s.mode = .HS ∨ s.mode = .M := by simpa [hypervisorMode] using hm
    refine check_of_clauses s _ w c (by rw [csrExists_csrNumber]; exact hp) (fun h => ?_) ?_
      (by simp only [csrReached, csrNamed_csrNumber]) ?_
    · rw [csrReadOnly_csrNumber]
      exact decide_eq_false fun e => by simp [ho e] at h
    · rw [csrLevel_csrNumber]
      rcases hm' with h | h <;> rw [h] <;> decide
    · unfold registerException vtiTraps
      rcases hm' with h | h <;> simp [hf, h]
  · refine check_of_clauses s _ w c (by rw [csrExists_supNumber _ _ _ hs]; exact hp) (fun h => ?_) ?_
      (by simp [csrReached, csrNamed_supNumber _ _ hs, hm, Mode.virt]) ?_
    · rw [csrReadOnly_supNumber _ _ hs]
      exact decide_eq_false fun e => by simp [ho e] at h
    · rw [csrLevel_supNumber _ _ hs, hm]
      decide
    · unfold registerException vtiTraps
      simp only [hf, hm, decide_true, Bool.true_and]
      cases ht : s.hvictl.vti with
      | false => rfl
      | true =>
        obtain ⟨h1, h2⟩ := hv hm ht
        cases w with
        | false => simp [h1]
        | true => simp [h1, h2]

/-- A write attempt that passes the check: the register is written on the state the read leaves, or, where the
instruction does not read, on the state there is, and then rd is x0 (R100-R106). -/
theorem exec_csr_write (i : Instr) (n : BitVec 12) (s : State) (c : Csr) (h : csrField i = some n)
    (hw : writeAttempt i = true) (hc : check s n true = .pass c) :
    ∃ v, exec i s = .next (advance (writeReg (destination i) (csrRead c s).1 (csrWrite c v (csrRead c s).2))) ∨
      (destination i = 0 ∧ exec i s = .next (advance (csrWrite c v s))) := by
  obtain ⟨r, f, he, hr⟩ := exec_csr i n s h
  rw [he, hw, csrExec_pass _ _ _ _ _ _ _ _ hc]
  cases r with
  | true => exact ⟨f (csrRead c s).1, .inl rfl⟩
  | false => exact ⟨f 0, .inr ⟨(hr rfl).1, rfl⟩⟩

/-- A register reached as in `check_reachesBy`, the clauses on the interrupt file raising an exception, raises it
(R120, R127, R132). -/
theorem check_reachesBy_raises (s : State) (c : Csr) (k : ExcKind) (sup n : BitVec 12) (w : Bool)
    (hs : supNumber c = some sup) (hr : reachesBy s (csrNumber c) sup n) (hp : csrPresent s.cfg c = true)
    (ho : c = .vstopi → w = false) (hf : fileException s c = some k) : check s n w = .raises k := by
  have hx : ∀ named, registerException s c named w = some k := fun named => by
    unfold registerException
    rw [hf]
  rcases hr with ⟨hm, rfl⟩ | ⟨hm, rfl⟩
  · have hm' : s.mode = .HS ∨ s.mode = .M := by simpa [hypervisorMode] using hm
    refine check_of_register s _ w c k (by rw [csrExists_csrNumber]; exact hp) (fun h => ?_) ?_
      (by simp only [csrReached, csrNamed_csrNumber]) (hx _)
    · rw [csrReadOnly_csrNumber]
      exact decide_eq_false fun e => by simp [ho e] at h
    · rw [csrLevel_csrNumber]
      rcases hm' with h | h <;> rw [h] <;> decide
  · refine check_of_register s _ w c k (by rw [csrExists_supNumber _ _ _ hs]; exact hp) (fun h => ?_) ?_
      (by simp [csrReached, csrNamed_supNumber _ _ hs, hm, Mode.virt]) (hx _)
    · rw [csrReadOnly_supNumber _ _ hs]
      exact decide_eq_false fun e => by simp [ho e] at h
    · rw [csrLevel_supNumber _ _ hs, hm]
      decide

/-- sret that gives a next state raises an exception or returns (R176). -/
theorem execSret_next (s t : State) (h : execSret s = .next t) :
    (∃ k, t = s.setOutcome (some ⟨k, s.pc, encode .sret⟩)) ∨
      (s.mode = .VS ∧ s.outside.hstatusVTSR = false ∧ t = returnFromVS s) ∨
      (s.mode.virt = false ∧ t = returnFromHS s) := by
  unfold execSret at h
  cases hm : s.mode <;> rw [hm] at h <;> simp only [] at h
  case VS =>
    split at h
    · cases h; exact .inl ⟨_, rfl⟩
    · next hv => cases h; exact .inr (.inl ⟨rfl, by simpa using hv, rfl⟩)
  case VU => cases h; exact .inl ⟨_, rfl⟩
  case U => cases h; exact .inl ⟨_, rfl⟩
  case HS => cases h; exact .inr (.inr ⟨rfl, rfl⟩)
  case M => cases h; exact .inr (.inr ⟨rfl, rfl⟩)

/-! ### Fetch -/

theorem fetch_word (s : State) (w : InstrWord) (ha : s.pc &&& 3 = 0) (hw : Memory.readWord s.mem s.pc.toNat = some w) :
    fetch s = .word w := by
  unfold fetch
  rw [if_neg (not_not_intro ha), hw]

theorem instrTurn_decode (s : State) (w : InstrWord) (i : Instr) (hf : fetch s = .word w) (hi : decode w = .ok i) :
    instrTurn s = exec i s := by
  unfold instrTurn
  rw [hf]
  simp only [hi]

/-! ### A step -/

/-- What a turn of the hart can do: take the trap of R165, execute an instruction, or raise the exception of a reserved
word (R167, R86). -/
theorem hartTurn_next (b : Bool) (s t : State) (h : hartTurn b s = .next t) :
    s.outcome = none ∧
      ((interruptTaken s = true ∧ t = takeInterrupt s) ∨
        (∃ i, exec i s = .next t) ∨
        (∃ w, t = s.setOutcome (some ⟨.illegalInstruction, s.pc, w⟩))) := by
  unfold hartTurn at h
  split at h
  · cases h
  · next ho =>
    refine ⟨ho, ?_⟩
    split at h
    · next hi => cases h; exact .inl ⟨hi.2, rfl⟩
    · unfold instrTurn at h
      split at h
      · cases h
      · next w _ =>
        split at h
        · next i _ => exact .inr (.inl ⟨i, h⟩)
        · next e _ =>
          unfold undecoded at h
          cases e <;> first | cases h; done | (cases h; exact .inr (.inr ⟨w, rfl⟩))

/-- What a step can do: the turn of another agent, or a turn of the hart on the state with the agenda moved on (R72). -/
theorem step_next (s t : State) (h : step s = .next t) :
    ∃ a, (∃ e, s.agenda = .env e :: a ∧ applyEvent e (s.setAgenda a) = .next t) ∨
      (hartMoves s = true ∧ ∃ b, hartTurn b (s.setAgenda a) = .next t) := by
  unfold step at h
  cases ha : s.agenda with
  | nil =>
    rw [ha] at h
    refine ⟨[], .inr ⟨by simp [hartMoves, ha], false, ?_⟩⟩
    rw [← ha]
    exact h
  | cons u a =>
    rw [ha] at h
    cases u with
    | hart => exact ⟨a, .inr ⟨by simp [hartMoves, ha], false, h⟩⟩
    | delay => exact ⟨a, .inr ⟨by simp [hartMoves, ha], true, h⟩⟩
    | env e => exact ⟨a, .inl ⟨e, rfl, h⟩⟩

/-- A turn of the hart is a step of it on the state with the agenda moved on. -/
theorem step_hartMoves (s t : State) (hm : hartMoves s = true) (h : step s = .next t) :
    ∃ a b, hartTurn b (s.setAgenda a) = .next t := by
  obtain ⟨a, ⟨e, he, -⟩ | ⟨-, b, hb⟩⟩ := step_next s t h
  · simp [hartMoves, he] at hm
  · exact ⟨a, b, hb⟩

end Sys2Proof.Machine
end

