-- ==== Sys2Proof/Tests/Slice0.lean ====
section
/-! SUPPORT. Tests: ill-formed configurations, words written out from the encoding, single steps with the results that
95_test_vectors.md gives, and for each obligation with hypotheses a state and operands that meet them. -/

namespace Sys2Proof.Tests

set_option Elab.async false

open Sys2Proof.Machine

/-! ### Helpers -/

/-- The machine after reset of a configuration, in a mode. -/
def start (c : Config) (m : Mode) : State := (State.resetOf c).setMode m

/-- A value of a next state; none for a fault or a refusal. -/
def after {α : Type} (o : Host.Outcome State Fault Refusal) (f : State → α) : Option α :=
  match o with
  | .next s => some (f s)
  | _ => none

/-- Whether an outcome is a next state. -/
def goes (o : Host.Outcome State Fault Refusal) : Bool :=
  match o with
  | .next _ => true
  | _ => false

theorem next_of_goes (o : Host.Outcome State Fault Refusal) (h : goes o = true) : ∃ t, o = .next t := by
  cases o with
  | next t => exact ⟨t, rfl⟩
  | fault f => cases h
  | refused r => cases h

/-- The reason of a refusal. -/
def refusal (o : Host.Outcome State Fault Refusal) : Option Refusal :=
  match o with
  | .refused r => some r
  | _ => none

/-- The step that runs one word. -/
def run (s : State) (w : Nat) : Host.Outcome State Fault Refusal := step (s.withFetchWord 32 w)

/-- An interrupt file that delivers, with one word of pending and of enable bits. -/
def oneWord (eip eie : BitVec 64) : IntrFile where
  eidelivery := true
  eithreshold := 0
  eip := (Vector.replicate 32 0).set 0 eip
  eie := (Vector.replicate 32 0).set 0 eie

/-- hvictl from a value of it. -/
def hvictlIs (v : Word) (s : State) : State := s.setHvictl (hvictlOf s.cfg v)

/-! ### Ill-formed configurations are refused -/

theorem test_configs_wf : Config.cfgA.wf = true ∧ Config.cfgB.wf = true ∧ Config.cfgC.wf = true := by decide +kernel

/-- Also the hypothesis of DecodeEncodeRoundTrip; test_decode_csrrw and its like meet that of EncodeDecodeRoundTrip. -/
theorem test_wf_instr : Instr.wellFormed (.csrrw 31 0xFFF 31) = true := rfl

theorem test_wf_geilen : Config.geilenOk { Config.cfgA with hasImsic := false } = false := by decide

theorem test_wf_geilen_bits : Config.geilenOk { Config.cfgA with geilen := 64 } = false := by decide

theorem test_wf_numIds : Config.numIdsOk { Config.cfgA with numIds := 100 } = false := by decide

theorem test_wf_hviprio : Config.hviprioOk { Config.cfgA with hviprioBits := 5 } = false := by decide

theorem test_wf_hviprio_impl : Config.hviprioOk { Config.cfgA with hviprioImpl := 0x10 } = false := by decide

theorem test_wf_iid : Config.iidOk { Config.cfgA with iidBits := 5 } = false := by decide

theorem test_wf_hvien : Config.hvienOk { Config.cfgA with hvienRO1 := 0x2000 } = false := by decide

theorem test_wf_hideleg : Config.hidelegOk { Config.cfgA with hidelegW := 0x445 } = false := by decide

theorem test_wf_vsiselect : Config.vsiselectOk { Config.cfgA with vsiselectBits := 8 } = false := by decide

theorem test_wf_vscause : Config.vscauseOk { Config.cfgB with vscauseCodeBits := 11 } = false := by decide

theorem test_wf_rank : Config.rankOk { Config.cfgA with defaultRank := [9, 1, 5] } = false := by decide

theorem test_wf_fileAddr : Config.fileAddrOk { Config.cfgA with fileAddr := [0x1000, 0x2000, 0x3004] } = false := by decide

theorem test_wf_resetPc : Config.resetPcOk { Config.cfgA with resetPc := 2 } = false := by decide

theorem test_wf_whole : Config.wf { Config.cfgA with numIds := 100 } = false := by decide +kernel

/-! ### Words written out bit by bit (30_encoding.md R81, R83): csr, rs1 or uimm, funct3, rd, opcode -/

theorem test_decode_csrrw : decode 0b011000001001_00101_001_00110_1110011 = .ok (.csrrw 6 0x609 5) := by decide

theorem test_decode_csrrs : decode 0b111010110000_00000_010_00111_1110011 = .ok (.csrrs 7 0xEB0 0) := by decide

theorem test_decode_csrrc : decode 0b011001000101_00101_011_00110_1110011 = .ok (.csrrc 6 0x645 5) := by decide

theorem test_decode_csrrwi : decode 0b001001010000_10000_101_00000_1110011 = .ok (.csrrwi 0 0x250 16) := by decide

theorem test_decode_csrrsi : decode 0b000100000000_00010_110_00000_1110011 = .ok (.csrrsi 0 0x100 2) := by decide

theorem test_decode_csrrci : decode 0b000101000100_00010_111_00000_1110011 = .ok (.csrrci 0 0x144 2) := by decide

theorem test_decode_sret : decode 0b0001000_00010_00000_000_00000_1110011 = .ok .sret := by decide

/-- V19; mret; a load; a 16-bit word; the 48-bit pattern; three bytes. -/
theorem test_decode_rejects : decode 0x60904073 = .error .reservedFunct3 ∧ decode 0x30200073 = .error .otherPrivileged ∧
    decode 0x00000003 = .error .otherOpcode ∧ decode 0x60929071 = .error .not32Bit ∧
    decode 0x0000001F = .error .not32Bit ∧ decodeBytes [0x73, 0x90, 0x92] = .error .truncated := by decide

/-- Little-endian bytes (R80). -/
theorem test_decode_bytes : decodeBytes [0x73, 0x93, 0x92, 0x60, 0xAA] = .ok (.csrrw 6 0x609 5, [0xAA]) := by decide

theorem test_table_word : decodeTableWord 32 0x10200073 = some .sret := by decide

theorem test_fetch_reset : goes (run State.reset 0x10200073) = true := by decide +kernel

/-! ### Single steps (95_test_vectors.md) -/

/-- V3: csrrw x5, hvictl, x5 swaps. -/
theorem test_csrrw_swap :
    after (run (hvictlIs 0x40050309 (writeReg 5 0x00090000 (start Config.cfgA .HS))) 0x609292F3)
      (fun t => (readReg 5 t, hvictlValue t.hvictl, t.pc)) = some (0x40050309, 0x00090000, 4) := by decide +kernel

/-- F4: csrrw x10, stopei, x0 in VS-mode claims identity 5. -/
theorem test_csrrw_claim :
    after (run ((setFileAt (start Config.cfgA .VS) 1 (oneWord 0x2A0 0x220)).setVgein 1) 0x15C01573)
      (fun t => (readReg 10 t, arrayWord (currentFile t).eip 0)) = some (0x00050005, 0x280) := by decide +kernel

/-- F8: csrrs x10, stopei, x0 in VS-mode returns topei and claims nothing. -/
theorem test_csrrs_stopei_read :
    after (run ((setFileAt (start Config.cfgA .VS) 1 (oneWord 0x2A0 0x220)).setVgein 1) 0x15C02573)
      (fun t => (readReg 10 t, arrayWord (currentFile t).eip 0)) = some (0x00050005, 0x2A0) := by decide +kernel

/-- F2, F10: the file signals identity 5 in vsip while eidelivery is one, and not while it is zero. -/
theorem test_file_signal :
    (vsip (setFileAt (((start Config.cfgA .VS).setHideleg 0x400).setVgein 1) 1 (oneWord 0x220 0x220))).getLsbD 9 = true ∧
      vsip (setFileAt (((start Config.cfgA .VS).setHideleg 0x400).setVgein 1) 1
        { oneWord 0x220 0x220 with eidelivery := false }) = 0 := by decide +kernel

/-- State S1 of 95_test_vectors.md section 2.3. -/
def stateS1 : State :=
  ((((((((start Config.cfgA .HS).setHideleg 0x4444).setHvien 0xA000).setHvip 0x1A004).setSip 0x14000).setSie
    0x4000).setVsieOwn 0x8000).setHie 0x404)

/-- V40: csrrs x8, vsip, x0. -/
theorem test_csrrs_vsip : after (run stateS1 0x24402473) (readReg 8) = some 0xE002 := by decide +kernel

/-- V6: csrrs x0, vstopi, x5 is a write attempt although x5 holds 0. -/
theorem test_csrrs_readonly :
    after (run stateS1 0xEB02A073) (fun t => (t.outcome.map (fun r => (r.kind, r.instr)), t.pc)) =
      some (some (.illegalInstruction, 0xEB02A073), 0) := by decide +kernel

/-- V9: csrrc x6, hvip, x5. -/
theorem test_csrrc_hvip :
    after (run ((writeReg 5 0x2004 (start Config.cfgA .HS)).setHvip 0x2444) 0x6452B373)
      (fun t => (t.hvip, readReg 6 t)) = some (0x0440, 0x2444) := by decide +kernel

/-- V16: csrrc x0, sip, x5 in VS-mode clears hvip[13]. -/
theorem test_csrrc_sip :
    after (run (((writeReg 5 0x2000 (start Config.cfgA .VS)).setHvip 0x2000).setHvien 0x2000) 0x1442B073)
      (fun t => t.hvip) = some 0 := by decide +kernel

/-- V10: csrrwi x0, vsiselect, 16. -/
theorem test_csrrwi_vsiselect :
    after (run (start Config.cfgA .HS) 0x25085073) (fun t => t.vsiselect) = some 0x10 := by decide +kernel

/-- R14: csrrwi x0, hideleg, 31; of bits 4:0 only bit 2 is writable. -/
theorem test_csrrwi_hideleg :
    after (run (start Config.cfgA .M) 0x603FD073) (fun t => t.hideleg) = some 0x4 := by decide +kernel

/-- R105, R16: csrrsi x9, hvip, 6 sets bit 2; bit 1 is read-only zero. -/
theorem test_csrrsi_hvip :
    after (run ((start Config.cfgA .HS).setHvip 0x40) 0x645364F3) (fun t => (t.hvip, readReg 9 t)) =
      some (0x44, 0x40) := by decide +kernel

/-- V12: csrrsi x10, sip, 0 in VS-mode with VTI = 1. -/
theorem test_csrrsi_vti :
    after (run (hvictlIs 0x40090000 (start Config.cfgA .VS)) 0x14406573) (fun t => t.outcome.map (fun r => r.kind)) =
      some (some .virtualInstruction) := by decide +kernel

/-- V15: csrrci x0, sip, 2 in VS-mode clears VSSIP. -/
theorem test_csrrci_sip :
    after (run (((start Config.cfgA .VS).setHideleg 0x4).setHvip 0x4) 0x14417073) (fun t => t.hvip) = some 0 := by
  decide +kernel

/-- X11: csrrci x10, hvictl, 0 in U-mode (the number is checked as in csrrs). -/
theorem test_csrrci_user :
    after (run (start Config.cfgA .U) 0x60907573) (fun t => t.outcome.map (fun r => r.kind)) =
      some (some .illegalInstruction) := by decide +kernel

/-- The state of Tr1 after the trap. -/
def stateTr1 : State :=
  hvictlIs 0x40050309 ((((start Config.cfgA .VU).setPc 0x80001000).setVstvec 0x80002000))

/-- Tr1: the trap from VU-mode. -/
theorem test_trap_direct :
    after (step stateTr1) (fun t => (t.vsepc, t.vscause, t.mode, t.pc, t.vsSPP)) =
      some (0x80001000, 0x8000000000000005, .VS, 0x80002000, false) := by decide +kernel

/-- Tr2: the trap from VS-mode, vectored. -/
theorem test_trap_vectored :
    after (step (((stateTr1.setMode .VS).setVsSIE true).setVstvec 0x80002001))
      (fun t => (t.pc, t.vsSPP, t.vsSPIE, t.vsSIE)) = some (0x80002014, true, true, false) := by decide +kernel

/-- Tr5: sret after Tr1. -/
theorem test_sret_vs :
    after (run ((stateTr1.setMode .VS).setVsepc 0x80001000) 0x10200073)
      (fun t => (t.pc, t.mode, t.vsSIE, t.vsSPIE, t.vsSPP)) = some (0x80001000, .VU, false, true, false) := by
  decide +kernel

/-- X18: sret in VS-mode with hstatus.VTSR = 1. -/
theorem test_sret_vtsr :
    after (run ((start Config.cfgA .VS).setOutside { Outside.zero with hstatusVTSR := true }) 0x10200073)
      (fun t => (t.outcome.map (fun r => r.kind), t.mode)) = some (some .virtualInstruction, .VS) := by decide +kernel

/-! ### Values of vstopi (95_test_vectors.md section 2.5) -/

/-- A state whose vsip and vsie both read as the low bits say: 2 (software), 0x20 (timer), 0x200 (external). -/
def viewsAre (hv : BitVec 64) (c : Config) : State :=
  (((start c .HS).setHideleg 0x444).setHvip hv).setHie hv

/-- T4, T5, T6. -/
theorem test_vstopi_major :
    vstopi (hvictlIs 0x100 ((viewsAre 0x4 Config.cfgA).setHviprio1 0x700)) = 0x00010007 ∧
      vstopi (hvictlIs 0x100 (viewsAre 0x44 Config.cfgA)) = 0x000100FF ∧
      vstopi (hvictlIs 0x100 ((viewsAre 0x44 Config.cfgA).setHviprio1 0x3000000)) = 0x00050003 := by decide +kernel

/-- T14, T17, T17b. -/
theorem test_vstopi_external :
    vstopi (hvictlIs 0x100 ((viewsAre 0x400 Config.cfgA).setVgein 2)) = 0x000900FF ∧
      vstopi (hvictlIs 0x40090000 (viewsAre 0x4 Config.cfgA)) = 0 ∧
      vstopi (hvictlIs 0x40090100 (viewsAre 0x404 Config.cfgA)) = 0x000900FF := by decide +kernel

/-- T18a, T18b, T20a, T20b, T20c. -/
theorem test_vstopi_hvictl :
    vstopi (hvictlIs 0x400D0100 (viewsAre 0x400 Config.cfgA)) = 0x000D0000 ∧
      vstopi (hvictlIs 0x400D0300 (viewsAre 0x400 Config.cfgA)) = 0x000900FF ∧
      vstopi (hvictlIs 0x40000100 (viewsAre 0 Config.cfgA)) = 0 ∧
      vstopi (hvictlIs 0x40000300 (viewsAre 0 Config.cfgA)) = 0x000000FF ∧
      vstopi (hvictlIs 0x40000000 (viewsAre 0 Config.cfgA)) = 0x00000001 := by decide +kernel

/-- T24: interrupt 40 stands above 9 by default. -/
theorem test_vstopi_default_high :
    vstopi (hvictlIs 0x100 ((((viewsAre 0x4 Config.cfgA).setHvien 0x10000000000).setHvip 0x10000000004).setVsieOwn
      0x10000000000)) = 0x00280000 := by decide +kernel

/-- V32 and V33: the fields of hviprio1 and its halves. -/
theorem test_hviprio_fields :
    (csrWrite .hviprio1 0xFFFFFFFFFFFFFFFF (start { Config.cfgA with hviprioBits := 6 } .HS)).hviprio1 =
        0x3F3F3F003F003F00 ∧
      (csrWrite .hviprio1h 0xFFFFFFFF (csrWrite .hviprio1 0xFFFFFFFF (start Config.cfgB .HS))).hviprio1 =
        0x00003F003F003F00 := by decide +kernel

/-- V43: a write of all ones to vsie in S1. -/
theorem test_vsie_write :
    vsie (csrWrite .vsie 0xFFFFFFFFFFFFFFFF stateS1) = 0xE222 ∧
      (csrWrite .vsie 0xFFFFFFFFFFFFFFFF stateS1).vsieOwn = 0xA000 := by decide +kernel

/-- F7, F9, F15: MSI data out of range, the threshold. -/
theorem test_imsic :
    msiWrite Config.cfgA (oneWord 0x88 0x88) 64 = oneWord 0x88 0x88 ∧
      topei Config.cfgA { oneWord 0x88 0x88 with eithreshold := 3 } = 0 ∧
      topei Config.cfgA { oneWord 0x88 0x88 with eithreshold := 4 } = 0x00030003 ∧
      (currentFile (writeFileReg .eithreshold 0x1FF ((start Config.cfgA .HS).setVgein 1))).eithreshold = 0x3F := by
  decide +kernel

/-! ### States and operands that meet the hypotheses of the obligations, each clause at a boundary value -/

/-- A state with a word at its program counter. -/
def withWord (w : InstrWord) (s : State) : State := s.setMem (Memory.writeWord s.mem s.pc.toNat w)

theorem holdsBits_A : holdsBits Config.cfgA false 0 64 := .inl ⟨rfl, rfl, rfl, rfl⟩

theorem holdsBits_B : holdsBits Config.cfgB false 0 32 := .inr (.inl ⟨rfl, rfl, rfl, rfl⟩)

theorem holdsBits_Bh : holdsBits Config.cfgB true 32 64 := .inr (.inr ⟨rfl, rfl, rfl, rfl⟩)

/-- CFG-B with Sstc. -/
def cfgBTimer : Config := { Config.cfgB with hasSstc := true }

/-- CFG-A with a custom CSR that the spec does not describe, a write to which may clear a bit of vsip. -/
def cfgCustom : Config := { Config.cfgA with vtiWriteTrapCsrs := [0x5C0], otherCsrs := [0xFFF] }

/-- CFG-A with a file selected: VGEIN at its largest valid number, vsiselect = 0x80. -/
def selected (m : Mode) : State := ((start Config.cfgA m).setVgein 3).setVsiselect 0x80

theorem test_meets_StepRunsDecodedInstruction :
    (withWord 0x10200073 (start Config.cfgA .VS)).pc &&& 3 = 0 ∧
      Memory.readWord (withWord 0x10200073 (start Config.cfgA .VS)).mem 0 = some 0x10200073 ∧
      interruptTaken (withWord 0x10200073 (start Config.cfgA .VS)) = false ∧
      interruptTaken ((withWord 0x10200073 stateTr1).setAgenda [.delay]) = true ∧
      ((start Config.cfgA .M).setAgenda [.hart]).agenda = .hart :: [] ∧
      State.reset.outcome = none ∧ State.reset.agenda = [] := by decide +kernel

theorem test_meets_ReservedFunct3Raises :
    (0x60904073 : InstrWord) &&& 0x707F = 0x4073 ∧ (0x00000003 : InstrWord) &&& 0x7F ≠ 0x73 ∧
      goes (step (withWord 0x60904073 State.reset)) = true ∧
      refusal (step (withWord 0x00000003 State.reset)) = some (.otherOpcode 0x00000003) ∧
      refusal (step (withWord 0x00000012 State.reset)) = some (.not32Bit 0x00000012) := by decide +kernel

theorem test_meets_CsrrwCompletes :
    check (start Config.cfgA .HS) 0x609 true = .pass .hvictl ∧ (31 : BitVec 5) ≠ 0 ∧
      check (start Config.cfgA .VS) 0x609 true = .raises .virtualInstruction := by decide +kernel

theorem test_meets_CsrrsCompletes :
    check (start Config.cfgA .VS) 0x150 true = .pass .vsiselect ∧ (1 : BitVec 5) ≠ 0 ∧
      check (start Config.cfgA .VS) 0xDB0 false = .pass .vstopi ∧
      check (start Config.cfgA .M) 0xEB0 ((31 : BitVec 5) != 0) = .raises .illegalInstruction := by decide +kernel

theorem test_meets_CsrrcCompletes :
    check (start Config.cfgA .M) 0x645 true = .pass .hvip ∧ (31 : BitVec 5) ≠ 0 ∧
      check (start Config.cfgA .M) 0xEB0 false = .pass .vstopi ∧
      check (start Config.cfgA .U) 0x144 ((0 : BitVec 5) != 0) = .raises .illegalInstruction := by decide +kernel

theorem test_meets_CsrrwiCompletes :
    check (start Config.cfgB .M) 0x618 true = .pass .hvienh ∧ (31 : BitVec 5) ≠ 0 ∧
      check (start Config.cfgA .M) 0x618 true = .raises .illegalInstruction := by decide +kernel

theorem test_meets_CsrrsiCompletes :
    check (start Config.cfgA .VS) 0x100 true = .pass .vsstatus ∧ (31 : BitVec 5) ≠ 0 ∧
      check (start Config.cfgA .VS) 0x100 false = .pass .vsstatus ∧
      check (start Config.cfgA .VU) 0x100 ((0 : BitVec 5) != 0) = .raises .virtualInstruction := by decide +kernel

theorem test_meets_CsrrciCompletes :
    check (start Config.cfgA .VS) 0x144 true = .pass .vsip ∧ (1 : BitVec 5) ≠ 0 ∧
      check (start Config.cfgA .VS) 0x144 false = .pass .vsip ∧
      check (start Config.cfgB .VS) 0x14D ((31 : BitVec 5) != 0) = .raises .illegalInstruction := by decide +kernel

theorem test_meets_RegisterWriteReadsBack :
    (31 : BitVec 5) ≠ 0 ∧ (0 : BitVec 5) ≠ 31 ∧ readReg 31 (writeReg 31 0xFFFFFFFFFFFFFFFF (start Config.cfgB .U)) =
      0xFFFFFFFF := by decide +kernel

theorem test_meets_CsrInstructionFrame :
    (∃ t, exec (.csrrw 1 0x609 0) (start Config.cfgA .HS) = .next t) ∧ csrReached .HS 0x609 = some .hvictl ∧
      (∃ t, exec (.csrrs 1 0xEB0 0) (start Config.cfgA .HS) = .next t) ∧ writeAttempt (.csrrs 1 0xEB0 0) = false ∧
      (∃ t, exec (.csrrw 1 0x000 0) (start Config.cfgA .HS) = .next t) ∧ csrReached .HS 0x000 = none :=
  ⟨next_of_goes _ (by decide +kernel), by decide +kernel, next_of_goes _ (by decide +kernel), rfl,
    next_of_goes _ (by decide +kernel), by decide +kernel⟩

theorem test_meets_HvictlAccessCompletes :
    hypervisorMode (start Config.cfgA .HS) = true ∧ hypervisorMode (start Config.cfgB .M) = true ∧
      (31 : BitVec 5) ≠ 0 := by decide +kernel

theorem test_meets_HvictlReadsBackDefinedFields :
    hypervisorMode (start Config.cfgA .HS) = true ∧ (start Config.cfgA .HS).cfg.wf = true ∧
      (start Config.cfgB .M).cfg.wf = true ∧ (1 : BitVec 5) ≠ 0 := by decide +kernel

theorem test_meets_HypervisorReachesEveryRegister :
    hypervisorMode (selected .HS) = true ∧ fileSelected (selected .HS) = true ∧
      csrPresent Config.cfgA .vsireg = true ∧ csrPresent Config.cfgA .vstopei = true ∧
      vgeinValid ((selected .M).setVsiselect 0) = true ∧ fileSelected ((selected .M).setVsiselect 0) = false ∧
      csrPresent Config.cfgA .vstopi = true ∧ csrPresent Config.cfgB .vsiph = true := by decide +kernel

theorem test_meets_GuestReachesVsRegisters :
    (selected .VS).mode = .VS ∧ supNumber .vsireg = some 0x151 ∧ fileSelected (selected .VS) = true ∧
      supNumber .vstopei = some 0x15C ∧ vgeinValid ((selected .VS).setVsiselect 0) = true ∧
      supNumber .vsip = some 0x144 ∧ (selected .VS).hvictl.vti = false ∧
      (hvictlIs 0x40000000 (selected .VS)).hvictl.vti = true ∧ supNumber .vsstatus = some 0x100 ∧
      isIntrReg .vsstatus = false ∧ inVtiSet .vsstatus = false ∧ vtiNamed Config.cfgA 0x100 .vsstatus = false ∧
      isIntrReg .vstimecmp = false ∧ csrPresent Config.cfgA .vstimecmp = true := by decide +kernel

theorem test_meets_RegistersClosedBelowHypervisor :
    csrField (.csrrw 1 0x609 1) = some (csrNumber .hvictl) ∧ csrPresent Config.cfgA .hvictl = true ∧
      csrField (.csrrs 1 0xEB0 0) = some (csrNumber .vstopi) ∧ writeAttempt (.csrrs 1 0xEB0 0) = false ∧
      (start Config.cfgA .VS).mode = .VS ∧ (start Config.cfgA .VU).mode = .VU ∧ (start Config.cfgA .U).mode = .U ∧
      (csrNamed 0x144).isSome = true := by decide +kernel

theorem test_meets_AbsentAndReadOnlyCsrsRaise :
    csrExists Config.cfgA 0x618 = false ∧ csrExists Config.cfgB 0x25C = false ∧
      writeAttempt (.csrrs 0 0xEB0 1) = true ∧ (0xEB0 : BitVec 12).extractLsb' 10 2 = 3 ∧
      (Config.cfgA.xlen = .rv64 ∧ csrField (.csrrsi 1 0x15D 0) = some 0x15D) ∧
      (Config.cfgB.hasImsic = false ∧ csrField (.csrrs 1 0x15C 0) = some 0x15C) ∧
      (Config.cfgB.hasSstc = false ∧ csrField (.csrrci 1 0x24D 0) = some 0x24D) := by decide +kernel

theorem test_meets_VtiTrapsInterruptRegisters :
    (hvictlIs 0x40000000 (start Config.cfgA .VS)).hvictl.vti = true ∧
      (hvictlIs 0x40000000 (start Config.cfgB .VS)).cfg.xlen = .rv32 ∧
      csrField (.csrrsi 10 0x144 0) = some 0x144 ∧ csrField (.csrrci 10 0x114 0) = some 0x114 := by decide +kernel

theorem test_meets_VtiTrapsTimerWrites :
    (hvictlIs 0x40000000 (start Config.cfgA .VS)).hvictl.vti = true ∧ Config.cfgA.hasSstc = true ∧
      (hvictlIs 0x40000000 (start cfgBTimer .VS)).cfg.xlen = .rv32 ∧ cfgBTimer.hasSstc = true ∧
      writeAttempt (.csrrs 0 0x14D 5) = true ∧ writeAttempt (.csrrsi 10 0x15D 0) = false := by decide +kernel

theorem test_meets_GuestIprioArrayTraps :
    csrField (.csrrs 10 0x151 0) = some 0x151 ∧
      0x30 ≤ ((start Config.cfgA .VS).setVsiselect 0x30).vsiselect.toNat ∧
      ((start Config.cfgA .VS).setVsiselect 0x3F).vsiselect.toNat ≤ 0x3F := by decide +kernel

theorem test_meets_AccessesThatReachNothingRaise :
    (hypervisorMode (start Config.cfgA .HS) = true ∧ fileSelected (start Config.cfgA .HS) = false) ∧
      (((start Config.cfgA .VS).setVsiselect 0x6F).vsiselect.toNat < 0x70 ∧
        0xFF < ((start Config.cfgA .VS).setVsiselect 0x100).vsiselect.toNat) ∧
      vgeinValid ((selected .VS).setVsiselect 0x81) = true ∧
      (vgeinValid ((selected .VS).setVgein 0) = false ∧ vgeinValid ((selected .VS).setVgein 4) = false) ∧
      Config.cfgA.hasImsic = true ∧ vgeinValid ((selected .M).setVgein 63) = false := by decide +kernel

/-- The select values with no register: 0x71, the odd 0x81 with XLEN = 64, and those from identity NUM_IDS on. -/
theorem test_meets_AccessesThatReachNothingRaise_selects :
    (reachesBy (selected .VS) 0x251 0x151 0x151 ∧ reachesBy (selected .HS) 0x251 0x151 0x251) ∧
      ∀ sel, sel ∈ [0x71, 0x7F, 0x81, 0x82, 0xBF, 0xC1, 0xFF] → 0x70 ≤ sel ∧ sel ≤ 0xFF ∧ sel ≠ 0x70 ∧ sel ≠ 0x72 ∧
        ∀ j, j ≤ 63 → sel = 0x80 + j ∨ sel = 0xC0 + j →
          Config.cfgA.numIds ≤ 32 * j ∨ (Config.cfgA.xlen = .rv64 ∧ j % 2 = 1) :=
  ⟨⟨.inr (by decide +kernel), .inl (by decide +kernel)⟩, by decide +kernel⟩

theorem test_meets_AccessesOutsideTheSpecAreRefused :
    supNumber .vsip = some 0x144 ∧ csrPresent Config.cfgA .vsip = true ∧ hypervisorMode (start Config.cfgA .HS) = true ∧
      supNumber .vstopi = some 0xDB0 ∧ writeAttempt (.csrrs 1 0xDB0 0) = false ∧
      csrNamed 0x5C0 = none ∧ csrExists cfgCustom 0x5C0 = true ∧ (0x5C0 : BitVec 12).extractLsb' 10 2 ≠ 3 ∧
      levelException .VS (csrLevel 0x5C0) = none ∧ (0x5C0 : BitVec 12) ∈ cfgCustom.vtiWriteTrapCsrs ∧
      csrExists cfgCustom 0xFFF = true ∧ levelException .M (csrLevel 0xFFF) = none := by decide +kernel

theorem test_meets_DelegationWriteDrawsHiddenBits :
    hypervisorMode (start Config.cfgA .M) = true ∧ holdsBits Config.cfgA false 0 64 ∧
      holdsBits Config.cfgB false 0 32 ∧ holdsBits Config.cfgB true 32 64 ∧
      Config.cfgA.hidelegW.getLsbD 63 = true ∧ Config.cfgA.hvienW.getLsbD 13 = true :=
  ⟨by decide +kernel, holdsBits_A, holdsBits_B, holdsBits_Bh, by decide +kernel⟩

theorem test_meets_HvipSetClearNamedBits :
    hypervisorMode (stateS1.setVsieOwn 0x8000) = true ∧ stateS1.legal = true ∧ stateS1.cfg.xlen = .rv64 ∧
      (1 : BitVec 5) ≠ 0 := by decide +kernel

/-- Either half of either register; interrupts 1, 5 and 15 with their fields, 9 and 24 without one. -/
theorem test_meets_HviprioFieldsAreWarl :
    (hypervisorMode stateS1 = true ∧ stateS1.legal = true ∧ stateS1.cfg.xlen = .rv64 ∧
        (start Config.cfgB .M).legal = true ∧ hypervisorMode (start Config.cfgB .M) = true ∧
        (start Config.cfgB .M).cfg.xlen = .rv32) ∧
      (∀ p, (9, p) ∉ [(1, 8), (5, 24), (13, 40), (14, 48), (15, 56)]) ∧
      (∀ p, (13, p) ∉ [(1, 8), (5, 24)]) ∧
      Config.cfgA.hviprioImpl.getLsbD 15 = true ∧ Config.cfgB.hviprioImpl.getLsbD 15 = false :=
  ⟨by decide +kernel, fun p => by simp, fun p => by simp, by decide +kernel⟩

/-- Bit 13 of S1 is virtual, bit 14 delegated, bit 63 hidden. -/
theorem test_meets_VsipAndVsieAliasByTable1 :
    (stateS1.hideleg.getLsbD 13 = false ∧ stateS1.hvien.getLsbD 13 = true) ∧ stateS1.hideleg.getLsbD 14 = true ∧
      (stateS1.hideleg.getLsbD 63 = false ∧ stateS1.hvien.getLsbD 63 = false) := by decide +kernel

theorem test_meets_LowBitsOfVsipAndVsie :
    (vsip stateS1).getLsbD 12 = false ∧ (vsip stateS1).getLsbD 1 = true ∧ (vsie stateS1).getLsbD 9 = true := by
  decide +kernel

/-- vsip and sip, vsie and sie: whole with XLEN = 64, and the high half with XLEN = 32. -/
theorem test_meets_SipAndSieAccessesReachAliases :
    reachesBy stateS1 0x244 0x144 0x244 ∧ reachesBy (stateS1.setMode .VS) 0x204 0x104 0x104 ∧
      (stateS1.setMode .VS).hvictl.vti = false ∧ holdsBits stateS1.cfg false 0 64 ∧
      reachesBy (start Config.cfgB .VS) 0x254 0x154 0x154 ∧ reachesBy (start Config.cfgB .M) 0x214 0x114 0x214 ∧
      (start Config.cfgB .VS).hvictl.vti = false ∧ holdsBits Config.cfgB true 32 64 :=
  ⟨.inl (by decide +kernel), .inr (by decide +kernel), by decide +kernel, holdsBits_A, .inr (by decide +kernel),
    .inl (by decide +kernel), by decide +kernel, holdsBits_Bh⟩

theorem test_meets_HalvesReachOwnBits :
    hypervisorMode (start Config.cfgB .HS) = true ∧ holdsBits Config.cfgB false 0 32 ∧
      holdsBits Config.cfgB true 32 64 ∧ hypervisorMode stateS1 = true ∧ holdsBits stateS1.cfg false 0 64 :=
  ⟨by decide +kernel, holdsBits_B, holdsBits_Bh, by decide +kernel, holdsBits_A⟩

theorem test_meets_HvictlAffectsNoPendingBits :
    csrField (.csrrwi 0 0x609 31) = some 0x609 ∧ ∃ t, exec (.csrrwi 0 0x609 31) stateS1 = .next t :=
  ⟨rfl, next_of_goes _ (by decide +kernel)⟩

/-- vsiselect by both numbers; VGEIN at GEILEN and one above it. -/
theorem test_meets_HypervisorFieldsReadAndWrite :
    (reachesBy (start Config.cfgA .HS) 0x250 0x150 0x250 ∧ reachesBy (start Config.cfgA .VS) 0x250 0x150 0x150 ∧
        vtiNamed Config.cfgA 0x150 .vsiselect = false) ∧
      hypervisorMode (start Config.cfgA .HS) = true ∧ (start Config.cfgA .HS).cfg.wf = true ∧
      ((readReg 5 (writeReg 5 0x3000 (start Config.cfgA .HS))).extractLsb' 12 6).toNat ≤ Config.cfgA.geilen ∧
      Config.cfgA.geilen < ((readReg 5 (writeReg 5 0x4000 (start Config.cfgA .HS))).extractLsb' 12 6).toNat := by
  exact ⟨⟨.inl (by decide +kernel), .inr (by decide +kernel), by decide +kernel⟩, by decide +kernel⟩

theorem test_meets_VsTrapRegistersReadAndWrite :
    (hypervisorMode (start Config.cfgA .M) = true ∧ csrNumber .vscause = 0x242) ∧
      (start Config.cfgB .VS).mode = .VS ∧ supNumber .vsepc = some 0x141 ∧ (start Config.cfgB .VS).hvictl.vti = false ∧
      (hvictlIs 0x40000000 (start Config.cfgA .VS)).hvictl.vti = true ∧
      vtiNamed (start Config.cfgA .VS).cfg 0x141 .vsepc = false := by
  decide +kernel

/-- Identities 1 and 63 of CFG-A, and a threshold that shuts both out. -/
theorem test_meets_TopeiReportsSmallestIdentity :
    Config.cfgA.wf = true ∧ mayReport Config.cfgA (oneWord 0x8000000000000002 0x8000000000000002) 1 = true ∧
      topei Config.cfgA (oneWord 0x8000000000000002 0x8000000000000000) = 0x003F003F ∧
      topei Config.cfgA { oneWord 0x8000000000000002 0x8000000000000002 with eithreshold := 1 } = 0 := by
  decide +kernel

/-- Each select value, at its first and last register; the least and the largest identity injected. -/
theorem test_meets_VsiregReachesGuestFile :
    (reachesBy (selected .HS) 0x251 0x151 0x251 ∧ reachesBy (selected .VS) 0x251 0x151 0x151 ∧
        (selected .VS).cfg.wf = true ∧ vgeinValid (selected .VS) = true ∧ vtiNamed Config.cfgA 0x151 .vsireg = false) ∧
      (((selected .VS).setVsiselect 0x70).vsiselect = 0x70 ∧ ((selected .VS).setVsiselect 0x72).vsiselect = 0x72 ∧
        readReg 5 (writeReg 5 2 (selected .VS)) &&& Config.cfgA.xmask ≠ 1) ∧
      (32 * 0 < Config.cfgA.numIds ∧ (selected .HS).vsiselect = BitVec.ofNat 64 (0x80 + 0) ∧
        32 * 14 < Config.cfgC.numIds ∧
        ((start Config.cfgC .HS).setVsiselect 0xCE).vsiselect = BitVec.ofNat 64 (0xC0 + 14) ∧
        32 * 1 < Config.cfgB.numIds ∧ Config.cfgB.xlen = .rv32 ∧
        ((start Config.cfgB .HS).setVsiselect 0x81).vsiselect = BitVec.ofNat 64 (0x80 + 1)) ∧
      (readReg 6 (writeReg 6 2 (selected .HS)) = BitVec.ofNat 64 (2 ^ (1 % 64)) ∧
        ((start Config.cfgC .HS).setVsiselect 0x8E).vsiselect =
          BitVec.ofNat 64 (0x80 + (Config.cfgC.xlenBits / 32) * (511 / Config.cfgC.xlenBits)) ∧
        511 < Config.cfgC.numIds ∧
        readReg 6 (writeReg 6 0x80000000 (start Config.cfgB .HS)) = BitVec.ofNat 64 (2 ^ (63 % Config.cfgB.xlenBits))) :=
  ⟨⟨.inl (by decide +kernel), .inr (by decide +kernel), by decide +kernel⟩, by decide +kernel, by decide +kernel,
    by decide +kernel⟩

/-- vstopei and stopei, a pure read and a write attempt with rd = x0. -/
theorem test_meets_VstopeiReportsAndClaims :
    (reachesBy (selected .VS) 0x25C 0x15C 0x15C ∧ reachesBy (selected .M) 0x25C 0x15C 0x25C) ∧
      ((selected .VS).cfg.wf = true ∧ Config.cfgA.hasImsic = true ∧ vgeinValid (selected .VS) = true ∧
        vgeinValid (selected .M) = true ∧ vtiNamed Config.cfgA 0x15C .vstopei = false) ∧
      (csrField (.csrrs 10 0x15C 0) = some 0x15C ∧ writeAttempt (.csrrs 10 0x15C 0) = false) ∧
      (csrField (.csrrwi 0 0x25C 31) = some 0x25C ∧ writeAttempt (.csrrwi 0 0x25C 31) = true) :=
  ⟨⟨.inr (by decide +kernel), .inl (by decide +kernel)⟩, by decide +kernel, by decide +kernel, by decide +kernel⟩

theorem test_meets_MsiSetsOnePendingBit :
    Config.cfgA.wf = true ∧ 1 ≤ 1 ∧ 3 ≤ Config.cfgA.geilen ∧
      (selected .HS).setAgenda [.env (.msi 3 63)] = (selected .HS).setAgenda (.env (.msi 3 63) :: []) := by decide +kernel

theorem test_meets_CsrrsLosesNoArrivingMsi :
    hypervisorMode (selected .M) = true ∧ (selected .M).legal = true ∧
      (9 : BitVec 5) ≠ 0 ∧ fileSelected (selected .M) = true ∧
      fileReg (selected .M).cfg (selected .M).vsiselect.toNat = some (.eip 0 .whole) ∧ 63 < (selected .M).cfg.numIds ∧
      fileReg Config.cfgB 0x81 = some (.eip 0 .high) := by
  decide +kernel

/-- A guest physical address that IommuMap maps, at offset 0 of its page and not. -/
def mapped (gpa : Nat) : State := (start Config.cfgA .HS).setIommu [(gpa, { hart := 0, file := 1 })]

theorem test_meets_AddressedWritesAreMsisOrRefused :
    Config.cfgA.wf = true ∧ Config.cfgA.fileAddr[3 - 1]? = some 0x28003000 ∧ 3 ≤ Config.cfgA.geilen ∧
      (0x28003FFF / 4096 = 0x28003000 / 4096 ∧ 0x28003FFF % 4096 ≠ 0 ∧ ([0] : List Byte).length ≠ 4) ∧
      ((mapped 0x24000000).iommu.lookup 0x24000000 = some { hart := Config.cfgA.hartId, file := 1 } ∧
        0x24000000 % 4096 = 0) ∧
      (mapped 0x24000004).iommu.lookup 0x24000004 = some { hart := 0, file := 1 } ∧ 0x24000004 % 4096 ≠ 0 := by
  decide +kernel

/-- R68, D2: a device's 32-bit write to offset 0 of a mapped page is an MSI; to another offset, or of 8 bytes, it is
refused. -/
theorem test_device_write_form :
    goes (applyDeviceWrite 0x24000000 [5, 0, 0, 0] (mapped 0x24000000)) = true ∧
      refusal (applyDeviceWrite 0x24000004 [5, 0, 0, 0] (mapped 0x24000004)) = some (.msiForm 0x24000004) ∧
      refusal (applyDeviceWrite 0x24000000 [5, 0, 0, 0, 0, 0, 0, 0] (mapped 0x24000000)) =
        some (.msiForm 0x24000000) := by decide +kernel

/-- The three conditions, and none. -/
theorem test_meets_ExternalCandidateByThreeCases :
    externalCandidate (start Config.cfgA .HS) = none ∧
      externalCandidate (setFileAt ((viewsAre 0x400 Config.cfgA).setVgein 3) 3 (oneWord 0x20 0x20)) =
        some { iid := 9, prio := 5, hi := false } ∧
      externalCandidate (hvictlIs 0x00090001 (viewsAre 0x400 Config.cfgA)) = some { iid := 9, prio := 1, hi := false } ∧
      externalCandidate (hvictlIs 0x00090001 ((viewsAre 0x400 Config.cfgA).setVgein 4)) =
        some { iid := 9, prio := 256, hi := false } := by decide +kernel

/-- Two ready interrupts, and none. -/
theorem test_meets_MajorCandidateIsMaximum :
    (viewsAre 0x44 Config.cfgA).cfg.wf = true ∧ (viewsAre 0x44 Config.cfgA).hvictl.vti = false ∧
      (vsip (viewsAre 0x44 Config.cfgA) = 0x22 ∧ vsie (viewsAre 0x44 Config.cfgA) = 0x22) ∧
      vsip (start Config.cfgA .HS) = 0 := by decide +kernel

/-- Interrupts 40 and 1 about 9, and 23 and 13 with numbers 0, 5 and 6, in each tier. -/
theorem test_meets_PriorityOrderHasThreeTiers :
    (Config.cfgA.wf = true ∧ 63 ≤ 63 ∧ 63 ≠ 9 ∧ 1 ≤ 256) ∧
      (higherPriority Config.cfgA 40 0 9 256 = true ∧ higherPriority Config.cfgA 1 0 9 256 = false) ∧
      (higherPriority Config.cfgA 23 0 13 5 = true ∧ higherPriority Config.cfgA 13 5 23 5 = false ∧
        higherPriority Config.cfgA 13 5 23 6 = true ∧ higherPriority Config.cfgA 1 0 13 0 = true) := by decide +kernel

theorem test_meets_PriorityOrderHasThreeTiers_ranks :
    ∃ (rank : Nat → Nat) (tierOf : Nat → Nat → Nat), (∀ a, rank a = Config.cfgA.defaultRank.idxOf a) ∧
      ∀ a r, tierOf a r = if a ≠ 9 ∧ r = 0 ∧ rank a < rank 9 then 0 else if 1 ≤ r then 1 else 2 :=
  ⟨_, _, fun _ => rfl, fun _ _ => rfl⟩

/-- One candidate, none, both with a tie; a pure read by either number, in VS-mode with VTI = 1. -/
theorem test_meets_VstopiReportsWinner :
    winner (hvictlIs 0x40050309 (start Config.cfgA .HS)) = some { iid := 5, prio := 9, hi := false } ∧
      (externalCandidate (start Config.cfgA .HS) = none ∧ majorCandidate (start Config.cfgA .HS) = none) ∧
      (majorCandidate (viewsAre 0x400 Config.cfgA) = none ∧
        externalCandidate (viewsAre 0x400 Config.cfgA) = some { iid := 9, prio := 256, hi := false }) ∧
      (externalCandidate (setFileAt ((hvictlIs 0x40050105 (viewsAre 0x400 Config.cfgA)).setVgein 3) 3
          (oneWord 0x20 0x20)) = some { iid := 9, prio := 5, hi := false } ∧
        majorCandidate (hvictlIs 0x40050105 (viewsAre 0x400 Config.cfgA)) =
          some { iid := 5, prio := 5, hi := true }) ∧
      reachesBy stateS1 0xEB0 0xDB0 0xEB0 ∧
      reachesBy (hvictlIs 0x40000000 (start Config.cfgA .VS)) 0xEB0 0xDB0 0xDB0 ∧
      csrField (.csrrsi 7 0xDB0 0) = some 0xDB0 ∧ writeAttempt (.csrrsi 7 0xDB0 0) = false :=
  ⟨by decide +kernel, by decide +kernel, by decide +kernel, by decide +kernel, .inl (by decide +kernel),
    .inr (by decide +kernel), rfl, rfl⟩

/-- R160, R161: at equal priority numbers hvictl.DPR decides which finalist vstopi reports. -/
theorem test_vstopi_tie :
    vstopi (setFileAt ((hvictlIs 0x40050105 (viewsAre 0x400 Config.cfgA)).setVgein 3) 3 (oneWord 0x20 0x20)) =
        0x00050005 ∧
      vstopi (setFileAt ((hvictlIs 0x40050305 (viewsAre 0x400 Config.cfgA)).setVgein 3) 3 (oneWord 0x20 0x20)) =
        0x00090005 := by decide +kernel

theorem test_meets_VtiSelectsHvictlInterrupt :
    ((hvictlIs 0x40090100 (viewsAre 0x400 Config.cfgA)).hvictl.iid = 9 ∧
        vstopi (hvictlIs 0x40090100 (viewsAre 0x400 Config.cfgA)) ≠ 0) ∧
      (hvictlIs 0x403F0105 (start Config.cfgA .HS)).hvictl.vti = true ∧
      (hvictlIs 0x403F0105 (start Config.cfgA .HS)).hvictl.iid ≠ 9 ∧
      (vsip (hvictlIs 0x403F0105 (start Config.cfgA .HS))).getLsbD 9 = false := by decide +kernel

theorem test_meets_VstopiDependsOnItsInputs :
    stateS1 ≠ stateS1.setMode .VU ∧ vsip stateS1 = vsip (stateS1.setMode .VU) ∧
      currentFile stateS1 = currentFile (stateS1.setMode .VU) := by decide +kernel

theorem test_meets_InterruptTrapEntersVsMode :
    (vstopi stateTr1 ≠ 0 ∧ stateTr1.mode = .VU ∧ stateTr1.agenda = [] ∧ stateTr1.outcome = none ∧
        stateTr1.vstvec &&& 3 = 0) ∧ (stateTr1.setAgenda [.hart]).agenda = .hart :: [] ∧
      ((stateTr1.setMode .VS).setVsSIE true).mode = .VS ∧ (stateTr1.setVstvec 0x80002001).vstvec &&& 3 = 1 := by
  decide +kernel

theorem test_meets_NoVsInterruptOutsideGuest :
    (stateTr1.setMode .VS).vsSIE = false ∧ ((stateTr1.setMode .M).setAgenda [.hart]).agenda = .hart :: [] ∧ (withWord 0x14402573 (stateTr1.setMode .VS)).pc &&& 3 = 0 ∧
      Memory.readWord (withWord 0x14402573 (stateTr1.setMode .VS)).mem 0x80001000 = some 0x14402573 ∧
      decode 0x14402573 = .ok (.csrrs 10 0x144 0) := by decide +kernel

theorem test_meets_SretReturnsByMode :
    ((start Config.cfgA .VS).mode = .VS ∧ (start Config.cfgA .VS).outside.hstatusVTSR = false) ∧
      ((start Config.cfgA .VS).setOutside { Outside.zero with hstatusVTSR := true }).outside.hstatusVTSR = true ∧
      (start Config.cfgA .VU).mode = .VU ∧ (start Config.cfgA .U).mode = .U ∧
      ((start Config.cfgA .HS).setOutside { Outside.zero with hstatusSPV := true }).outside.hstatusSPV = true := by
  decide +kernel

theorem test_meets_SretInHypervisorModes :
    hypervisorMode (start Config.cfgA .HS) = true ∧ hypervisorMode (start Config.cfgA .M) = true := by decide +kernel

theorem test_meets_SretUndoesInterruptTrap :
    stateTr1.outside.hstatusVTSR = false ∧ interruptTaken stateTr1 = true ∧
      interruptTaken ((stateTr1.setMode .VS).setVsSIE true) = true := by decide +kernel

/-- VU-mode after an exception. -/
def ended (k : ExcKind) (agenda : List Turn) : State :=
  ((start Config.cfgA .VU).setOutcome (some ⟨k, 0, 0x14402573⟩)).setAgenda agenda

/-- No turn left, a turn of the hart, another turn, the trap to HS-mode with a record and without, and the delivery to
VS-mode. -/
theorem test_meets_ExceptionEndsRunOfInstructions :
    ((ended .virtualInstruction []).agenda = [] ∧ (ended .virtualInstruction [.hart]).agenda = .hart :: [] ∧
        (ended .virtualInstruction [.delay]).agenda = .delay :: []) ∧
      (goes (step (ended .virtualInstruction [.env (.setTimer true)])) = true ∧
        (∀ m pc o, Event.setTimer true ≠ .higherTrap m pc o) ∧ ∀ b, Event.setTimer true ≠ .deliverVs b) ∧
      (goes (step (ended .virtualInstruction [.env (.higherTrap .HS 0x1000 Outside.zero)])) = true ∧
        goes (step (stateTr1.setAgenda [.env (.higherTrap .M 0x1000 Outside.zero)])) = true) ∧
      ((ended .illegalInstruction [.env (.deliverVs true)]).mode.virt = true ∧
        (ended .illegalInstruction [.env (.deliverVs true)]).vstvec &&& 3 = 0 ∧
        goes (step (ended .illegalInstruction [.env (.deliverVs true)])) = true) ∧
      refusal (step (ended .virtualInstruction [.env (.deliverVs true)])) = some .notDeliverable :=
  ⟨by decide +kernel, ⟨by decide +kernel, fun _ _ _ => by simp, fun _ => by simp⟩, by decide +kernel, by decide +kernel,
    by decide +kernel⟩

/-- HartTurnKeepsVirtualMode, GuestTurnKeepsHypervisorState, VtiGuestClearsNoPendingBit, StepKeepsProgramText: a guest
whose next turn is the hart's and which steps, by the trap and by a CSR instruction under VTI = 1. -/
theorem test_meets_guest_turns :
    hartMoves stateTr1 = true ∧ stateTr1.mode.virt = true ∧ stateTr1.hvictl.vti = true ∧
      (∃ t, step stateTr1 = .next t) ∧
      hartMoves (withWord 0x14402573 (stateTr1.setMode .VS)) = true ∧
      ∃ t, step (withWord 0x14402573 (stateTr1.setMode .VS)) = .next t :=
  ⟨by decide +kernel, by decide +kernel, by decide +kernel, next_of_goes _ (by decide +kernel), by decide +kernel,
    next_of_goes _ (by decide +kernel)⟩

theorem test_meets_StepKeepsLegal : stateTr1.legal = true ∧ ∃ t, step stateTr1 = .next t :=
  ⟨by decide +kernel, next_of_goes _ (by decide +kernel)⟩

/-- A state after reset with writable fields at other values than State.reset's. -/
theorem test_meets_ResetIsLegal :
    State.reset.maybeReset = true ∧ (stateS1.setMode .M).maybeReset = true ∧ stateS1.setMode .M ≠ State.reset := by
  decide +kernel

end Sys2Proof.Tests
end

section
/-! The value of topei (10_state.md R49): which identities may be reported, and where the reported one stands. -/

namespace Sys2Proof.Machine

/-! ### The identities that may be reported -/

theorem mayReport_iff (c : Config) (f : IntrFile) (n : Nat) :
    mayReport c f n = true ↔ 1 ≤ n ∧ n < c.numIds ∧ idBit f.eip n = true ∧ idBit f.eie n = true ∧
      (f.eithreshold = 0 ∨ n < f.eithreshold.toNat) := by
  simp [mayReport, and_assoc]

/-- R49 names no delivery enable: a file's signal can be off while topei reports. -/
theorem topei_setEidelivery (c : Config) (f : IntrFile) (b : Bool) :
    topei c { f with eidelivery := b } = topei c f := rfl

/-! ### The fields of topei -/

/-- An identity fits 11 bits (R47), so its two copies in topei do not overlap. -/
theorem topei_eq_ofNat (c : Config) (f : IntrFile) (h : topId c f < 2048) :
    topei c f = BitVec.ofNat 64 (topId c f * 65536 + topId c f) := by
  have hor : topId c f <<< 16 ||| topId c f = topId c f * 65536 + topId c f := by
    rw [← Nat.shiftLeft_add_eq_or_of_lt (by omega), Nat.shiftLeft_eq]
  have hshift : BitVec.ofNat 64 (topId c f) <<< 16 = BitVec.ofNat 64 (topId c f <<< 16) := by
    apply BitVec.eq_of_toNat_eq
    rw [BitVec.toNat_shiftLeft, BitVec.toNat_ofNat, BitVec.toNat_ofNat, Nat.mod_eq_of_lt (a := topId c f) (by omega)]
  rw [topei, hshift, ← BitVec.ofNat_or, hor]

/-- Bits 26:16 and bits 10:0 of a word of two copies of an identity are that identity. -/
theorem toNat_fields_ofNat (n : Nat) (h : n < 2048) :
    ((BitVec.ofNat 64 (n * 65536 + n)).extractLsb' 16 11).toNat = n ∧
      ((BitVec.ofNat 64 (n * 65536 + n)).extractLsb' 0 11).toNat = n := by
  have hword : (BitVec.ofNat 64 (n * 65536 + n)).toNat = n * 65536 + n := Nat.mod_eq_of_lt (by omega)
  have hhigh : (n * 65536 + n) >>> 16 = n := by
    rw [Nat.shiftRight_eq_div_pow]
    omega
  rw [BitVec.extractLsb'_toNat, BitVec.extractLsb'_toNat, hword, hhigh, Nat.shiftRight_zero]
  omega

/-! ### The obligation -/

/-- Settles O36: the set of the statement is that of `mayReport`, whose least member is `topId`. -/
theorem topeiReportsSmallestIdentity : Obligations.TopeiReportsSmallestIdentity := by
  intro c f inS hc hS
  have hmay : ∀ n, inS n ↔ mayReport c f n = true := fun n => (hS n).trans (mayReport_iff c f n).symm
  have hnot : ∀ n, ¬ inS n → mayReport c f n = false := fun n h => by simpa [hmay] using h
  refine ⟨fun hnone => ?none, fun n hn hmin => ?least, topei_setEidelivery c f⟩
  case none =>
    have hid : topId c f = 0 := topId_none c f fun n => hnot n (hnone n)
    rw [topei, hid]
    rfl
  case least =>
    have hn' : mayReport c f n = true := (hmay n).mp hn
    have hid : topId c f = n := topId_min c f n hn' fun m hm => hnot m (hmin m hm)
    have hlt : n < 2048 := (mayReport_range c f n hn').2.trans_le (numIds_of_wf c hc).2.1
    have hval : topei c f = BitVec.ofNat 64 (n * 65536 + n) := by
      rw [topei_eq_ofNat c f (hid ▸ hlt), hid]
    rw [hval]
    exact ⟨rfl, toNat_fields_ofNat n hlt⟩

end Sys2Proof.Machine
end

section
/-! The opcode map (30_encoding.md R83): a row's mask keeps the opcode and funct3 fields, and under the opcode SYSTEM
the decoder chooses the row by funct3. -/

namespace Sys2Proof

/-! ### A word of the CSR format and its fields -/

/-- The five fields of R81 fill the word. -/
theorem encodeCsr_fields (w : InstrWord) (hop : fieldOpcode w = 0x73) :
    encodeCsr (fieldCsr w) (fieldRs1 w) (fieldFunct3 w) (fieldRd w) = w := by
  unfold encodeCsr
  rw [← hop]
  unfold fieldCsr fieldRs1 fieldFunct3 fieldRd fieldOpcode
  simp only [BitVec.extractLsb'_append_extractLsb'_eq_extractLsb']
  exact BitVec.extractLsb'_eq_self

/-! ### The bits under the mask of a row -/

/-- The mask of every row but sret keeps funct3 and the opcode, and clears the other fields. -/
theorem encodeCsr_and_rowMask (csr : BitVec 12) (rs1 : BitVec 5) (f : BitVec 3) (rd : BitVec 5) :
    encodeCsr csr rs1 f rd &&& 0x707F = encodeCsr 0 0 f 0 := by
  change (csr ++ rs1 ++ f ++ rd ++ (0x73 : BitVec 7)) &&&
    (0#12 ++ 0#5 ++ BitVec.allOnes 3 ++ 0#5 ++ BitVec.allOnes 7) = encodeCsr 0 0 f 0
  simp only [BitVec.and_append, BitVec.and_zero, BitVec.and_allOnes]
  rfl

theorem fieldOpcode_and_rowMask (w : InstrWord) : fieldOpcode (w &&& 0x707F) = fieldOpcode w :=
  BitVec.extractLsb'_and.trans BitVec.and_allOnes

theorem fieldFunct3_and_rowMask (w : InstrWord) : fieldFunct3 (w &&& 0x707F) = fieldFunct3 w :=
  BitVec.extractLsb'_and.trans BitVec.and_allOnes

/-- A row's match is the word of its format whose other fields are zero. -/
theorem and_rowMask_eq_match_iff (w : InstrWord) (f : BitVec 3) :
    w &&& 0x707F = encodeCsr 0 0 f 0 ↔ fieldOpcode w = 0x73 ∧ fieldFunct3 w = f := by
  constructor
  · intro h
    rw [← fieldOpcode_and_rowMask, ← fieldFunct3_and_rowMask, h]
    exact ⟨fieldOpcode_encodeCsr 0 0 f 0, fieldFunct3_encodeCsr 0 0 f 0⟩
  · rintro ⟨hop, rfl⟩
    rw [← encodeCsr_and_rowMask (fieldCsr w) (fieldRs1 w) (fieldFunct3 w) (fieldRd w), encodeCsr_fields w hop]

/-! ### What the decoder answers -/

/-- The opcode SYSTEM passes the length check of R80: its bits 1:0 are 11 and its bits 4:2 are 100. -/
theorem decode_of_system (w : InstrWord) (hop : fieldOpcode w = 0x73) : decode w = decodeSystem w := by
  have hlow : w.extractLsb' 0 2 = (fieldOpcode w).extractLsb' 0 2 :=
    (BitVec.extractLsb'_extractLsb'_of_le (by decide)).symm
  have hmid : w.extractLsb' 2 3 = (fieldOpcode w).extractLsb' 2 3 :=
    (BitVec.extractLsb'_extractLsb'_of_le (by decide)).symm
  rw [decode, hlow, hmid, hop, if_neg (by decide), if_pos rfl]

/-- A word of another opcode is rejected before its funct3 is looked at. -/
theorem decode_of_not_system (w : InstrWord) (hop : fieldOpcode w ≠ 0x73) :
    decode w = .error .not32Bit ∨ decode w = .error .otherOpcode := by
  rw [decode, if_neg hop]
  split
  · exact .inl rfl
  · exact .inr rfl

theorem decode_eq_iff_decodeSystem (w : InstrWord) (r : Except DecodeError Instr) (hlen : r ≠ .error .not32Bit)
    (hother : r ≠ .error .otherOpcode) : decode w = r ↔ fieldOpcode w = 0x73 ∧ decodeSystem w = r := by
  by_cases hop : fieldOpcode w = 0x73
  · rw [decode_of_system w hop]
    exact (and_iff_right hop).symm
  · refine iff_of_false ?_ fun h => hop h.1
    rcases decode_of_not_system w hop with h | h <;> rw [h]
    · exact hlen.symm
    · exact hother.symm

/-- Each branch of the decoder reads the instruction off the fields of the word, so the instruction has the word. -/
theorem encode_of_decodeSystem (w : InstrWord) (i : Instr) (hop : fieldOpcode w = 0x73)
    (h : decodeSystem w = .ok i) : encode i = w := by
  have hfields : ∀ f, fieldFunct3 w = f → encodeCsr (fieldCsr w) (fieldRs1 w) f (fieldRd w) = w := by
    rintro _ rfl
    exact encodeCsr_fields w hop
  unfold decodeSystem at h
  split_ifs at h with h1 h2 h3 h4 h5 h6 h7 hsret <;> obtain rfl := Except.ok.inj h
  · exact hfields 1 h1
  · exact hfields 2 h2
  · exact hfields 3 h3
  · exact hfields 5 h5
  · exact hfields 6 h6
  · exact hfields 7 h7
  · exact hsret.symm

theorem decodeSystem_eq_reservedFunct3_iff (w : InstrWord) :
    decodeSystem w = .error .reservedFunct3 ↔ fieldFunct3 w = 4 := by
  constructor
  · intro h
    unfold decodeSystem at h
    split_ifs at h with h1 h2 h3 h4
    · exact h4
    · exact absurd h (by simp)
  · intro h
    simp [decodeSystem, h]

/-- A row of R83 whose instruction `mk` has the CSR format and the funct3 `f`, which the decoder answers for the words
of that funct3. -/
theorem decode_row_iff (w : InstrWord) (f : BitVec 3) (mk : BitVec 5 → BitVec 12 → BitVec 5 → Instr)
    (hencode : ∀ rd n rs1, encode (mk rd n rs1) = encodeCsr n rs1 f rd)
    (hdecode : fieldFunct3 w = f → decodeSystem w = .ok (mk (fieldRd w) (fieldCsr w) (fieldRs1 w))) :
    (∃ rd n rs1, decode w = .ok (mk rd n rs1)) ↔ w &&& 0x707F = encodeCsr 0 0 f 0 := by
  constructor
  · rintro ⟨rd, n, rs1, h⟩
    obtain ⟨hop, hsystem⟩ := (decode_eq_iff_decodeSystem w _ (by simp) (by simp)).mp h
    rw [← encode_of_decodeSystem w _ hop hsystem, hencode, encodeCsr_and_rowMask]
  · intro h
    obtain ⟨hop, hf⟩ := (and_rowMask_eq_match_iff w f).mp h
    exact ⟨_, _, _, (decode_of_system w hop).trans (hdecode hf)⟩

/-- The row of sret: its mask is the whole word. -/
theorem decode_eq_sret_iff (w : InstrWord) : decode w = .ok .sret ↔ w = 0x10200073 := by
  constructor
  · intro h
    obtain ⟨hop, hsystem⟩ := (decode_eq_iff_decodeSystem w _ (by simp) (by simp)).mp h
    exact (encode_of_decodeSystem w _ hop hsystem).symm
  · rintro rfl
    decide

/-- The reserved row of R83. -/
theorem decode_eq_reservedFunct3_iff (w : InstrWord) :
    decode w = .error .reservedFunct3 ↔ w &&& 0x707F = encodeCsr 0 0 4 0 := by
  rw [decode_eq_iff_decodeSystem w _ (by simp) (by simp), decodeSystem_eq_reservedFunct3_iff, and_rowMask_eq_match_iff]

/-! ### The obligation -/

/-- Settles O3: each CSR row by `decode_row_iff`, the match of the table being the row's format with zero fields. -/
theorem decodeFollowsOpcodeMap : Obligations.DecodeFollowsOpcodeMap := fun w =>
  ⟨decode_row_iff w 1 .csrrw (fun _ _ _ => rfl) fun h => by simp [decodeSystem, h],
    decode_row_iff w 2 .csrrs (fun _ _ _ => rfl) fun h => by simp [decodeSystem, h],
    decode_row_iff w 3 .csrrc (fun _ _ _ => rfl) fun h => by simp [decodeSystem, h],
    decode_row_iff w 5 .csrrwi (fun _ _ _ => rfl) fun h => by simp [decodeSystem, h],
    decode_row_iff w 6 .csrrsi (fun _ _ _ => rfl) fun h => by simp [decodeSystem, h],
    decode_row_iff w 7 .csrrci (fun _ _ _ => rfl) fun h => by simp [decodeSystem, h],
    decode_eq_sret_iff w, decode_eq_reservedFunct3_iff w⟩

end Sys2Proof
end

section
/-! The six CSR instructions (40_csr_instructions.md R101-R106) as two families of R107: the ones that always write and
read unless rd is x0, and the ones that always read and write unless the source field is 0. -/

namespace Sys2Proof.Machine

/-! ### Each instruction in the common order of R100 -/

theorem exec_csrrw (rd rs1 : BitVec 5) (n : BitVec 12) (s : State) :
    exec (.csrrw rd n rs1) s =
      csrExec (encode (.csrrw rd n rs1)) n (rd != 0) true (fun _ => readReg rs1 s) rd s := rfl

theorem exec_csrrs (rd rs1 : BitVec 5) (n : BitVec 12) (s : State) :
    exec (.csrrs rd n rs1) s =
      csrExec (encode (.csrrs rd n rs1)) n true (rs1 != 0) (fun t => t ||| readReg rs1 s) rd s := rfl

theorem exec_csrrc (rd rs1 : BitVec 5) (n : BitVec 12) (s : State) :
    exec (.csrrc rd n rs1) s =
      csrExec (encode (.csrrc rd n rs1)) n true (rs1 != 0) (fun t => t &&& ~~~(readReg rs1 s)) rd s := rfl

theorem exec_csrrwi (rd u : BitVec 5) (n : BitVec 12) (s : State) :
    exec (.csrrwi rd n u) s =
      csrExec (encode (.csrrwi rd n u)) n (rd != 0) true (fun _ => u.setWidth 64) rd s := rfl

theorem exec_csrrsi (rd u : BitVec 5) (n : BitVec 12) (s : State) :
    exec (.csrrsi rd n u) s =
      csrExec (encode (.csrrsi rd n u)) n true (u != 0) (fun t => t ||| u.setWidth 64) rd s := rfl

theorem exec_csrrci (rd u : BitVec 5) (n : BitVec 12) (s : State) :
    exec (.csrrci rd n u) s =
      csrExec (encode (.csrrci rd n u)) n true (u != 0) (fun t => t &&& ~~~(u.setWidth 64)) rd s := rfl

/-! ### Steps 4 to 7 of R100, by what is read and written -/

theorem csrComplete_read_write (c : Csr) (new : Word → Word) (rd : BitVec 5) (s : State) :
    csrComplete c true true new rd s =
      advance (writeReg rd (csrRead c s).1 (csrWrite c (new (csrRead c s).1) (csrRead c s).2)) := rfl

theorem csrComplete_read_only (c : Csr) (new : Word → Word) (rd : BitVec 5) (s : State) :
    csrComplete c true false new rd s = advance (writeReg rd (csrRead c s).1 (csrRead c s).2) := rfl

theorem csrComplete_write_only (c : Csr) (new : Word → Word) (rd : BitVec 5) (s : State) :
    csrComplete c false true new rd s = advance (csrWrite c (new 0) s) := rfl

/-! ### The instructions that always write -/

section
variable (w : InstrWord) (n : BitVec 12) (v : Word) (s : State) (c : Csr) (hc : check s n true = .pass c)
include hc

theorem csrExec_write_reads (rd : BitVec 5) (hrd : rd ≠ 0) :
    csrExec w n (rd != 0) true (fun _ => v) rd s =
      .next (advance (writeReg rd (csrRead c s).1 (csrWrite c v (csrRead c s).2))) := by
  rw [csrExec_pass _ _ _ _ _ _ _ _ hc, bne_iff_ne.mpr hrd, csrComplete_read_write]

/-- R107: with rd = x0 the register is not read, so a read's side effect does not happen. -/
theorem csrExec_write_x0 :
    csrExec w n ((0 : BitVec 5) != 0) true (fun _ => v) 0 s = .next (advance (csrWrite c v s)) := by
  rw [csrExec_pass _ _ _ _ _ _ _ _ hc, bne_self_eq_false, csrComplete_write_only]

end

/-! ### The instructions that always read -/

section
variable (w : InstrWord) (n : BitVec 12) (new : Word → Word) (rd : BitVec 5) (s : State) (c : Csr)

theorem csrExec_read_writes (src : BitVec 5) (hc : check s n true = .pass c) (hsrc : src ≠ 0) :
    csrExec w n true (src != 0) new rd s =
      .next (advance (writeReg rd (csrRead c s).1 (csrWrite c (new (csrRead c s).1) (csrRead c s).2))) := by
  rw [bne_iff_ne.mpr hsrc, csrExec_pass _ _ _ _ _ _ _ _ hc, csrComplete_read_write]

/-- R107: with the source field 0 there is no write attempt, so the check is that of a read. -/
theorem csrExec_read_zero (hc : check s n false = .pass c) :
    csrExec w n true ((0 : BitVec 5) != 0) new rd s =
      .next (advance (writeReg rd (csrRead c s).1 (csrRead c s).2)) := by
  rw [bne_self_eq_false, csrExec_pass _ _ _ _ _ _ _ _ hc, csrComplete_read_only]

end

/-! ### The obligations -/

/-- Settles O7: `csrrw` is of the family that always writes. -/
theorem csrrwCompletes : Obligations.CsrrwCompletes := by
  intro rd rs1 n s
  refine ⟨rfl, fun c hc hrd => ?_, fun c hc => ?_, fun k hk => exec_csr_raises _ n s k rfl hk⟩
  · rw [exec_csrrw, csrExec_write_reads _ _ _ _ _ hc _ hrd]
  · rw [exec_csrrw, csrExec_write_x0 _ _ _ _ _ hc]

/-- Settles O8: `csrrs` is of the family that always reads. -/
theorem csrrsCompletes : Obligations.CsrrsCompletes := by
  intro rd rs1 n s
  refine ⟨rfl, fun c hc hrs1 => ?_, fun c hc => ?_, fun k hk => exec_csr_raises _ n s k rfl hk⟩
  · rw [exec_csrrs, csrExec_read_writes _ _ _ _ _ _ _ hc hrs1]
  · rw [exec_csrrs, csrExec_read_zero _ _ _ _ _ _ hc]

/-- Settles O9: `csrrc` is of the family that always reads. -/
theorem csrrcCompletes : Obligations.CsrrcCompletes := by
  intro rd rs1 n s
  refine ⟨rfl, fun c hc hrs1 => ?_, fun c hc => ?_, fun k hk => exec_csr_raises _ n s k rfl hk⟩
  · rw [exec_csrrc, csrExec_read_writes _ _ _ _ _ _ _ hc hrs1]
  · rw [exec_csrrc, csrExec_read_zero _ _ _ _ _ _ hc]

/-- Settles O10: `csrrwi` is of the family that always writes. -/
theorem csrrwiCompletes : Obligations.CsrrwiCompletes := by
  intro rd u n s
  refine ⟨rfl, fun c hc hrd => ?_, fun c hc => ?_, fun k hk => exec_csr_raises _ n s k rfl hk⟩
  · rw [exec_csrrwi, csrExec_write_reads _ _ _ _ _ hc _ hrd]
  · rw [exec_csrrwi, csrExec_write_x0 _ _ _ _ _ hc]

/-- Settles O11: `csrrsi` is of the family that always reads. -/
theorem csrrsiCompletes : Obligations.CsrrsiCompletes := by
  intro rd u n s
  refine ⟨rfl, fun c hc hu => ?_, fun c hc => ?_, fun k hk => exec_csr_raises _ n s k rfl hk⟩
  · rw [exec_csrrsi, csrExec_read_writes _ _ _ _ _ _ _ hc hu]
  · rw [exec_csrrsi, csrExec_read_zero _ _ _ _ _ _ hc]

/-- Settles O12: `csrrci` is of the family that always reads. -/
theorem csrrciCompletes : Obligations.CsrrciCompletes := by
  intro rd u n s
  refine ⟨rfl, fun c hc hu => ?_, fun c hc => ?_, fun k hk => exec_csr_raises _ n s k rfl hk⟩
  · rw [exec_csrrci, csrExec_read_writes _ _ _ _ _ _ _ hc hu]
  · rw [exec_csrrci, csrExec_read_zero _ _ _ _ _ _ hc]

end Sys2Proof.Machine
end

section
/-! Accesses of the guest by supervisor numbers that clause 4 of the check stops (41_vs_csr_access.md R120): sip and sie
under hvictl.VTI = 1 (R134), and sireg on the priority array (R128). -/

namespace Sys2Proof.Machine

/-! ### The check on a supervisor number in VS-mode -/

/-- R121: in VS-mode a supervisor number reaches its VS register, so clause 4 decides on that register. -/
theorem csrReached_supNumber (s : State) (c : Csr) (n : BitVec 12) (hm : s.mode = .VS) (hs : supNumber c = some n) :
    csrReached s.mode n = some c := by
  rw [csrReached, csrNamed_supNumber c n hs, hm]
  rfl

/-- Supervisor numbers pass the general clauses 1 to 3 of R120 in VS-mode, but for a write of stopi; clause 4 raising
an exception, the check raises it. -/
theorem check_supNumber_raises (s : State) (c : Csr) (n : BitVec 12) (w : Bool) (k : ExcKind) (hm : s.mode = .VS)
    (hs : supNumber c = some n) (hp : csrPresent s.cfg c = true) (ho : c ≠ .vstopi)
    (hx : registerException s c (vtiNamed s.cfg n c) w = some k) : check s n w = .raises k := by
  have hexists : csrExists s.cfg n = true := (csrExists_supNumber s.cfg c n hs).trans hp
  have hwritable : csrReadOnly n = false := (csrReadOnly_supNumber c n hs).trans (decide_eq_false ho)
  have hlevel : levelException s.mode (csrLevel n) = none := by
    rw [csrLevel_supNumber c n hs, hm]
    rfl
  exact check_of_register s n w c k hexists (fun _ => hwritable) hlevel (csrReached_supNumber s c n hm hs) hx

/-! ### sip and sie under hvictl.VTI = 1 -/

theorem fileException_of_isIntrReg (s : State) (c : Csr) (h : isIntrReg c = true) : fileException s c = none := by
  unfold fileException
  split
  case h_1 => cases h
  case h_2 => cases h
  case h_3 => rfl

/-- R134: the exception depends neither on the direction of the access nor on VTI_WRITE_TRAP_CSRS. -/
theorem registerException_of_isIntrReg (s : State) (c : Csr) (named w : Bool) (h : isIntrReg c = true)
    (hm : s.mode = .VS) (hv : s.hvictl.vti = true) :
    registerException s c named w = some .virtualInstruction := by
  have htraps : vtiTraps s c named w = true := by simp [vtiTraps, hm, hv, h]
  simp only [registerException, fileException_of_isIntrReg s c h, htraps, if_true]

/-- The numbers of R134 and the registers behind them: the halves are there with XLEN = 32 only (R122). -/
theorem exists_intrReg_of_number (cfg : Config) (n : BitVec 12)
    (h : n = 0x144 ∨ n = 0x104 ∨ (cfg.xlen = .rv32 ∧ (n = 0x154 ∨ n = 0x114))) :
    ∃ c, supNumber c = some n ∧ isIntrReg c = true ∧ csrPresent cfg c = true := by
  rcases h with rfl | rfl | ⟨hx, rfl | rfl⟩
  · exact ⟨.vsip, rfl, rfl, rfl⟩
  · exact ⟨.vsie, rfl, rfl, rfl⟩
  · exact ⟨.vsiph, rfl, rfl, beq_iff_eq.mpr hx⟩
  · exact ⟨.vsieh, rfl, rfl, beq_iff_eq.mpr hx⟩

/-! ### sireg on the priority array -/

/-- R128: the guest's select value lies in the range of the priority array, which a guest does not have. -/
theorem vsiregException_iprio_guest (s : State) (hm : s.mode = .VS) (hlo : 0x30 ≤ s.vsiselect.toNat)
    (hhi : s.vsiselect.toNat ≤ 0x3F) : vsiregException s = some .virtualInstruction := by
  rw [vsiregException, if_pos ⟨hlo, hhi⟩, if_pos hm]

/-! ### The obligations -/

/-- Settles O21: each of the numbers reaches one of vsip, vsie and their halves, on which clause 4 raises whether or
not the access writes. -/
theorem vtiTrapsInterruptRegisters : Obligations.VtiTrapsInterruptRegisters := by
  intro i n s hi hm hv hn
  obtain ⟨c, hs, hintr, hp⟩ := exists_intrReg_of_number s.cfg n hn
  have ho : c ≠ .vstopi := by
    rintro rfl
    cases hintr
  exact exec_csr_raises i n s _ hi
    (check_supNumber_raises s c n _ _ hm hs hp ho (registerException_of_isIntrReg s c _ _ hintr hm hv))

/-- Settles O23: sireg reaches vsireg, on which the check raises by `vsiregException_iprio_guest`. -/
theorem guestIprioArrayTraps : Obligations.GuestIprioArrayTraps := by
  intro i s hi hm hlo hhi
  exact exec_csr_raises i 0x151 s _ hi
    (check_reachesBy_raises s .vsireg _ 0x151 0x151 _ rfl (.inr ⟨hm, rfl⟩) rfl (fun h => by cases h)
      (vsiregException_iprio_guest s hm hlo hhi))

end Sys2Proof.Machine
end

section
/-! The external candidate of vstopi (60_exceptions.md R151-R153): when there is one, and which of the three sources gives
its priority number. -/

namespace Sys2Proof.Machine

/-! ### The conditions of the three cases -/

/-- R12, R151: the guest external interrupt number names a guest interrupt file. -/
theorem vgeinValid_iff (s : State) : vgeinValid s = true ↔ 1 ≤ s.vgein.toNat ∧ s.vgein.toNat ≤ s.cfg.geilen := by
  rw [vgeinValid, Bool.and_eq_true, decide_eq_true_iff, decide_eq_true_iff]

/-- R151's condition: the current file has an interrupt to report. -/
def fileReports (s : State) : Prop :=
  1 ≤ s.vgein.toNat ∧ s.vgein.toNat ≤ s.cfg.geilen ∧ topei s.cfg (currentFile s) ≠ 0

/-- R152's condition: there is no current file, and hvictl gives interrupt 9 a priority number. -/
def hvictlReports (s : State) : Prop := s.vgein = 0 ∧ s.hvictl.iid = 9 ∧ s.hvictl.iprio ≠ 0

theorem fileReports_iff (s : State) :
    fileReports s ↔ (vgeinValid s && topei s.cfg (currentFile s) != 0) = true := by
  rw [fileReports, Bool.and_eq_true, vgeinValid_iff, bne_iff_ne, and_assoc]

theorem hvictlReports_iff (s : State) :
    hvictlReports s ↔ (s.vgein == 0 && s.hvictl.iid == 9 && s.hvictl.iprio != 0) = true := by
  rw [hvictlReports, Bool.and_eq_true, Bool.and_eq_true, beq_iff_eq, beq_iff_eq, bne_iff_ne, and_assoc]

/-! ### The candidate in each case -/

/-- Interrupt 9 is not pending or not enabled. -/
theorem externalCandidate_of_not_ready (s : State)
    (h : (vsip s).getLsbD 9 = false ∨ (vsie s).getLsbD 9 = false) : externalCandidate s = none := by
  have hboth : ((vsip s).getLsbD 9 && (vsie s).getLsbD 9) = false := Bool.and_eq_false_iff.mpr h
  rw [externalCandidate, if_neg (ne_true_of_eq_false hboth)]

section
variable (s : State) (hp : (vsip s).getLsbD 9 = true) (he : (vsie s).getLsbD 9 = true)
include hp he

/-- R151: the priority number of vstopei. -/
theorem externalCandidate_of_fileReports (hf : fileReports s) :
    externalCandidate s =
      some { iid := 9, prio := ((topei s.cfg (currentFile s)).extractLsb' 0 11).toNat, hi := false } := by
  rw [externalCandidate, if_pos (Bool.and_eq_true_iff.mpr ⟨hp, he⟩), if_pos ((fileReports_iff s).mp hf)]

/-- R152: the priority number of hvictl. -/
theorem externalCandidate_of_hvictlReports (hf : ¬ fileReports s) (hh : hvictlReports s) :
    externalCandidate s = some { iid := 9, prio := s.hvictl.iprio.toNat, hi := false } := by
  rw [externalCandidate, if_pos (Bool.and_eq_true_iff.mpr ⟨hp, he⟩), if_neg (mt (fileReports_iff s).mpr hf),
    if_pos ((hvictlReports_iff s).mp hh)]

/-- R153: neither of the two sources applies. -/
theorem externalCandidate_of_no_report (hf : ¬ fileReports s) (hh : ¬ hvictlReports s) :
    externalCandidate s = some { iid := 9, prio := 256, hi := false } := by
  rw [externalCandidate, if_pos (Bool.and_eq_true_iff.mpr ⟨hp, he⟩), if_neg (mt (fileReports_iff s).mpr hf),
    if_neg (mt (hvictlReports_iff s).mpr hh)]

end

/-! ### The obligation -/

/-- Settles O42, by the three cases in the order of R151-R153; each later one has the denial of those before it. -/
theorem externalCandidateByThreeCases : Obligations.ExternalCandidateByThreeCases := by
  refine fun s => ⟨externalCandidate_of_not_ready s, fun hp he => ?_⟩
  by_cases hf : fileReports s
  · exact ⟨_, _, externalCandidate_of_fileReports s hp he hf, (if_pos hf).symm⟩
  · by_cases hh : hvictlReports s
    · exact ⟨_, _, externalCandidate_of_hvictlReports s hp he hf hh, ((if_neg hf).trans (if_pos hh)).symm⟩
    · exact ⟨_, _, externalCandidate_of_no_report s hp he hf hh, ((if_neg hf).trans (if_neg hh)).symm⟩

end Sys2Proof.Machine
end

section
/-! The encoder and the decoder as two directions of one correspondence (30_encoding.md R80-R83). -/

namespace Sys2Proof

/-! ### Words of the CSR format -/

/-- The decoder reads from a word of the CSR format the row of its funct3, with the fields it was made of. -/
theorem decode_encodeCsr (csr : BitVec 12) (rs1 : BitVec 5) (f : BitVec 3) (rd : BitVec 5) (i : Instr)
    (hrow : decodeSystem (encodeCsr csr rs1 f rd) = .ok i) : decode (encodeCsr csr rs1 f rd) = .ok i := by
  rw [decode_of_system _ (fieldOpcode_encodeCsr csr rs1 f rd), hrow]

/-- R81-R83, from the word: each CSR row by its funct3, sret by its one word. -/
theorem decode_encode (i : Instr) : decode (encode i) = .ok i := by
  cases i
  case sret => exact (decode_eq_sret_iff _).mpr rfl
  all_goals
    exact decode_encodeCsr _ _ _ _ _ (by
      simp [decodeSystem, fieldFunct3_encodeCsr, fieldRd_encodeCsr, fieldCsr_encodeCsr, fieldRs1_encodeCsr])

/-! ### Words as bytes -/

theorem decodeBytes_encodeBytes_append (i : Instr) (rest : List Byte) :
    decodeBytes (encodeBytes i ++ rest) = .ok (i, rest) := by
  simp only [encodeBytes, List.cons_append, List.nil_append, decodeBytes, wordOfBytes_byteOfWord, decode_encode]

/-! ### The obligations -/

/-- Settles O1: the word by `decode_encode`, and its four bytes make the word again. -/
theorem decodeEncodeRoundTrip : Obligations.DecodeEncodeRoundTrip :=
  fun i _ => ⟨decode_encode i, decodeBytes_encodeBytes_append i⟩

/-- Settles O2: an answer of the decoder comes from the SYSTEM rows, whose fields fill the word. -/
theorem encodeDecodeRoundTrip : Obligations.EncodeDecodeRoundTrip := fun w i h =>
  have ⟨hop, hsystem⟩ := (decode_eq_iff_decodeSystem w _ (by simp) (by simp)).mp h
  encode_of_decodeSystem w i hop hsystem

/-- Settles O4: each word is the word of its instruction, and so decodes to it. -/
theorem writtenWordsDecode : Obligations.WrittenWordsDecode :=
  ⟨decode_encode (.csrrw 6 0x609 5), decode_encode (.csrrs 7 0xEB0 0), decode_encode (.csrrc 6 0x645 5),
    decode_encode (.csrrwi 0 0x250 16), decode_encode (.csrrsi 0 0x100 2), decode_encode (.csrrci 0 0x144 2),
    decode_encode .sret⟩

end Sys2Proof
end

section
/-! The integer registers (10_state.md R53). -/

namespace Sys2Proof.Machine

theorem writeReg_zero (v : Word) (s : State) : writeReg 0 v s = s := if_pos rfl

/-- Settles O13, by the rules of a register read and a register write. -/
theorem registerWriteReadsBack : Obligations.RegisterWriteReadsBack := fun r q v s m =>
  ⟨readReg_zero s, writeReg_zero v s, readReg_writeReg_same r v s, readReg_writeReg_other r q v s,
    readReg_congr r _ _ (State.setMode_x s m)⟩

end Sys2Proof.Machine
end

section
/-! What the bits of vsip, vsie and vstopi are made of (10_state.md R26-R34, 60_exceptions.md R150): states that agree on
it read the same. -/

namespace Sys2Proof.Machine

/-- The storage behind hip and vsip. -/
structure SamePending (t s : State) : Prop where
  cfg : t.cfg = s.cfg
  vgein : t.vgein = s.vgein
  files : t.files = s.files
  hideleg : t.hideleg = s.hideleg
  hvien : t.hvien = s.hvien
  hvip : t.hvip = s.hvip
  sip : t.sip = s.sip
  vstipTimer : t.vstipTimer = s.vstipTimer
  vseipPlatform : t.vseipPlatform = s.vseipPlatform

/-- The storage behind vsie. -/
structure SameEnabled (t s : State) : Prop where
  hideleg : t.hideleg = s.hideleg
  hvien : t.hvien = s.hvien
  hie : t.hie = s.hie
  sie : t.sie = s.sie
  vsieOwn : t.vsieOwn = s.vsieOwn

section
variable {t s : State}

theorem vgeinValid_congr (hc : t.cfg = s.cfg) (hg : t.vgein = s.vgein) : vgeinValid t = vgeinValid s := by
  rw [vgeinValid, vgeinValid, hc, hg]

theorem fileAt_congr (hf : t.files = s.files) (g : Nat) : fileAt t g = fileAt s g := by
  rw [fileAt, fileAt, hf]

theorem currentFile_congr (hg : t.vgein = s.vgein) (hf : t.files = s.files) : currentFile t = currentFile s := by
  rw [currentFile, currentFile, hg, fileAt_congr hf]

theorem SamePending.hip10 (h : SamePending t s) : hip10 t = hip10 s := by
  rw [Machine.hip10, Machine.hip10, h.cfg, h.hvip, h.vseipPlatform, vgeinValid_congr h.cfg h.vgein,
    currentFile_congr h.vgein h.files]

theorem SamePending.hip6 (h : SamePending t s) : hip6 t = hip6 s := by
  rw [Machine.hip6, Machine.hip6, timerSignal, timerSignal, h.cfg, h.hvip, h.vstipTimer]

theorem SamePending.hip2 (h : SamePending t s) : hip2 t = hip2 s := by
  rw [Machine.hip2, Machine.hip2, h.hvip]

theorem SamePending.hipValue (h : SamePending t s) : hipValue t = hipValue s := by
  rw [Machine.hipValue, Machine.hipValue, h.hip10, h.hip6, h.hip2]

theorem delegated_congr (hd : t.hideleg = s.hideleg) : delegated t = delegated s := by
  rw [delegated, delegated, hd]

theorem virtualized_congr (hd : t.hideleg = s.hideleg) (hv : t.hvien = s.hvien) : virtualized t = virtualized s := by
  rw [virtualized, virtualized, hd, hv]

theorem SamePending.vsip (h : SamePending t s) : vsip t = vsip s := by
  rw [Machine.vsip, Machine.vsip, h.hip10, h.hip6, h.hip2, h.hideleg, h.hvip, h.sip, delegated_congr h.hideleg,
    virtualized_congr h.hideleg h.hvien]

theorem SameEnabled.vsie (h : SameEnabled t s) : vsie t = vsie s := by
  rw [Machine.vsie, Machine.vsie, h.hideleg, h.hie, h.sie, h.vsieOwn, delegated_congr h.hideleg,
    virtualized_congr h.hideleg h.hvien]

theorem hviprio_congr (h1 : t.hviprio1 = s.hviprio1) (h2 : t.hviprio2 = s.hviprio2) : hviprio t = hviprio s := by
  funext i
  rw [hviprio, hviprio, h1, h2]

end

/-! ### vstopi from its inputs -/

section
variable {t s : State} (hcfg : t.cfg = s.cfg) (hp : vsip t = vsip s) (he : vsie t = vsie s) (hh : t.hvictl = s.hvictl)
include hcfg hp he hh

theorem externalCandidate_congr (hg : t.vgein = s.vgein) (hf : currentFile t = currentFile s) :
    externalCandidate t = externalCandidate s := by
  rw [externalCandidate, externalCandidate, hcfg, hp, he, hg, hf, hh, vgeinValid_congr hcfg hg]

theorem majorCandidate_congr (h1 : t.hviprio1 = s.hviprio1) (h2 : t.hviprio2 = s.hviprio2) :
    majorCandidate t = majorCandidate s := by
  have hready : majorReady t = majorReady s := by
    funext i
    rw [majorReady, majorReady, hp, he]
  rw [majorCandidate, majorCandidate, hcfg, hh, hready, hviprio_congr h1 h2]

theorem vstopi_congr (hg : t.vgein = s.vgein) (hf : currentFile t = currentFile s) (h1 : t.hviprio1 = s.hviprio1)
    (h2 : t.hviprio2 = s.hviprio2) : vstopi t = vstopi s := by
  rw [vstopi, vstopi, winner, winner, externalCandidate_congr hcfg hp he hh hg hf,
    majorCandidate_congr hcfg hp he hh h1 h2, hh]

end

/-- Settles O47, by the candidates that vstopi chooses from. -/
theorem vstopiDependsOnItsInputs : Obligations.VstopiDependsOnItsInputs :=
  fun _ _ hcfg hp he hg hf hh h1 h2 => vstopi_congr hcfg hp he hh hg hf h1 h2

/-- The storage behind vsip, vsie, hvictl and the priority numbers: all of what vstopi is made of. -/
structure SameTop (t s : State) : Prop where
  pending : SamePending t s
  enabled : SameEnabled t s
  hvictl : t.hvictl = s.hvictl
  hviprio1 : t.hviprio1 = s.hviprio1
  hviprio2 : t.hviprio2 = s.hviprio2

theorem SameTop.vstopi {t s : State} (h : SameTop t s) : vstopi t = vstopi s :=
  vstopi_congr h.pending.cfg h.pending.vsip h.enabled.vsie h.hvictl h.pending.vgein
    (currentFile_congr h.pending.vgein h.pending.files) h.hviprio1 h.hviprio2

end Sys2Proof.Machine
end

section
/-! Whose turn it is, and what a turn of the hart does at a boundary (60_exceptions.md R165-R167, R171, R172). -/

namespace Sys2Proof.Machine

/-! ### The turn the agenda names -/

theorem setAgenda_self (s : State) : s.setAgenda s.agenda = s := rfl

/-- With no turn left the hart moves as at a turn `hart` (assumption 4). -/
theorem step_undelayed (s : State) (rest : List Turn) (h : (s.agenda = [] ∧ rest = []) ∨ s.agenda = .hart :: rest) :
    step s = hartTurn false (s.setAgenda rest) := by
  rcases h with ⟨ha, rfl⟩ | ha
  · rw [step, ha]
    exact congrArg (hartTurn false) (by rw [← ha, setAgenda_self])
  · rw [step, ha]

theorem step_delay (s : State) (rest : List Turn) (h : s.agenda = .delay :: rest) :
    step s = hartTurn true (s.setAgenda rest) := by
  rw [step, h]

theorem step_env (s : State) (e : Event) (rest : List Turn) (h : s.agenda = .env e :: rest) :
    step s = applyEvent e (s.setAgenda rest) := by
  rw [step, h]

/-! ### A turn of the hart -/

theorem hartTurn_ended (d : Bool) (s : State) (r : TrapRecord) (h : s.outcome = some r) :
    hartTurn d s = .fault (.runEnded r) := by
  rw [hartTurn, h]

theorem hartTurn_takes (s : State) (ho : s.outcome = none) (hi : interruptTaken s = true) :
    hartTurn false s = .next (takeInterrupt s) := by
  rw [hartTurn, ho]
  exact if_pos ⟨rfl, hi⟩

theorem hartTurn_executes (d : Bool) (s : State) (ho : s.outcome = none) (hi : d = true ∨ interruptTaken s = false) :
    hartTurn d s = instrTurn s := by
  rw [hartTurn, ho]
  refine if_neg ?_
  rintro ⟨rfl, ht⟩
  rcases hi with h | h
  · cases h
  · rw [ht] at h
    cases h

theorem instrTurn_undecoded (s : State) (w : InstrWord) (e : DecodeError) (hf : fetch s = .word w)
    (he : decode w = .error e) : instrTurn s = undecoded e w s := by
  rw [instrTurn, hf]
  simp only [he]

/-- The pc and the memory are those of `s`: the agenda is no part of either. -/
theorem instrTurn_setAgenda (s : State) (w : InstrWord) (i : Instr) (a : List Turn) (hp : s.pc &&& 3 = 0)
    (hw : Memory.readWord s.mem s.pc.toNat = some w) (hd : decode w = .ok i) :
    instrTurn (s.setAgenda a) = exec i (s.setAgenda a) :=
  instrTurn_decode _ w i (fetch_word (s.setAgenda a) w hp hw) hd

/-! ### Modes without the trap of R165 -/

theorem interruptTaken_of_not_interruptible (s : State) (h : interruptible s = false) : interruptTaken s = false := by
  rw [interruptTaken, h, Bool.false_and]

/-- R165: M, HS and U, and VS with SIE = 0. -/
theorem interruptible_outside_guest (s : State)
    (h : s.mode = .M ∨ s.mode = .HS ∨ s.mode = .U ∨ (s.mode = .VS ∧ s.vsSIE = false)) : interruptible s = false := by
  rcases h with h | h | h | ⟨h, hs⟩
  · simp [interruptible, h]
  · simp [interruptible, h]
  · simp [interruptible, h]
  · simp [interruptible, h, hs]

/-- R165: VS with SIE = 1, and VU. -/
theorem interruptible_iff (s : State) : interruptible s = true ↔ (s.mode = .VS ∧ s.vsSIE = true) ∨ s.mode = .VU := by
  simp [interruptible]

theorem interruptTaken_iff (s : State) :
    interruptTaken s = true ↔ ((s.mode = .VS ∧ s.vsSIE = true) ∨ s.mode = .VU) ∧ vstopi s ≠ 0 := by
  rw [interruptTaken, Bool.and_eq_true, interruptible_iff, bne_iff_ne]

/-! ### Words that decode to no instruction -/

theorem fieldOpcode_toNat (w : InstrWord) : (fieldOpcode w).toNat = (w &&& 0x7F).toNat := by
  rw [fieldOpcode, BitVec.extractLsb'_toNat, BitVec.toNat_and, Nat.shiftRight_zero]
  exact (Nat.and_two_pow_sub_one_eq_mod w.toNat 7).symm

/-- The opcode field is what the low seven bits hold. -/
theorem and_opcodeMask_of_system (w : InstrWord) (h : fieldOpcode w = 0x73) : w &&& 0x7F = 0x73 := by
  apply BitVec.eq_of_toNat_eq
  rw [← fieldOpcode_toNat, h]
  rfl

/-! ### The obligations -/

/-- Settles O5: the turn that comes next, no trap taken at its boundary, is the instruction's. -/
theorem stepRunsDecodedInstruction : Obligations.StepRunsDecodedInstruction := by
  intro s w i ho hp hw hd
  refine ⟨fun ha hi => ?_, fun rest ha hi => ?_, fun rest ha => ?_⟩
  · rw [step_undelayed s [] (.inl ⟨ha, rfl⟩), hartTurn_executes _ (s.setAgenda []) ho (.inr hi),
      instrTurn_setAgenda s w i _ hp hw hd, ← ha, setAgenda_self]
  · rw [step_undelayed s rest (.inr ha), hartTurn_executes _ (s.setAgenda rest) ho (.inr hi),
      instrTurn_setAgenda s w i _ hp hw hd]
  · rw [step_delay s rest ha, hartTurn_executes _ (s.setAgenda rest) ho (.inl rfl),
      instrTurn_setAgenda s w i _ hp hw hd]

/-- Settles O6: the reserved row decodes to its own error, a word of another opcode to one of the two before it. -/
theorem reservedFunct3Raises : Obligations.ReservedFunct3Raises := by
  intro s w ho ha hi hp hw
  have hturn : ∀ e, decode w = .error e → step s = undecoded e w s := fun e he => by
    rw [step_undelayed s [] (.inl ⟨ha, rfl⟩), ← ha, setAgenda_self, hartTurn_executes _ s ho (.inr hi),
      instrTurn_undecoded s w e (fetch_word s w hp hw) he]
  refine ⟨fun h => ?_, fun h => ?_⟩
  · rw [hturn _ ((decode_eq_reservedFunct3_iff w).mpr h)]
    rfl
  · rcases decode_of_not_system w (fun e => h (and_opcodeMask_of_system w e)) with he | he
    · exact .inr (hturn _ he)
    · exact .inl (hturn _ he)

/-- Settles O49: outside the guest's interruptible modes the boundary takes no trap. -/
theorem noVsInterruptOutsideGuest : Obligations.NoVsInterruptOutsideGuest := by
  intro s w i rest ho ha hm hp hw hd
  have hi : interruptTaken s = false := interruptTaken_of_not_interruptible s (interruptible_outside_guest s hm)
  rw [step_undelayed s rest ha, hartTurn_executes _ (s.setAgenda rest) ho (.inr hi),
    instrTurn_setAgenda s w i _ hp hw hd]

end Sys2Proof.Machine
end

section
/-! The trap into VS-mode and the returns (60_exceptions.md R165, R168, R171, R176, R177). -/

namespace Sys2Proof.Machine

/-! ### The trap entry -/

section
variable (interrupt : Bool) (code : Nat) (tval : Word) (s : State)

theorem trapToVS_vsepc : (trapToVS interrupt code tval s).vsepc = s.pc := by
  obtain ⟨d, h⟩ := trapToVS_eq interrupt code tval s
  simp [h, enterVS]

theorem trapToVS_vsSPP : (trapToVS interrupt code tval s).vsSPP = decide (s.mode = .VS) := by
  obtain ⟨d, h⟩ := trapToVS_eq interrupt code tval s
  simp [h, enterVS]

theorem trapToVS_vsSPIE : (trapToVS interrupt code tval s).vsSPIE = s.vsSIE := by
  obtain ⟨d, h⟩ := trapToVS_eq interrupt code tval s
  simp [h, enterVS]

theorem trapToVS_outside : (trapToVS interrupt code tval s).outside = s.outside := by
  obtain ⟨d, h⟩ := trapToVS_eq interrupt code tval s
  simp [h, enterVS]

/-- R165: nothing that vstopi is made of changes. -/
theorem trapToVS_sameTop : SameTop (trapToVS interrupt code tval s) s := by
  obtain ⟨d, h⟩ := trapToVS_eq interrupt code tval s
  rw [h]
  constructor
  case pending => constructor <;> simp [enterVS]
  case enabled => constructor <;> simp [enterVS]
  all_goals simp [enterVS]

end

/-- R168 in the order of the statement: the draw, if there is one, counted last. -/
theorem enterVS_drawn (handler cause tval : Word) (d : Nat) (s : State) :
    enterVS handler (((s.setDraws d).setVscause cause).setVstval tval) =
      ((((((((s.setVsepc s.pc).setVscause cause).setVstval tval).setVsSPP (decide (s.mode = .VS))).setVsSPIE
        s.vsSIE).setVsSIE false).setMode .VS).setPc handler).setDraws d := by
  cases s
  rfl

/-! ### The handler's address -/

/-- The two low bits being zero, the base is the whole of vstvec. -/
theorem and_not_three_of_direct (v : Word) (h : v &&& 3 = 0) : v &&& ~~~3 = v := by
  have hsplit : (v &&& 3) ||| (v &&& ~~~3) = v := by
    rw [← BitVec.and_or_distrib_left, BitVec.or_not_self, BitVec.and_allOnes]
  rw [h] at hsplit
  exact BitVec.zero_or.symm.trans hsplit

theorem vsHandler_direct (interrupt : Bool) (code : Nat) (s : State) (h : s.vstvec &&& 3 = 0) :
    (vsHandler interrupt code s).1 = s.vstvec &&& ~~~3 := by
  rw [vsHandler, if_pos (.inl h)]

theorem vsHandler_vectored (code : Nat) (s : State) (h : s.vstvec &&& 3 = 1) :
    (vsHandler true code s).1 = ((s.vstvec &&& ~~~3) + BitVec.ofNat 64 (4 * code)) &&& s.cfg.xmask := by
  have hne : ¬(s.vstvec &&& 3 = 0 ∨ (s.vstvec &&& 3 = 1 ∧ true = false)) := by rw [h]; decide
  rw [vsHandler, if_neg hne, if_pos h, BitVec.ofNat_mul]
  rfl

/-- An exception goes to the base in vectored mode too (assumption 16). -/
theorem vsHandler_exception (code : Nat) (s : State) (h : s.vstvec &&& 3 = 0 ∨ s.vstvec &&& 3 = 1) :
    (vsHandler false code s).1 = s.vstvec &&& ~~~3 := by
  rw [vsHandler, if_pos (h.imp_right fun h1 => ⟨h1, rfl⟩)]

/-! ### sret by mode -/

section
variable (s : State)

theorem execSret_guest (hm : s.mode = .VS) (hv : s.outside.hstatusVTSR = false) :
    exec .sret s = .next (returnFromVS s) := by
  simp [exec, execSret, hm, hv]

theorem execSret_guest_trapped (hm : s.mode = .VS) (hv : s.outside.hstatusVTSR = true) :
    exec .sret s = .next (raise .virtualInstruction (encode .sret) s) := by
  simp [exec, execSret, hm, hv]

theorem execSret_guest_user (hm : s.mode = .VU) :
    exec .sret s = .next (raise .virtualInstruction (encode .sret) s) := by
  simp [exec, execSret, hm]

theorem execSret_user (hm : s.mode = .U) : exec .sret s = .next (raise .illegalInstruction (encode .sret) s) := by
  simp [exec, execSret, hm]

theorem execSret_hypervisor (hm : s.mode = .HS ∨ s.mode = .M) : exec .sret s = .next (returnFromHS s) := by
  rcases hm with hm | hm <;> simp [exec, execSret, hm]

end

theorem hypervisorMode_iff (s : State) : hypervisorMode s = true ↔ s.mode = .HS ∨ s.mode = .M := by
  simp [hypervisorMode]

/-- A return from VS level reaches nothing that vstopi is made of. -/
theorem returnFromVS_sameTop (s : State) : SameTop (returnFromVS s) s := by
  constructor
  case pending => constructor <;> simp [returnFromVS]
  case enabled => constructor <;> simp [returnFromVS]
  all_goals simp [returnFromVS]

/-! ### The obligations -/

/-- Settles O48: the turn is `takeInterrupt`, and `trapToVS_eq` gives its whole state. -/
theorem interruptTrapEntersVsMode : Obligations.InterruptTrapEntersVsMode := by
  intro s rest ho ha hv hm
  have hi : interruptTaken s = true := (interruptTaken_iff s).mpr ⟨hm, hv⟩
  have hdirect := vsHandler_direct true (vstopiIid (vstopi s)) (s.setAgenda rest)
  have hvectored := vsHandler_vectored (vstopiIid (vstopi s)) (s.setAgenda rest)
  obtain ⟨d, hd⟩ := trapToVS_eq true (vstopiIid (vstopi s)) 0 (s.setAgenda rest)
  rw [enterVS_drawn] at hd
  refine ⟨_, d, (step_undelayed s rest ha).trans ((hartTurn_takes (s.setAgenda rest) ho hi).trans
    (congrArg Host.Outcome.next hd)), ?_⟩
  exact ⟨rfl, rfl, rfl, rfl, rfl, rfl, rfl, fun h => (hdirect h).trans (and_not_three_of_direct _ h), hvectored, rfl⟩

/-- Settles O50: none of what vstopi is made of changes at the entry. -/
theorem trapLeavesInterruptPending : Obligations.TrapLeavesInterruptPending := fun s =>
  have h : SameTop (takeInterrupt s) s := trapToVS_sameTop _ _ _ s
  ⟨h.vstopi, h.pending.vsip, h.pending.hvip, h.hvictl, currentFile_congr h.pending.vgein h.pending.files⟩

/-- Settles O51, by the mode. -/
theorem sretReturnsByMode : Obligations.SretReturnsByMode := by
  refine fun s => ⟨execSret_guest s, execSret_guest_trapped s, execSret_guest_user s, execSret_user s, fun hm hv => ?_⟩
  refine ⟨_, execSret_hypervisor s hm, rfl, ?_⟩
  change (Outside.returnMode s.outside) = .VS ∨ Outside.returnMode s.outside = .VU
  rw [Outside.returnMode, if_pos hv]
  split
  · exact .inl rfl
  · exact .inr rfl

/-- Settles O52: the return of the H extension, written out. -/
theorem sretInHypervisorModes : Obligations.SretInHypervisorModes := fun s hm =>
  execSret_hypervisor s ((hypervisorMode_iff s).mp hm)

/-- The mode and SIE that the trap saved are those the return brings back. -/
theorem returnFromVS_takeInterrupt (s : State) (h : interruptible s = true) :
    (returnFromVS (takeInterrupt s)).pc = s.pc ∧ (returnFromVS (takeInterrupt s)).mode = s.mode ∧
      (returnFromVS (takeInterrupt s)).vsSIE = s.vsSIE := by
  refine ⟨by simp [returnFromVS, takeInterrupt, trapToVS_vsepc], ?_,
    by simp [returnFromVS, takeInterrupt, trapToVS_vsSPIE]⟩
  have hmode : (returnFromVS (takeInterrupt s)).mode = if decide (s.mode = .VS) then .VS else .VU := by
    simp [returnFromVS, takeInterrupt, trapToVS_vsSPP]
  rw [hmode]
  rcases (interruptible_iff s).mp h with ⟨hm, -⟩ | hm <;> rw [hm] <;> rfl

/-- Settles O53: pc, mode and SIE come back, and vstopi was never touched. -/
theorem sretUndoesInterruptTrap : Obligations.SretUndoesInterruptTrap := by
  intro s hv ht
  obtain ⟨hm, hne⟩ := (interruptTaken_iff s).mp ht
  obtain ⟨hpc, hmode, hsie⟩ := returnFromVS_takeInterrupt s ((interruptible_iff s).mpr hm)
  have htop : vstopi (returnFromVS (takeInterrupt s)) = vstopi s :=
    (returnFromVS_sameTop _).vstopi.trans (trapToVS_sameTop _ _ _ s).vstopi
  refine ⟨_, execSret_guest (takeInterrupt s) rfl ?_, hpc, hmode, hsie, htop, ?_⟩
  · rw [takeInterrupt, trapToVS_outside]
    exact hv
  · rw [interruptTaken_iff, hmode, hsie, htop]
    exact ⟨hm, hne⟩

/-- The delivery to VS-mode of an illegal instruction exception (R171). -/
theorem applyDeliverVs_illegal (b : Bool) (s : State) (r : TrapRecord) (ho : s.outcome = some r)
    (hk : r.kind = .illegalInstruction) (hm : s.mode.virt = true) :
    applyEvent (.deliverVs b) s =
      .next ((trapToVS false 2 (if b then r.instr.setWidth 64 else 0) s).setOutcome none) := by
  rw [applyEvent, applyDeliverVs, ho]
  simp only [hk, hm, and_self, if_true]
  rfl

theorem applyDeliverVs_virtual (b : Bool) (s : State) (r : TrapRecord) (ho : s.outcome = some r)
    (hk : r.kind = .virtualInstruction) : applyEvent (.deliverVs b) s = .refused .notDeliverable := by
  rw [applyEvent, applyDeliverVs, ho]
  simp [hk]

theorem applyHigherTrap_next (m : Mode) (pc : Word) (o : Outside) (s : State)
    (h : m = .M ∨ (m = .HS ∧ s.mode ≠ .M)) :
    applyEvent (.higherTrap m pc o) s =
      .next ((((s.setMode m).setPc (pc &&& s.cfg.xmask)).setOutside o).setOutcome none) := by
  rw [applyEvent, applyHigherTrap, if_pos h]

/-- Settles O54, by the turn that comes: the hart's, another agent's, and the two that clear the record. -/
theorem exceptionEndsRunOfInstructions : Obligations.ExceptionEndsRunOfInstructions := by
  intro s r e m pc o b rest
  refine ⟨fun ho ha => ?_, fun ha h1 h2 t ht => ?_, fun ha hm => ?_, fun ho ha hk hm => ?_, fun ho ha hk => ?_⟩
  · rcases ha with ha | ha | ha
    · rw [step_undelayed s [] (.inl ⟨ha, rfl⟩)]
      exact hartTurn_ended false (s.setAgenda []) r ho
    · rw [step_undelayed s rest (.inr ha)]
      exact hartTurn_ended false (s.setAgenda rest) r ho
    · rw [step_delay s rest ha]
      exact hartTurn_ended true (s.setAgenda rest) r ho
  · rw [step_env s e rest ha] at ht
    exact applyEvent_outcome e (s.setAgenda rest) t ht h1 h2
  · rw [step_env s _ rest ha]
    exact applyHigherTrap_next m pc o (s.setAgenda rest) hm
  · obtain ⟨d, hd⟩ := trapToVS_eq false 2 (if b then r.instr.setWidth 64 else 0) (s.setAgenda rest)
    refine ⟨_, d, vsHandler_exception 2 (s.setAgenda rest), ?_⟩
    rw [step_env s _ rest ha, applyDeliverVs_illegal b (s.setAgenda rest) r ho hk hm, hd, enterVS_drawn, if_neg Bool.false_ne_true]
    rfl
  · rw [step_env s _ rest ha]
    exact applyDeliverVs_virtual b (s.setAgenda rest) r ho hk

end Sys2Proof.Machine
end

section
/-! vsip and vsie bit by bit (10_state.md R26-R34, Table 1). -/

namespace Sys2Proof.Machine

/-- The shape vsip and vsie share: three bits of their own below bit 13, and above it one of two registers, by hideleg
and hvien (Table 1). -/
theorem getLsbD_aliases (b9 b5 b1 : Bool) (p q : BitVec 64) (s : State) (i : Nat) (hi : i < 64) :
    (bitAt 9 b9 ||| bitAt 5 b5 ||| bitAt 1 b1 ||| ((delegated s &&& p) ||| (virtualized s &&& q))).getLsbD i =
      if 13 ≤ i then (if s.hideleg.getLsbD i then p.getLsbD i else if s.hvien.getLsbD i then q.getLsbD i else false)
      else if i = 9 then b9 else if i = 5 then b5 else if i = 1 then b1 else false := by
  simp only [BitVec.getLsbD_or, BitVec.getLsbD_and, getLsbD_bitAt 9 i b9 (by decide), getLsbD_bitAt 5 i b5 (by decide),
    getLsbD_bitAt 1 i b1 (by decide), getLsbD_delegated s i hi, getLsbD_virtualized s i hi]
  by_cases h13 : 13 ≤ i
  · have h9 : i ≠ 9 := by omega
    have h5 : i ≠ 5 := by omega
    have h1 : i ≠ 1 := by omega
    cases s.hideleg.getLsbD i <;> cases s.hvien.getLsbD i <;> simp [h13, h9, h5, h1]
  · by_cases h9 : i = 9
    · simp [h9]
    · by_cases h5 : i = 5
      · simp [h5]
      · by_cases h1 : i = 1 <;> simp [h13, h9, h5, h1]

theorem getLsbD_vsip (s : State) (i : Nat) (hi : i < 64) :
    (vsip s).getLsbD i =
      if 13 ≤ i then (if s.hideleg.getLsbD i then s.sip.getLsbD i else if s.hvien.getLsbD i then s.hvip.getLsbD i else false)
      else if i = 9 then s.hideleg.getLsbD 10 && hip10 s else if i = 5 then s.hideleg.getLsbD 6 && hip6 s
      else if i = 1 then s.hideleg.getLsbD 2 && hip2 s else false :=
  getLsbD_aliases _ _ _ _ _ s i hi

theorem getLsbD_vsie (s : State) (i : Nat) (hi : i < 64) :
    (vsie s).getLsbD i =
      if 13 ≤ i then
        (if s.hideleg.getLsbD i then s.sie.getLsbD i else if s.hvien.getLsbD i then s.vsieOwn.getLsbD i else false)
      else if i = 9 then s.hideleg.getLsbD 10 && s.hie.getLsbD 10
      else if i = 5 then s.hideleg.getLsbD 6 && s.hie.getLsbD 6
      else if i = 1 then s.hideleg.getLsbD 2 && s.hie.getLsbD 2 else false :=
  getLsbD_aliases _ _ _ _ _ s i hi

/-- R50, R12: hip.VSEIP with the file's signal written out. -/
theorem hip10_eq (s : State) :
    hip10 s = (s.hvip.getLsbD 10 || (decide (1 ≤ s.vgein.toNat ∧ s.vgein.toNat ≤ s.cfg.geilen) &&
      (currentFile s).eidelivery && topei s.cfg (currentFile s) != 0) || s.vseipPlatform) := by
  rw [hip10, vgeinValid, fileSignal, Bool.decide_and, Bool.and_assoc _ (currentFile s).eidelivery]

/-! ### hvictl -/

/-- R43: hvictl is no part of the storage behind hip and vsip. -/
theorem setHvictl_samePending (s : State) (h : Hvictl) : SamePending (s.setHvictl h) s := by
  constructor <;> rfl

theorem setHvictl_sameEnabled (s : State) (h : Hvictl) : SameEnabled (s.setHvictl h) s := by
  constructor <;> rfl

/-! ### The obligations -/

/-- Settles O29: the bits from 13 on. -/
theorem vsipAndVsieAliasByTable1 : Obligations.VsipAndVsieAliasByTable1 := by
  intro s i h13 h63
  rw [getLsbD_vsip s i (by omega), getLsbD_vsie s i (by omega), if_pos h13, if_pos h13]
  exact ⟨rfl, rfl⟩

/-- Settles O30: the bits below 13. -/
theorem lowBitsOfVsipAndVsie : Obligations.LowBitsOfVsipAndVsie := by
  intro s i h12
  have hlow : ¬ 13 ≤ i := by omega
  rw [getLsbD_vsip s i (by omega), getLsbD_vsie s i (by omega), if_neg hlow, if_neg hlow, hip10_eq]
  exact ⟨rfl, rfl⟩

end Sys2Proof.Machine
end

section
/-! What a CSR instruction leaves unchanged (40_csr_instructions.md R100), and what each turn of the machine keeps. -/

namespace Sys2Proof.Machine

/-! ### The frame of a write -/

/-- The parts of a state that no CSR holds (R100). -/
structure SameOutsideCsrs (t s : State) : Prop where
  cfg : t.cfg = s.cfg
  mode : t.mode = s.mode
  pc : t.pc = s.pc
  x : t.x = s.x
  mem : t.mem = s.mem
  outside : t.outside = s.outside
  vstipTimer : t.vstipTimer = s.vstipTimer
  vseipPlatform : t.vseipPlatform = s.vseipPlatform
  iommu : t.iommu = s.iommu
  agenda : t.agenda = s.agenda
  outcome : t.outcome = s.outcome

/-- Each piece of state a CSR reaches stays unless the access reaches that CSR: `c` is the one it reaches. -/
structure CsrFrame (c : Csr) (t s : State) : Prop where
  vgein : c ≠ .hstatus → t.vgein = s.vgein
  vsstatus : c ≠ .vsstatus → t.vsSIE = s.vsSIE ∧ t.vsSPIE = s.vsSPIE ∧ t.vsSPP = s.vsSPP
  vscause : c ≠ .vscause → t.vscause = s.vscause
  vsepc : c ≠ .vsepc → t.vsepc = s.vsepc
  vstvec : c ≠ .vstvec → t.vstvec = s.vstvec
  vstval : c ≠ .vstval → t.vstval = s.vstval
  vsiselect : c ≠ .vsiselect → t.vsiselect = s.vsiselect
  hvictl : c ≠ .hvictl → t.hvictl = s.hvictl
  hideleg : c ≠ .hideleg → c ≠ .hidelegh → t.hideleg = s.hideleg
  hvien : c ≠ .hvien → c ≠ .hvienh → t.hvien = s.hvien
  hviprio1 : c ≠ .hviprio1 → c ≠ .hviprio1h → t.hviprio1 = s.hviprio1
  hviprio2 : c ≠ .hviprio2 → c ≠ .hviprio2h → t.hviprio2 = s.hviprio2
  hvip : c ∉ [.hvip, .hviph, .hip, .vsip, .vsiph] → t.hvip = s.hvip
  sip : c ∉ [.vsip, .vsiph] → t.sip = s.sip
  sie : c ∉ [.vsie, .vsieh] → t.sie = s.sie
  hie : c ∉ [.hie, .vsie, .vsieh] → t.hie = s.hie
  vsieOwn : c ∉ [.vsie, .vsieh, .hideleg, .hidelegh, .hvien, .hvienh] → t.vsieOwn = s.vsieOwn
  files : c ∉ [.vsireg, .vstopei] → t.files = s.files
  fileAt : ∀ g, g ≠ s.vgein.toNat → fileAt t g = fileAt s g

theorem CsrFrame.refl (c : Csr) (s : State) : CsrFrame c s s := by
  constructor <;> intros <;> trivial

section
variable {c : Csr} {t s : State} (h : CsrFrame c t s)
include h

theorem CsrFrame.setVgein (hc : c = .hstatus) (v : BitVec 6) : CsrFrame c (t.setVgein v) s :=
  { h with vgein := fun e => absurd hc e }

theorem CsrFrame.setVscause (hc : c = .vscause) (v : Word) : CsrFrame c (t.setVscause v) s :=
  { h with vscause := fun e => absurd hc e }

theorem CsrFrame.setVsepc (hc : c = .vsepc) (v : Word) : CsrFrame c (t.setVsepc v) s :=
  { h with vsepc := fun e => absurd hc e }

theorem CsrFrame.setVstvec (hc : c = .vstvec) (v : Word) : CsrFrame c (t.setVstvec v) s :=
  { h with vstvec := fun e => absurd hc e }

theorem CsrFrame.setVstval (hc : c = .vstval) (v : Word) : CsrFrame c (t.setVstval v) s :=
  { h with vstval := fun e => absurd hc e }

theorem CsrFrame.setVsiselect (hc : c = .vsiselect) (v : Word) : CsrFrame c (t.setVsiselect v) s :=
  { h with vsiselect := fun e => absurd hc e }

theorem CsrFrame.setHvictl (hc : c = .hvictl) (v : Hvictl) : CsrFrame c (t.setHvictl v) s :=
  { h with hvictl := fun e => absurd hc e }

theorem CsrFrame.setHideleg (hc : c = .hideleg ∨ c = .hidelegh) (v : BitVec 64) : CsrFrame c (t.setHideleg v) s :=
  { h with hideleg := fun e1 e2 => (hc.elim e1 e2).elim }

theorem CsrFrame.setHvien (hc : c = .hvien ∨ c = .hvienh) (v : BitVec 64) : CsrFrame c (t.setHvien v) s :=
  { h with hvien := fun e1 e2 => (hc.elim e1 e2).elim }

theorem CsrFrame.setHviprio1 (hc : c = .hviprio1 ∨ c = .hviprio1h) (v : BitVec 64) : CsrFrame c (t.setHviprio1 v) s :=
  { h with hviprio1 := fun e1 e2 => (hc.elim e1 e2).elim }

theorem CsrFrame.setHviprio2 (hc : c = .hviprio2 ∨ c = .hviprio2h) (v : BitVec 64) : CsrFrame c (t.setHviprio2 v) s :=
  { h with hviprio2 := fun e1 e2 => (hc.elim e1 e2).elim }

theorem CsrFrame.setHvip (hc : c ∈ [.hvip, .hviph, .hip, .vsip, .vsiph]) (v : BitVec 64) : CsrFrame c (t.setHvip v) s :=
  { h with hvip := fun e => absurd hc e }

theorem CsrFrame.setSip (hc : c ∈ [.vsip, .vsiph]) (v : BitVec 64) : CsrFrame c (t.setSip v) s :=
  { h with sip := fun e => absurd hc e }

theorem CsrFrame.setSie (hc : c ∈ [.vsie, .vsieh]) (v : BitVec 64) : CsrFrame c (t.setSie v) s :=
  { h with sie := fun e => absurd hc e }

theorem CsrFrame.setHie (hc : c ∈ [.hie, .vsie, .vsieh]) (v : BitVec 64) : CsrFrame c (t.setHie v) s :=
  { h with hie := fun e => absurd hc e }

theorem CsrFrame.setVsieOwn (hc : c ∈ [.vsie, .vsieh, .hideleg, .hidelegh, .hvien, .hvienh]) (v : BitVec 64) : CsrFrame c (t.setVsieOwn v) s :=
  { h with vsieOwn := fun e => absurd hc e }

theorem CsrFrame.setVsstatus (hc : c = .vsstatus) (sie spie spp : Bool) : CsrFrame c (((t.setVsSIE sie).setVsSPIE spie).setVsSPP spp) s :=
  { h with vsstatus := fun e => absurd hc e }

theorem CsrFrame.setDraws (d : Nat) : CsrFrame c (t.setDraws d) s := { h with }

theorem CsrFrame.setX (x : Vector Word 32) : CsrFrame c (t.setX x) s := { h with }

theorem CsrFrame.setPc (v : Word) : CsrFrame c (t.setPc v) s := { h with }

theorem CsrFrame.setOutcome (o : Option TrapRecord) : CsrFrame c (t.setOutcome o) s := { h with }

end

theorem CsrFrame.setCurrentFile {c : Csr} (s : State) (f : IntrFile) (hc : c ∈ [.vsireg, .vstopei]) :
    CsrFrame c (setCurrentFile s f) s :=
  { CsrFrame.refl c s with
    files := fun e => absurd hc e
    fileAt := fun g hg => fileAt_setCurrentFile_other s f g hg }

/-- A write changes nothing outside the CSRs. -/
theorem csrStore_sameOutsideCsrs (c : Csr) (v : Word) (s : State) : SameOutsideCsrs (csrStore c v s) s := by
  rcases csrStore_cases c v s with h | ⟨-, _, _, h⟩ | ⟨-, _, _, _, h⟩ | ⟨-, _, _, _, h⟩ | ⟨-, _, h⟩ | ⟨-, _, h⟩ |
    ⟨-, _, h⟩ | ⟨-, _, h⟩ | ⟨-, _, h⟩ | ⟨-, _, _, _, h⟩ | ⟨-, _, _, _, h⟩ | ⟨-, _, _, h⟩ | ⟨-, _, h⟩ | ⟨-, _, h⟩ |
    ⟨-, _, h⟩ | ⟨-, _, h⟩ | ⟨-, _, h⟩ | ⟨-, _, _, h⟩ <;> rw [h]
  all_goals constructor <;> simp [setCurrentFile_eq]

/-- A write changes only what the CSR written reaches. -/
theorem csrStore_frame (c : Csr) (v : Word) (s : State) : CsrFrame c (csrStore c v s) s := by
  have F := CsrFrame.refl c s
  rcases csrStore_cases c v s with h | ⟨hc, g, d, h⟩ | ⟨hc, a, o, d, h⟩ | ⟨hc, a, o, d, h⟩ | ⟨hc, a, h⟩ | ⟨hc, a, h⟩ |
    ⟨hc, a, h⟩ | ⟨hc, a, h⟩ | ⟨hc, a, h⟩ | ⟨hc, a, b, d, h⟩ | ⟨hc, a, b, d, h⟩ | ⟨hc, a, b, h⟩ | ⟨hc, a, h⟩ |
    ⟨hc, a, h⟩ | ⟨hc, a, h⟩ | ⟨hc, a, h⟩ | ⟨hc, a, h⟩ | ⟨hc, f, d, h⟩ <;> rw [h]
  · exact F
  · exact (F.setVgein hc g).setDraws d
  · exact ((F.setHideleg hc a).setVsieOwn (by rcases hc with rfl | rfl <;> decide) o).setDraws d
  · exact ((F.setHvien hc a).setVsieOwn (by rcases hc with rfl | rfl <;> decide) o).setDraws d
  · exact F.setHie (by rw [hc]; decide) a
  · exact F.setHvictl hc a
  · exact F.setHvip (by rcases hc with rfl | rfl | rfl <;> decide) a
  · exact F.setHviprio1 hc a
  · exact F.setHviprio2 hc a
  · exact F.setVsstatus hc a b d
  · exact ((F.setHie (by rcases hc with rfl | rfl <;> decide) a).setSie (by simpa using hc) b).setVsieOwn
      (by rcases hc with rfl | rfl <;> decide) d
  · exact (F.setHvip (by rcases hc with rfl | rfl <;> decide) a).setSip (by simpa using hc) b
  · exact F.setVstvec hc a
  · exact F.setVsepc hc a
  · exact F.setVscause hc a
  · exact F.setVstval hc a
  · exact F.setVsiselect hc a
  · exact (CsrFrame.setCurrentFile s f (by simpa using hc)).setDraws d

/-! ### The frame of a CSR instruction -/

/-- A pure read, or a write on the state a read leaves: what `exec_csr_next` says of the state before `x[rd]` and pc. -/
def ReadOrWritten (c : Csr) (writes : Bool) (v s : State) : Prop :=
  ∃ d, (writes = false ∧ v = s.setDraws d) ∨
    (writes = true ∧ ∃ u, v = csrStore c (u &&& s.cfg.xmask) (s.setDraws d))

theorem ReadOrWritten.sameOutsideCsrs {c : Csr} {w : Bool} {v s : State} (h : ReadOrWritten c w v s) :
    SameOutsideCsrs v s := by
  obtain ⟨d, ⟨-, rfl⟩ | ⟨-, u, rfl⟩⟩ := h
  · constructor <;> rfl
  · exact { csrStore_sameOutsideCsrs c (u &&& s.cfg.xmask) (s.setDraws d) with }

theorem ReadOrWritten.frame {c : Csr} {w : Bool} {v s : State} (h : ReadOrWritten c w v s) : CsrFrame c v s := by
  obtain ⟨d, ⟨-, rfl⟩ | ⟨-, u, rfl⟩⟩ := h
  · exact (CsrFrame.refl c s).setDraws d
  · exact { csrStore_frame c (u &&& s.cfg.xmask) (s.setDraws d) with }

/-- A CSR instruction that gives a next state raises an exception, or reads and perhaps writes the register it reaches
and then writes `x[rd]` and the pc. -/
theorem exec_csr_reaches (i : Instr) (n : BitVec 12) (s t : State) (hi : csrField i = some n)
    (ht : exec i s = .next t) :
    (∃ o, t = s.setOutcome o) ∨
      ∃ c v pc x, check s n (writeAttempt i) = .pass c ∧ ReadOrWritten c (writeAttempt i) v s ∧
        t = (v.setX x).setPc pc ∧ ∀ q, q ≠ destination i → readReg q t = readReg q s := by
  rcases exec_csr_next i n s t hi ht with ⟨k, -, rfl⟩ | ⟨c, hc, d, v, pc, x, hv, rfl, hx⟩
  · exact .inl ⟨_, rfl⟩
  · have hv' : ReadOrWritten c (writeAttempt i) v s := ⟨d, hv⟩
    exact .inr ⟨c, v, pc, x, hc, hv', rfl, fun q hq =>
      (hx q hq).trans (readReg_congr q v s hv'.sameOutsideCsrs.x)⟩

section
variable {i : Instr} {n : BitVec 12} {s t : State} (hi : csrField i = some n) (ht : exec i s = .next t)
include hi ht

/-- What a CSR instruction leaves of the state outside the CSRs but for x, pc and the outcome record. -/
theorem exec_csr_keeps :
    t.cfg = s.cfg ∧ t.mode = s.mode ∧ t.mem = s.mem ∧ t.outside = s.outside ∧ t.vstipTimer = s.vstipTimer ∧
      t.vseipPlatform = s.vseipPlatform ∧ t.iommu = s.iommu ∧ t.agenda = s.agenda := by
  rcases exec_csr_reaches i n s t hi ht with ⟨o, rfl⟩ | ⟨c, v, pc, x, -, hv, rfl, -⟩
  · exact ⟨rfl, rfl, rfl, rfl, rfl, rfl, rfl, rfl⟩
  · have h := hv.sameOutsideCsrs
    exact ⟨h.cfg, h.mode, h.mem, h.outside, h.vstipTimer, h.vseipPlatform, h.iommu, h.agenda⟩

theorem exec_csr_keeps_registers (r : BitVec 5) (hr : r ≠ destination i) : readReg r t = readReg r s := by
  rcases exec_csr_reaches i n s t hi ht with ⟨o, rfl⟩ | ⟨c, v, pc, x, -, -, rfl, hregs⟩
  · rfl
  · exact hregs r hr

theorem exec_csr_frame {c : Csr} (hc : csrReached s.mode n = some c) : CsrFrame c t s := by
  rcases exec_csr_reaches i n s t hi ht with ⟨o, rfl⟩ | ⟨c', v, pc, x, hp, hv, rfl, -⟩
  · exact (CsrFrame.refl c s).setOutcome o
  · obtain rfl : c' = c := Option.some.inj ((check_pass s n _ c' hp).1.symm.trans hc)
    exact (hv.frame.setX x).setPc pc

/-- R107: a pure read, or an access that reaches nothing, changes no CSR. -/
theorem exec_csr_no_write (h : writeAttempt i = false ∨ csrReached s.mode n = none) :
    ∃ d pc x o, t = (((s.setDraws d).setPc pc).setX x).setOutcome o := by
  rcases exec_csr_reaches i n s t hi ht with ⟨o, rfl⟩ | ⟨c, v, pc, x, hp, ⟨d, ⟨-, rfl⟩ | ⟨hw, -⟩⟩, rfl, -⟩
  · exact ⟨s.draws, s.pc, s.x, o, rfl⟩
  · exact ⟨d, pc, x, s.outcome, rfl⟩
  · rcases h with h | h
    · simp [hw] at h
    · simp [(check_pass s n _ c hp).1] at h

end

/-- Settles O14: what stays whatever is reached, and the frame of the register reached. -/
theorem csrInstructionFrame : Obligations.CsrInstructionFrame := by
  intro i n s t hi ht
  obtain ⟨hcfg, hmode, hmem, houtside, htimer, hplatform, hiommu, hagenda⟩ := exec_csr_keeps hi ht
  refine ⟨hcfg, hmode, exec_csr_keeps_registers hi ht, fun a => by rw [hmem], houtside, htimer, hplatform, hiommu,
    hagenda, exec_csr_no_write hi ht, fun c hc => ?_⟩
  have F := exec_csr_frame hi ht hc
  exact ⟨F.vgein, F.vsstatus, F.vscause, F.vsepc, F.vstvec, F.vstval, F.vsiselect, F.hvictl, F.hideleg, F.hvien,
    F.hviprio1, F.hviprio2, F.hvip, F.sip, F.sie, F.hie, F.vsieOwn, F.files, F.fileAt⟩

end Sys2Proof.Machine
end

section
/-! What every turn keeps: the program text, and with V = 1 the state of the hypervisor (41_vs_csr_access.md section 1,
60_exceptions.md section 6). -/

namespace Sys2Proof.Machine

/-! ### Program text and configuration -/

/-- An instruction is sret or has a csr field (R81, R83). -/
theorem csrField_cases (i : Instr) : i = .sret ∨ ∃ n, csrField i = some n := by
  cases i
  case sret => exact .inl rfl
  all_goals exact .inr ⟨_, rfl⟩

/-- A state with the program text and the configuration of another (R74). -/
def SameProgram (t s : State) : Prop := t.mem = s.mem ∧ t.cfg = s.cfg

theorem trapToVS_sameProgram (interrupt : Bool) (code : Nat) (tval : Word) (s : State) :
    SameProgram (trapToVS interrupt code tval s) s := by
  obtain ⟨d, h⟩ := trapToVS_eq interrupt code tval s
  simp [SameProgram, h, enterVS]

theorem exec_sameProgram (i : Instr) (s t : State) (h : exec i s = .next t) : SameProgram t s := by
  rcases csrField_cases i with rfl | ⟨n, hn⟩
  · rcases execSret_next s t h with ⟨k, rfl⟩ | ⟨-, -, rfl⟩ | ⟨-, rfl⟩
    · exact ⟨rfl, rfl⟩
    · simp [SameProgram, returnFromVS]
    · simp [SameProgram, returnFromHS]
  · obtain ⟨hcfg, -, hmem, -⟩ := exec_csr_keeps hn h
    exact ⟨hmem, hcfg⟩

theorem hartTurn_sameProgram (d : Bool) (s t : State) (h : hartTurn d s = .next t) : SameProgram t s := by
  obtain ⟨-, ⟨-, rfl⟩ | ⟨i, hi⟩ | ⟨w, rfl⟩⟩ := hartTurn_next d s t h
  · exact trapToVS_sameProgram _ _ _ s
  · exact exec_sameProgram i s t hi
  · exact ⟨rfl, rfl⟩

/-- No agent writes the program text: an MSI reaches an interrupt file, and the other turns no memory (D6). -/
theorem applyEvent_sameProgram (e : Event) (s t : State) (h : applyEvent e s = .next t) : SameProgram t s := by
  rcases applyEvent_next e s t h with rfl | ⟨g, n, hm⟩ | ⟨_, rfl⟩ | ⟨_, rfl⟩ | ⟨_, rfl⟩ | ⟨_, rfl⟩ | ⟨_, rfl⟩ | ⟨_, rfl⟩ |
    ⟨_, rfl⟩ | ⟨m, pc, o, -, rfl⟩ | ⟨r, v, -, -, -, -, rfl⟩
  case inr.inl =>
    obtain ⟨-, -, rfl⟩ := applyMsi_next g n s t hm
    exact ⟨rfl, rfl⟩
  case inr.inr.inr.inr.inr.inr.inr.inr.inr.inr =>
    simpa [SameProgram] using trapToVS_sameProgram false r.kind.code v s
  all_goals simp [SameProgram]

theorem step_sameProgram (s t : State) (h : step s = .next t) : SameProgram t s := by
  obtain ⟨a, ⟨e, -, he⟩ | ⟨-, d, hd⟩⟩ := step_next s t h
  · exact applyEvent_sameProgram e (s.setAgenda a) t he
  · exact hartTurn_sameProgram d (s.setAgenda a) t hd

/-- Settles O59: the memory and the configuration are the same, whoever moves. -/
theorem stepKeepsProgramText : Obligations.StepKeepsProgramText := by
  intro s t h
  obtain ⟨hmem, hcfg⟩ := step_sameProgram s t h
  exact ⟨fun a => by rw [hmem], hcfg⟩

/-! ### Turns of the hart with V = 1 -/

/-- What a turn of the guest can do: take the trap, raise an exception, return, or complete a CSR instruction. -/
theorem guestTurn_next (d : Bool) (s t : State) (hv : s.mode.virt = true) (h : hartTurn d s = .next t) :
    (interruptTaken s = true ∧ t = takeInterrupt s) ∨ (∃ o, t = s.setOutcome o) ∨ t = returnFromVS s ∨
      ∃ i n, csrField i = some n ∧ exec i s = .next t := by
  obtain ⟨-, ⟨hi, rfl⟩ | ⟨i, hi⟩ | ⟨w, rfl⟩⟩ := hartTurn_next d s t h
  · exact .inl ⟨hi, rfl⟩
  · rcases csrField_cases i with rfl | ⟨n, hn⟩
    · rcases execSret_next s t hi with ⟨k, rfl⟩ | ⟨-, -, rfl⟩ | ⟨hm, -⟩
      · exact .inr (.inl ⟨_, rfl⟩)
      · exact .inr (.inr (.inl rfl))
      · rw [hv] at hm
        cases hm
    · exact .inr (.inr (.inr ⟨i, n, hn, hi⟩))
  · exact .inr (.inl ⟨_, rfl⟩)

/-- Settles O55: the trap enters VS-mode, sret returns to VS or VU, and a CSR instruction keeps the mode. -/
theorem hartTurnKeepsVirtualMode : Obligations.HartTurnKeepsVirtualMode := by
  intro s t hm hv h
  obtain ⟨a, d, hd⟩ := step_hartMoves s t hm h
  rcases guestTurn_next d (s.setAgenda a) t hv hd with ⟨-, rfl⟩ | ⟨o, rfl⟩ | rfl | ⟨i, n, hn, hi⟩
  · rfl
  · exact hv
  · change (if (s.setAgenda a).vsSPP then Mode.VS else Mode.VU).virt = true
    split <;> rfl
  · obtain ⟨-, hmode, -⟩ := exec_csr_keeps hn hi
    rw [hmode]
    exact hv

/-! ### What a guest reaches -/

/-- With V = 1 an access that passes the check is one from VS-mode by a supervisor number (R120, R121, R178). -/
theorem check_pass_guest (s : State) (n : BitVec 12) (w : Bool) (c : Csr) (hv : s.mode.virt = true)
    (h : check s n w = .pass c) : s.mode = .VS ∧ supNumber c = some n := by
  obtain ⟨hreached, -, -, hlevel, -⟩ := check_pass s n w c h
  rcases csrNamed_cases n with hn | ⟨c', hn, rfl⟩ | ⟨c', hn, hs⟩
  · simp [csrReached, hn] at hreached
  · rw [csrLevel_csrNumber] at hlevel
    cases hm : s.mode <;> simp [hm, Mode.virt, levelException] at hv hlevel
  · obtain rfl : c' = c := by simpa [csrReached, hn, hv] using hreached
    rw [csrLevel_supNumber c' n hs] at hlevel
    cases hm : s.mode <;> simp [hm, Mode.virt, levelException] at hv hlevel
    exact ⟨rfl, hs⟩

/-- R126-R128: vsireg is reached exactly where a register of a guest file is selected. -/
theorem vsiregException_eq_none_iff (s : State) : vsiregException s = none ↔ fileSelected s = true := by
  unfold vsiregException fileSelected
  by_cases h3 : 0x30 ≤ s.vsiselect.toNat ∧ s.vsiselect.toNat ≤ 0x3F
  · have h7 : ¬ 0x70 ≤ s.vsiselect.toNat := by omega
    simp [h3, h7]
    split <;> simp
  · by_cases h7 : 0x70 ≤ s.vsiselect.toNat ∧ s.vsiselect.toNat ≤ 0xFF
    · cases hg : vgeinValid s
      · simp [h3, h7]
        split <;> simp
      · cases hf : fileReg s.cfg s.vsiselect.toNat <;> simp [h3, h7]
    · have h7' : 0x70 ≤ s.vsiselect.toNat → ¬ s.vsiselect.toNat ≤ 0xFF := fun a b => h7 ⟨a, b⟩
      simp [h3, h7]
      tauto

/-- R132: vstopei is reached exactly with a valid VGEIN. -/
theorem vstopeiException_eq_none_iff (s : State) : vstopeiException s = none ↔ vgeinValid s = true := by
  unfold vstopeiException
  cases vgeinValid s
  · simp only [Bool.false_eq_true, if_false, iff_false]
    split <;> simp
  · simp

/-- R127, R132: an access that passes clause 4 on the file's registers has a valid VGEIN. -/
theorem vgeinValid_of_fileException (s : State) (c : Csr) (hc : c ∈ [.vsireg, .vstopei])
    (h : fileException s c = none) : vgeinValid s = true := by
  obtain rfl | rfl : c = .vsireg ∨ c = .vstopei := by simpa using hc
  · have hs := (vsiregException_eq_none_iff s).mp h
    simp only [fileSelected, Bool.and_eq_true] at hs
    exact hs.1.1.1
  · exact (vstopeiException_eq_none_iff s).mp h

/-- Clause 4 passed: neither the file's clause nor that of VTI raises. -/
theorem check_pass_register (s : State) (n : BitVec 12) (w : Bool) (c : Csr) (h : check s n w = .pass c) :
    fileException s c = none ∧ vtiTraps s c (vtiNamed s.cfg n c) w = false := by
  obtain ⟨-, -, -, -, hx⟩ := check_pass s n w c h
  unfold registerException at hx
  split at hx
  · cases hx
  · next hf => exact ⟨hf, by simpa using hx⟩

/-! ### The guest's writes of sip and sie -/

/-- R27, R31: bit 1 of the part writes hvip bit 2 where hideleg delegates it, a virtualized bit its own place. -/
theorem getLsbD_hvipAfterVsip (h : Half) (v : Word) (s : State) (i : Nat) (hi : i < 64) :
    (hvipAfterVsip h v s).getLsbD i =
      if i = 2 ∧ h.mask.getLsbD 1 = true ∧ s.hideleg.getLsbD 2 = true then (h.place v).getLsbD 1
      else if 13 ≤ i ∧ s.hideleg.getLsbD i = false ∧ s.hvien.getLsbD i = true ∧ h.mask.getLsbD i = true
        then (h.place v).getLsbD i else s.hvip.getLsbD i := by
  rw [hvipAfterVsip, getLsbD_mergeBits, getLsbD_bitAt 2 i _ (by decide), getLsbD_bitAt 2 i _ (by decide),
    getLsbD_half_write, getLsbD_virtualized s i hi]
  by_cases h2 : i = 2
  · subst h2
    cases h.mask.getLsbD 1 <;> cases s.hideleg.getLsbD 2 <;> simp
  · simp [h2, and_assoc]

/-- R31: a delegated bit of the part writes the true sip where SIP_W lets it. -/
theorem getLsbD_half_write_delegated (h : Half) (w old : BitVec 64) (v : Word) (s : State) (i : Nat) (hi : i < 64) :
    (h.write (delegated s &&& w) old v).getLsbD i =
      if 13 ≤ i ∧ s.hideleg.getLsbD i = true ∧ w.getLsbD i = true ∧ h.mask.getLsbD i = true
      then (h.place v).getLsbD i else old.getLsbD i := by
  rw [getLsbD_half_write, BitVec.getLsbD_and, getLsbD_delegated s i hi]
  simp [and_assoc]

theorem csrStore_vsip (c : Csr) (hc : c ∈ [.vsip, .vsiph]) (v : Word) (s : State) :
    ∃ h, csrStore c v s = writeVsip h v s := by
  obtain rfl | rfl : c = .vsip ∨ c = .vsiph := by simpa using hc
  · exact ⟨_, rfl⟩
  · exact ⟨_, rfl⟩

theorem csrStore_vsie (c : Csr) (hc : c ∈ [.vsie, .vsieh]) (v : Word) (s : State) :
    ∃ h, csrStore c v s = writeVsie h v s := by
  obtain rfl | rfl : c = .vsie ∨ c = .vsieh := by simpa using hc
  · exact ⟨_, rfl⟩
  · exact ⟨_, rfl⟩

/-- A supervisor number names no register of the hypervisor's own (R84). -/
theorem not_hypervisorReg_of_supNumber (c : Csr) (n : BitVec 12) (h : supNumber c = some n) :
    c ∉ [.hstatus, .hideleg, .hidelegh, .hvien, .hvienh, .hvictl, .hviprio1, .hviprio1h, .hviprio2, .hviprio2h,
      .hvip, .hviph, .hip, .hie] := by
  cases c <;> simp [supNumber] at h ⊢

section
variable {c : Csr} {w : Bool} {v s : State} (h : ReadOrWritten c w v s) {i : Nat} (hi : i < 64)
include h hi

/-- R27, R31: of hvip a guest reaches the virtualized bits and, where it is delegated, bit 2. -/
theorem ReadOrWritten.guest_hvip {n : BitVec 12} (hs : supNumber c = some n)
    (hne : v.hvip.getLsbD i ≠ s.hvip.getLsbD i) :
    (13 ≤ i ∧ s.hideleg.getLsbD i = false ∧ s.hvien.getLsbD i = true) ∨ (i = 2 ∧ s.hideleg.getLsbD 2 = true) := by
  have hother := not_hypervisorReg_of_supNumber c n hs
  by_cases hc : c ∈ [.vsip, .vsiph]
  · obtain ⟨d, ⟨-, rfl⟩ | ⟨-, u, rfl⟩⟩ := h
    · exact absurd rfl hne
    · obtain ⟨p, hp⟩ := csrStore_vsip c hc (u &&& s.cfg.xmask) (s.setDraws d)
      rw [hp, show (writeVsip p _ (s.setDraws d)).hvip = hvipAfterVsip p _ (s.setDraws d) from rfl,
        getLsbD_hvipAfterVsip _ _ _ i hi] at hne
      split_ifs at hne with h2 h13
      · exact .inr ⟨h2.1, h2.2.2⟩
      · exact .inl ⟨h13.1, h13.2.1, h13.2.2.1⟩
      · exact absurd rfl hne
  · exact absurd (congrArg (BitVec.getLsbD · i) (h.frame.hvip (by simp at hc hother ⊢; tauto))) hne

/-- R31: of sip a guest reaches the delegated bits. -/
theorem ReadOrWritten.guest_sip (hne : v.sip.getLsbD i ≠ s.sip.getLsbD i) : 13 ≤ i ∧ s.hideleg.getLsbD i = true := by
  by_cases hc : c ∈ [.vsip, .vsiph]
  · obtain ⟨d, ⟨-, rfl⟩ | ⟨-, u, rfl⟩⟩ := h
    · exact absurd rfl hne
    · obtain ⟨p, hp⟩ := csrStore_vsip c hc (u &&& s.cfg.xmask) (s.setDraws d)
      rw [hp, writeVsip, State.setSip_sip, getLsbD_half_write_delegated _ _ _ _ _ i hi] at hne
      split_ifs at hne with h13
      · exact ⟨h13.1, h13.2.1⟩
      · exact absurd rfl hne
  · exact absurd (congrArg (BitVec.getLsbD · i) (h.frame.sip hc)) hne

/-- R33: of sie a guest reaches the delegated bits. -/
theorem ReadOrWritten.guest_sie (hne : v.sie.getLsbD i ≠ s.sie.getLsbD i) : 13 ≤ i ∧ s.hideleg.getLsbD i = true := by
  by_cases hc : c ∈ [.vsie, .vsieh]
  · obtain ⟨d, ⟨-, rfl⟩ | ⟨-, u, rfl⟩⟩ := h
    · exact absurd rfl hne
    · obtain ⟨p, hp⟩ := csrStore_vsie c hc (u &&& s.cfg.xmask) (s.setDraws d)
      rw [hp, writeVsie, State.setVsieOwn_sie, State.setSie_sie, getLsbD_half_write_delegated _ _ _ _ _ i hi] at hne
      split_ifs at hne with h13
      · exact ⟨h13.1, h13.2.1⟩
      · exact absurd rfl hne
  · exact absurd (congrArg (BitVec.getLsbD · i) (h.frame.sie hc)) hne

end

/-! ### The state of the hypervisor -/

/-- What a turn with V = 1 leaves of the hypervisor's state (R120, R178). -/
structure GuestFrame (t s : State) : Prop where
  hideleg : t.hideleg = s.hideleg
  hvien : t.hvien = s.hvien
  hvictl : t.hvictl = s.hvictl
  hviprio1 : t.hviprio1 = s.hviprio1
  hviprio2 : t.hviprio2 = s.hviprio2
  vgein : t.vgein = s.vgein
  outside : t.outside = s.outside
  iommu : t.iommu = s.iommu
  cfg : t.cfg = s.cfg
  fileAt : ∀ g, g ≠ s.vgein.toNat → fileAt t g = fileAt s g
  files : vgeinValid s = false → t.files = s.files
  hvip : ∀ i, i < 64 → t.hvip.getLsbD i ≠ s.hvip.getLsbD i →
    (13 ≤ i ∧ s.hideleg.getLsbD i = false ∧ s.hvien.getLsbD i = true) ∨ (i = 2 ∧ s.hideleg.getLsbD 2 = true)
  sip : ∀ i, i < 64 → t.sip.getLsbD i ≠ s.sip.getLsbD i → 13 ≤ i ∧ s.hideleg.getLsbD i = true
  sie : ∀ i, i < 64 → t.sie.getLsbD i ≠ s.sie.getLsbD i → 13 ≤ i ∧ s.hideleg.getLsbD i = true

/-- The trap, the return and an exception touch none of it. -/
theorem SameTop.guestFrame {t s : State} (h : SameTop t s) (ho : t.outside = s.outside) (hi : t.iommu = s.iommu) :
    GuestFrame t s where
  hideleg := h.pending.hideleg
  hvien := h.pending.hvien
  hvictl := h.hvictl
  hviprio1 := h.hviprio1
  hviprio2 := h.hviprio2
  vgein := h.pending.vgein
  outside := ho
  iommu := hi
  cfg := h.pending.cfg
  fileAt g _ := fileAt_congr h.pending.files g
  files _ := h.pending.files
  hvip i _ hne := absurd (congrArg (BitVec.getLsbD · i) h.pending.hvip) hne
  sip i _ hne := absurd (congrArg (BitVec.getLsbD · i) h.pending.sip) hne
  sie i _ hne := absurd (congrArg (BitVec.getLsbD · i) h.enabled.sie) hne

theorem setOutcome_sameTop (s : State) (o : Option TrapRecord) : SameTop (s.setOutcome o) s := by
  constructor
  case pending => constructor <;> rfl
  case enabled => constructor <;> rfl
  all_goals rfl

theorem trapToVS_iommu (interrupt : Bool) (code : Nat) (tval : Word) (s : State) :
    (trapToVS interrupt code tval s).iommu = s.iommu := by
  obtain ⟨d, h⟩ := trapToVS_eq interrupt code tval s
  simp [h, enterVS]

/-- A CSR instruction of a guest reaches a VS register, and of the hypervisor's state what that holds. -/
theorem exec_csr_guestFrame (i : Instr) (n : BitVec 12) (s t : State) (hv : s.mode.virt = true)
    (hi : csrField i = some n) (ht : exec i s = .next t) : GuestFrame t s := by
  obtain ⟨hcfg, -, -, houtside, -, -, hiommu, -⟩ := exec_csr_keeps hi ht
  rcases exec_csr_reaches i n s t hi ht with ⟨o, rfl⟩ | ⟨c, v, pc, x, hp, hw, rfl, -⟩
  · exact (setOutcome_sameTop s o).guestFrame rfl rfl
  · have hs := (check_pass_guest s n _ c hv hp).2
    have hc := not_hypervisorReg_of_supNumber c n hs
    have hfile := (check_pass_register s n _ c hp).1
    simp only [List.mem_cons, List.not_mem_nil, or_false, not_or] at hc
    obtain ⟨hhstatus, hhideleg, hhidelegh, hhvien, hhvienh, hhvictl, hprio1, hprio1h, hprio2, hprio2h, -⟩ := hc
    have F := hw.frame
    exact
      { hideleg := F.hideleg hhideleg hhidelegh
        hvien := F.hvien hhvien hhvienh
        hvictl := F.hvictl hhvictl
        hviprio1 := F.hviprio1 hprio1 hprio1h
        hviprio2 := F.hviprio2 hprio2 hprio2h
        vgein := F.vgein hhstatus
        outside := houtside
        iommu := hiommu
        cfg := hcfg
        fileAt := F.fileAt
        files := fun hg => F.files fun hm => by
          rw [vgeinValid_of_fileException s c hm hfile] at hg
          cases hg
        hvip := fun j hj hne => hw.guest_hvip hj hs hne
        sip := fun j hj hne => hw.guest_sip hj hne
        sie := fun j hj hne => hw.guest_sie hj hne }

theorem hartTurn_guestFrame (d : Bool) (s t : State) (hv : s.mode.virt = true) (h : hartTurn d s = .next t) :
    GuestFrame t s := by
  rcases guestTurn_next d s t hv h with ⟨-, rfl⟩ | ⟨o, rfl⟩ | rfl | ⟨i, n, hn, hi⟩
  · exact (trapToVS_sameTop _ _ _ s).guestFrame (trapToVS_outside _ _ _ s) (trapToVS_iommu _ _ _ s)
  · exact (setOutcome_sameTop s o).guestFrame rfl rfl
  · exact (returnFromVS_sameTop s).guestFrame (by simp [returnFromVS]) (by simp [returnFromVS])
  · exact exec_csr_guestFrame i n s t hv hn hi

/-- Settles O56: the frame of the turn, on the state with the agenda moved on. -/
theorem guestTurnKeepsHypervisorState : Obligations.GuestTurnKeepsHypervisorState := by
  intro s t hm hv h
  obtain ⟨a, d, hd⟩ := step_hartMoves s t hm h
  have F := hartTurn_guestFrame d (s.setAgenda a) t hv hd
  exact ⟨F.hideleg, F.hvien, F.hvictl, F.hviprio1, F.hviprio2, F.vgein, F.outside, F.iommu, F.cfg, F.fileAt, F.files,
    F.hvip, F.sip, F.sie⟩

/-! ### vsip under VTI -/

/-- Bits of vsip other than 9 do not depend on the interrupt file. -/
theorem getLsbD_vsip_congr {t s : State} (hd : t.hideleg = s.hideleg) (hn : t.hvien = s.hvien) (hp : t.hvip = s.hvip)
    (hs : t.sip = s.sip) (hc : t.cfg = s.cfg) (ht : t.vstipTimer = s.vstipTimer) (i : Nat) (hi : i < 64) (h9 : i ≠ 9) :
    (vsip t).getLsbD i = (vsip s).getLsbD i := by
  rw [getLsbD_vsip t i hi, getLsbD_vsip s i hi, if_neg h9, if_neg h9, hip6, hip6, timerSignal, timerSignal, hip2, hip2,
    hd, hn, hp, hs, hc, ht]

/-- R134: with VTI = 1 a guest reaches neither vsip nor a half of it. -/
theorem not_vsip_of_vti (s : State) (n : BitVec 12) (w : Bool) (c : Csr) (hm : s.mode = .VS)
    (hv : s.hvictl.vti = true) (hp : check s n w = .pass c) : c ∉ [.vsip, .vsiph] := by
  have hx := (check_pass_register s n w c hp).2
  intro hc
  obtain rfl | rfl : c = .vsip ∨ c = .vsiph := by simpa using hc
  · simp [vtiTraps, hm, hv, isIntrReg] at hx
  · simp [vtiTraps, hm, hv, isIntrReg] at hx

/-- With VTI = 1 a CSR instruction of a guest leaves every bit of vsip but bit 9, the file's. -/
theorem exec_csr_vti_vsip (i : Instr) (n : BitVec 12) (s t : State) (hv : s.mode.virt = true)
    (hvti : s.hvictl.vti = true) (hi : csrField i = some n) (ht : exec i s = .next t) (j : Nat) (hj : j < 64)
    (h9 : j ≠ 9) : (vsip t).getLsbD j = (vsip s).getLsbD j := by
  obtain ⟨hcfg, -, -, -, htimer, -⟩ := exec_csr_keeps hi ht
  have G := exec_csr_guestFrame i n s t hv hi ht
  rcases exec_csr_reaches i n s t hi ht with ⟨o, rfl⟩ | ⟨c, v, pc, x, hp, hw, rfl, -⟩
  · rw [(setOutcome_sameTop s o).pending.vsip]
  · obtain ⟨hm, hs⟩ := check_pass_guest s n _ c hv hp
    have hother := not_hypervisorReg_of_supNumber c n hs
    have hc := not_vsip_of_vti s n _ c hm hvti hp
    exact getLsbD_vsip_congr G.hideleg G.hvien (hw.frame.hvip (by simp at hc hother ⊢; tauto)) (hw.frame.sip hc) hcfg
      htimer j hj h9

/-- Settles O57: only an access to the interrupt file reaches a bit of vsip, and that is bit 9. -/
theorem vtiGuestClearsNoPendingBit : Obligations.VtiGuestClearsNoPendingBit := by
  intro s t hm hv hvti h j hj h9 hbit
  obtain ⟨a, d, hd⟩ := step_hartMoves s t hm h
  have hagenda : (vsip (s.setAgenda a)).getLsbD j = true := hbit
  rw [← hagenda]
  rcases guestTurn_next d (s.setAgenda a) t hv hd with ⟨-, rfl⟩ | ⟨o, rfl⟩ | rfl | ⟨i, n, hn, hi⟩
  · rw [takeInterrupt, (trapToVS_sameTop _ _ _ _).pending.vsip]
  · rw [(setOutcome_sameTop _ o).pending.vsip]
  · rw [(returnFromVS_sameTop _).pending.vsip]
  · exact exec_csr_vti_vsip i n (s.setAgenda a) t hv hvti hn hi j hj h9

/-! ### hvictl and the pending bits -/

/-- A CSR instruction on hvictl leaves the storage behind hip, vsip and vsie. -/
theorem exec_hvictl_samePending (i : Instr) (s t : State) (hi : csrField i = some 0x609) (ht : exec i s = .next t) :
    SamePending t s ∧ SameEnabled t s := by
  obtain ⟨hcfg, -, -, -, htimer, hplatform, -, -⟩ := exec_csr_keeps hi ht
  have F : CsrFrame .hvictl t s := exec_csr_frame hi ht rfl
  refine ⟨⟨hcfg, F.vgein ?_, F.files ?_, F.hideleg ?_ ?_, F.hvien ?_ ?_, F.hvip ?_, F.sip ?_, htimer, hplatform⟩,
    ⟨F.hideleg ?_ ?_, F.hvien ?_ ?_, F.hie ?_, F.sie ?_, F.vsieOwn ?_⟩⟩
  all_goals decide

/-- Settles O33: by value, hvictl is no part of the storage; by access, that storage stays. -/
theorem hvictlAffectsNoPendingBits : Obligations.HvictlAffectsNoPendingBits := by
  refine fun s => ⟨fun h => ?_, fun i t hi ht => ?_⟩
  · have hp := setHvictl_samePending s h
    exact ⟨hp.hipValue, hp.vsip, (setHvictl_sameEnabled s h).vsie, hp.sip⟩
  · obtain ⟨hp, he⟩ := exec_hvictl_samePending i s t hi ht
    exact ⟨hp.hipValue, hp.vsip, he.vsie, hp.sip⟩

end Sys2Proof.Machine
end

section
/-! The choice that vstopi reports (60_exceptions.md R154-R163): the major candidate, the finalists, the fields. -/

namespace Sys2Proof.Machine

/-! ### The major candidate -/

theorem mem_ready_iff (s : State) (i : Nat) :
    i ∈ (List.range 64).filter (majorReady s) ↔
      i ≤ 63 ∧ i ≠ 9 ∧ (vsip s).getLsbD i = true ∧ (vsie s).getLsbD i = true := by
  simp only [List.mem_filter, List.mem_range, majorReady, Bool.and_eq_true, bne_iff_ne, and_assoc]
  exact and_congr_left' Nat.lt_succ_iff

theorem majorCandidate_of_vti (s : State) (hv : s.hvictl.vti = true) (h9 : s.hvictl.iid ≠ 9) :
    majorCandidate s =
      some { iid := s.hvictl.iid.toNat, prio := s.hvictl.iprio.toNat, hi := !s.hvictl.dpr } := by
  rw [majorCandidate, if_pos hv, if_neg h9]

theorem majorCandidate_of_vti_nine (s : State) (hv : s.hvictl.vti = true) (h9 : s.hvictl.iid = 9) :
    majorCandidate s = none := by
  rw [majorCandidate, if_pos hv, if_pos h9]

section
variable (s : State) (hv : s.hvictl.vti = false)
include hv

theorem majorCandidate_of_highest_none
    (h : highest s.cfg (hviprio s) ((List.range 64).filter (majorReady s)) = none) : majorCandidate s = none := by
  rw [majorCandidate, if_neg (ne_true_of_eq_false hv), h]

theorem majorCandidate_of_highest_some (i : Nat)
    (h : highest s.cfg (hviprio s) ((List.range 64).filter (majorReady s)) = some i) :
    majorCandidate s = some { iid := i, prio := hviprio s i, hi := defaultHigher s.cfg i 9 } := by
  rw [majorCandidate, if_neg (ne_true_of_eq_false hv), h]

end

/-- Settles O43: the candidate is the highest of the list of the interrupts that are ready. -/
theorem majorCandidateIsMaximum : Obligations.MajorCandidateIsMaximum := by
  intro s ready hwf hv hready
  have hmem : ∀ i, ready i ↔ i ∈ (List.range 64).filter (majorReady s) := fun i =>
    (hready i).trans (mem_ready_iff s i).symm
  cases hh : highest s.cfg (hviprio s) ((List.range 64).filter (majorReady s)) with
  | none =>
    have hempty := (highest_eq_none _ _ _).mp hh
    refine ⟨fun _ => majorCandidate_of_highest_none s hv hh, fun ⟨i, hi⟩ => ?_⟩
    rw [hmem, hempty] at hi
    cases hi
  | some i =>
    have hrange : ∀ j ∈ (List.range 64).filter (majorReady s), j < 64 := fun j hj =>
      List.mem_range.mp (List.mem_filter.mp hj).1
    obtain ⟨hi, hmax⟩ := highest_spec s.cfg (hviprio s) (rankOk_of_wf _ hwf) _ hrange i hh
    refine ⟨fun hnone => absurd ((hmem i).mpr hi) (hnone i), fun _ =>
      ⟨i, (hmem i).mpr hi, majorCandidate_of_highest_some s hv i hh, fun j hne hj => ?_⟩⟩
    have hhigher := hmax j ((hmem j).mp hj) hne
    exact ⟨hhigher, higherPriority_asymm _ _ _ _ _ hhigher⟩

/-! ### The finalists -/

/-- R160's three conditions. -/
theorem majorWins_iff (e m : Candidate) :
    majorWins e m = true ↔ (m.prio = 0 ∧ m.hi = true) ∨ (1 ≤ m.prio ∧ m.prio < e.prio) ∨
      (1 ≤ m.prio ∧ m.prio = e.prio ∧ m.hi = true) := by
  simp [majorWins, or_assoc, and_assoc]

theorem tier_eq (c : Config) (a r : Nat) :
    tier c a r =
      if a ≠ 9 ∧ r = 0 ∧ c.defaultRank.idxOf a < c.defaultRank.idxOf 9 then 0 else if 1 ≤ r then 1 else 2 := by
  unfold tier defaultHigher
  by_cases hr : 1 ≤ r
  · have h0 : r ≠ 0 := by omega
    simp [hr, h0]
  · have h0 : r = 0 := by omega
    simp [h0]

/-- With a priority number of at least 1 interrupt 9 lies in the middle tier. -/
theorem tier_nine (c : Config) (q : Nat) (hq : 1 ≤ q) : tier c 9 q = 1 := if_pos hq

/-- R160 is R158 between a major interrupt other than 9 and interrupt 9 (D14). -/
theorem majorWins_eq_higherPriority (c : Config) (i p q : Nat) (h : Bool) (hi : i ≠ 9) (hq : 1 ≤ q) :
    majorWins { iid := 9, prio := q, hi := h }
      { iid := i, prio := p, hi := decide (c.defaultRank.idxOf i < c.defaultRank.idxOf 9) } =
      higherPriority c i p 9 q := by
  rw [Bool.eq_iff_iff, majorWins_iff, higherPriority_iff, tier_nine c q hq, tier_eq]
  simp only [decide_eq_true_eq]
  by_cases h0 : p = 0
  · by_cases hr : c.defaultRank.idxOf i < c.defaultRank.idxOf 9 <;> simp [h0, hi, hr]
  · have h1 : 1 ≤ p := by omega
    simp [h0, h1]

/-- Settles O44, by the order written out and the choice between the finalists. -/
theorem priorityOrderHasThreeTiers : Obligations.PriorityOrderHasThreeTiers := by
  intro c rank tierOf i j p q _ _ _ hne hrank htier _ hq
  obtain rfl : rank = fun a => c.defaultRank.idxOf a := funext hrank
  obtain rfl : tierOf = tier c := by
    funext a r
    rw [htier, tier_eq]
  refine ⟨?_, fun hj h => ?_⟩
  · rw [higherPriority_iff]
    constructor
    · rintro (h | ⟨ht, ⟨h1, hp⟩ | ⟨h1, hr⟩⟩)
      · exact .inl h
      · exact .inr (.inl ⟨h1, ht.symm.trans h1, hp⟩)
      · exact .inr (.inr ⟨ht, Decidable.not_or_of_imp h1, hr⟩)
    · rintro (h | ⟨h1, h2, hp⟩ | ⟨ht, h1, hr⟩)
      · exact .inl h
      · exact .inr ⟨h1.trans h2.symm, .inl ⟨h1, hp⟩⟩
      · exact .inr ⟨ht, .inr ⟨fun e => h1.resolve_left (not_not_intro e), hr⟩⟩
  · exact majorWins_eq_higherPriority c i p q h (hj ▸ hne) (hq hj)

/-! ### The winner and the fields of vstopi -/

section
variable (s : State) (e m : Candidate)

theorem winner_external (he : externalCandidate s = some e) (hm : majorCandidate s = none) : winner s = some e := by
  rw [winner, he, hm]

theorem winner_major (he : externalCandidate s = none) (hm : majorCandidate s = some m) : winner s = some m := by
  rw [winner, he, hm]

theorem winner_none (he : externalCandidate s = none) (hm : majorCandidate s = none) : winner s = none := by
  rw [winner, he, hm]

theorem winner_both (he : externalCandidate s = some e) (hm : majorCandidate s = some m) :
    winner s = if majorWins e m then some m else some e := by
  rw [winner, he, hm]

end

theorem vstopi_none (s : State) (h : winner s = none) : vstopi s = 0 := by
  rw [vstopi, h]

theorem highest_mem (c : Config) (p : Nat → Nat) (l : List Nat) (i : Nat) (h : highest c p l = some i) : i ∈ l := by
  induction l generalizing i with
  | nil => cases h
  | cons a l ih =>
    unfold highest at h
    split at h
    · cases h
      exact List.mem_cons_self
    · next b hb =>
      split at h <;> cases h
      · exact List.mem_cons_of_mem a (ih _ hb)
      · exact List.mem_cons_self

theorem externalCandidate_iid (s : State) (e : Candidate) (h : externalCandidate s = some e) : e.iid = 9 := by
  unfold externalCandidate at h
  split_ifs at h <;> cases h <;> rfl

/-- The identity of a major candidate: hvictl's, or one of 0..63. -/
theorem majorCandidate_iid (s : State) (m : Candidate) (h : majorCandidate s = some m) :
    m.iid = s.hvictl.iid.toNat ∨ m.iid < 64 := by
  unfold majorCandidate at h
  split at h
  · split at h <;> cases h
    exact .inl rfl
  · split at h
    · cases h
    · next i hi =>
      cases h
      exact .inr (List.mem_range.mp (List.mem_filter.mp (highest_mem _ _ _ i hi)).1)

theorem winner_iid (s : State) (w : Candidate) (h : winner s = some w) :
    w.iid = s.hvictl.iid.toNat ∨ w.iid < 64 := by
  have hext : externalCandidate s = some w → w.iid < 64 := fun he => by
    rw [externalCandidate_iid s w he]
    decide
  unfold winner at h
  split at h
  · cases h
  · next e he _ => cases h; exact .inr (hext he)
  · next m _ hm => cases h; exact majorCandidate_iid s _ hm
  · next e m he hm =>
    split at h <;> cases h
    · exact majorCandidate_iid s _ hm
    · exact .inr (hext he)

/-- An identity fits the 12 bits of field IID (R41). -/
theorem winner_iid_lt (s : State) (w : Candidate) (h : winner s = some w) : w.iid < 4096 := by
  have h12 := s.hvictl.iid.isLt
  rcases winner_iid s w h with h | h <;> omega

theorem iprioOut_le (b : Bool) (w : Candidate) : iprioOut b w ≤ 255 := by
  unfold iprioOut
  split_ifs <;> omega

/-- The fields of a word of an identity above a priority number do not overlap (R163). -/
theorem toNat_topWord (iid p : Nat) (hi : iid < 4096) (hp : p ≤ 255) :
    ((BitVec.ofNat 64 iid <<< 16) ||| BitVec.ofNat 64 p).toNat = iid * 65536 + p := by
  have hor : iid <<< 16 ||| p = iid * 65536 + p := by
    rw [← Nat.shiftLeft_add_eq_or_of_lt (by omega), Nat.shiftLeft_eq]
  rw [BitVec.toNat_or, BitVec.toNat_shiftLeft, BitVec.toNat_ofNat, BitVec.toNat_ofNat,
    Nat.mod_eq_of_lt (a := iid) (by omega), Nat.mod_eq_of_lt (a := p) (by omega),
    Nat.mod_eq_of_lt (a := iid <<< 16) (by rw [Nat.shiftLeft_eq]; omega), hor]

theorem vstopi_toNat (s : State) (w : Candidate) (h : winner s = some w) :
    (vstopi s).toNat = w.iid * 65536 + iprioOut s.hvictl.ipriom w := by
  rw [vstopi, h]
  exact toNat_topWord _ _ (winner_iid_lt s w h) (iprioOut_le _ w)

/-- Bits 27:16 (R41). -/
theorem vstopiIid_vstopi (s : State) (w : Candidate) (h : winner s = some w) : vstopiIid (vstopi s) = w.iid := by
  have hi := winner_iid_lt s w h
  have hp := iprioOut_le s.hvictl.ipriom w
  rw [vstopiIid, BitVec.extractLsb'_toNat, vstopi_toNat s w h, Nat.shiftRight_eq_div_pow]
  omega

/-- Bits 7:0 (R162). -/
theorem iprio_vstopi (s : State) (w : Candidate) (h : winner s = some w) :
    ((vstopi s).extractLsb' 0 8).toNat = iprioOut s.hvictl.ipriom w := by
  have hp := iprioOut_le s.hvictl.ipriom w
  rw [BitVec.extractLsb'_toNat, vstopi_toNat s w h, Nat.shiftRight_zero]
  omega

/-- The mask of the fields IID and IPRIO, bit by bit. -/
theorem getLsbD_topFields (i : Nat) (hi : i < 64) :
    (0x0FFF00FF : Word).getLsbD i = decide (i < 8 ∨ (16 ≤ i ∧ i < 28)) := by
  interval_cases i <;> decide

/-- Every bit of a number below `2 ^ n` stands below `n`. -/
theorem getLsbD_ofNat_lt (a n i : Nat) (h : a < 2 ^ n) (hb : (BitVec.ofNat 64 a).getLsbD i = true) : i < n := by
  rw [BitVec.getLsbD_ofNat, Bool.and_eq_true] at hb
  by_contra hge
  rw [Nat.testBit_lt_two_pow (h.trans_le (Nat.pow_le_pow_right (by decide) (Nat.le_of_not_lt hge)))] at hb
  exact absurd hb.2 (by decide)

theorem vstopi_other_bits (s : State) (w : Candidate) (h : winner s = some w) : vstopi s &&& ~~~0x0FFF00FF = 0 := by
  rw [← beq_iff_eq]
  refine (within_iff _ _).mpr fun i hi hb => ?_
  rw [vstopi, h, BitVec.getLsbD_or, Bool.or_eq_true, BitVec.getLsbD_shiftLeft] at hb
  rw [getLsbD_topFields i hi, decide_eq_true_iff]
  rcases hb with hb | hb
  · simp only [Bool.and_eq_true, decide_eq_true_eq, Bool.not_eq_true', decide_eq_false_iff_not] at hb
    have := getLsbD_ofNat_lt w.iid 12 (i - 16) (winner_iid_lt s w h) hb.2
    omega
  · have := getLsbD_ofNat_lt _ 8 i (Nat.lt_of_le_of_lt (iprioOut_le s.hvictl.ipriom w) (by decide)) hb
    omega

/-! ### Reads of vstopi -/

/-- R139: vstopi and stopi pass the check of a pure read, whatever hvictl.VTI is. -/
theorem check_vstopi_read (s : State) (n : BitVec 12) (h : reachesBy s 0xEB0 0xDB0 n) : check s n false = .pass .vstopi :=
  check_reachesBy s .vstopi 0xDB0 n false rfl h rfl (fun _ => rfl) rfl
    fun _ _ => ⟨rfl, fun e => absurd e Bool.false_ne_true⟩

/-- Settles O45: which finalist wins, the fields of its word, and the read. -/
theorem vstopiReportsWinner : Obligations.VstopiReportsWinner := by
  intro s
  refine ⟨winner_external s, winner_major s, fun e m he hm => ?_, fun he hm => vstopi_none s (winner_none s he hm),
    fun w hw => ⟨vstopiIid_vstopi s w hw, vstopi_other_bits s w hw, iprio_vstopi s w hw⟩, fun i n hr hi hw => ?_⟩
  · rw [winner_both s e m he hm]
    exact if_congr (majorWins_iff e m) rfl rfl
  · exact exec_csr_read i n s .vstopi hi hw (check_vstopi_read s n hr)

/-- Settles O46: with VTI = 1 hvictl alone decides on the major candidate. -/
theorem vtiSelectsHvictlInterrupt : Obligations.VtiSelectsHvictlInterrupt := by
  refine fun s hv => ⟨fun h9 => ?_, fun h9 => ?_⟩
  · have hm := majorCandidate_of_vti_nine s hv h9
    refine ⟨hm, fun hne => ?_⟩
    by_contra hready
    have he : externalCandidate s = none := externalCandidate_of_not_ready s (by
      rw [not_and_or, Bool.not_eq_true, Bool.not_eq_true] at hready
      exact hready)
    exact hne (vstopi_none s (winner_none s he hm))
  · have hm := majorCandidate_of_vti s hv h9
    refine ⟨hm, fun hp => ?_⟩
    exact vstopiIid_vstopi s _ (winner_major s _ (externalCandidate_of_not_ready s (.inl hp)) hm)

end Sys2Proof.Machine
end

section
/-! Every stored value stays legal (10_state.md sections 3 to 10): the legal states as a record of named parts, one rule
per operation on them, and the step. -/

namespace Sys2Proof.Machine

/-! ### Bits within a mask -/

/-- Every bit of `a` is one of `m`. -/
def Within (a m : BitVec 64) : Prop := ∀ i, i < 64 → a.getLsbD i = true → m.getLsbD i = true

theorem fits_iff (c : Config) (v : Word) : fits c v = true ↔ Within v c.xmask := within_iff v c.xmask

theorem Within.refl (m : BitVec 64) : Within m m := fun _ _ h => h

theorem Within.zero (m : BitVec 64) : Within 0 m := fun i _ h => by simp at h

theorem Within.and_right (v m : BitVec 64) : Within (v &&& m) m := fun i _ h => by
  rw [BitVec.getLsbD_and, Bool.and_eq_true] at h
  exact h.2

theorem Within.trans {a b m : BitVec 64} (h1 : Within a b) (h2 : Within b m) : Within a m :=
  fun i hi h => h2 i hi (h1 i hi h)

theorem Within.and_left {v m : BitVec 64} (h : Within v m) (w : BitVec 64) : Within (v &&& w) m := fun i hi hb => by
  rw [BitVec.getLsbD_and, Bool.and_eq_true] at hb
  exact h i hi hb.1

theorem Within.or {a b m : BitVec 64} (ha : Within a m) (hb : Within b m) : Within (a ||| b) m := fun i hi h => by
  rw [BitVec.getLsbD_or, Bool.or_eq_true] at h
  exact h.elim (ha i hi) (hb i hi)

theorem Within.or_left {a m : BitVec 64} (h : Within a m) (k : BitVec 64) : Within a (m ||| k) := fun i hi hb => by
  rw [BitVec.getLsbD_or, h i hi hb, Bool.true_or]

theorem Within.or_right {a m : BitVec 64} (h : Within a m) (k : BitVec 64) : Within a (k ||| m) := fun i hi hb => by
  rw [BitVec.getLsbD_or, h i hi hb, Bool.or_true]

/-- Bits of a mask within `m` replaced. -/
theorem Within.mergeBits {k old m : BitVec 64} (hk : Within k m) (ho : Within old m) (v : BitVec 64) :
    Within (mergeBits k old v) m := fun i hi h => by
  rw [getLsbD_mergeBits] at h
  split at h
  · next hb => exact hk i hi hb
  · exact ho i hi h

/-- A part of a register written, the writable bits being within `m`. -/
theorem Within.half_write {w old m : BitVec 64} (hw : Within w m) (ho : Within old m) (p : Half) (v : Word) :
    Within (p.write w old v) m := (hw.and_left p.mask).mergeBits ho _

/-- One bit replaced, where `m` has it. -/
theorem Within.bitAt {i : Nat} (hi : i < 64) {m : BitVec 64} (b : Bool) (hm : b = true → m.getLsbD i = true) :
    Within (bitAt i b) m := fun j _ h => by
  rw [getLsbD_bitAt i j b hi, Bool.and_eq_true, decide_eq_true_iff] at h
  rw [h.1]
  exact hm h.2

theorem Within.ofNat_lowMask {a n : Nat} (h : a < 2 ^ n) (hn : n < 64) : Within (BitVec.ofNat 64 a) (lowMask n) :=
  fun i _ hb => by
    rw [getLsbD_lowMask n hn, decide_eq_true_iff]
    exact getLsbD_ofNat_lt a n i h hb

/-! ### The legal states, part by part -/

/-- The legal states of Safety.lean with each part named. -/
structure IsLegal (s : State) : Prop where
  wf : s.cfg.wf = true
  x : ∀ i (h : i < 32), Within s.x[i] s.cfg.xmask
  x0 : s.x[0] = 0
  pc : Within s.pc s.cfg.xmask
  vsepc : Within s.vsepc s.cfg.xmask
  vstvec : Within s.vstvec s.cfg.xmask
  vstval : Within s.vstval s.cfg.xmask
  vsiselect : Within s.vsiselect (lowMask s.cfg.vsiselectBits)
  hideleg : Within s.hideleg s.cfg.hidelegW
  hvien : Within s.hvien (s.cfg.hvienW ||| s.cfg.hvienRO1)
  hvienOnes : Within s.cfg.hvienRO1 s.hvien
  hvip : Within s.hvip (hvipWritable s.cfg)
  hvictl : s.hvictl.iid.toNat < 2 ^ s.cfg.iidBits
  hviprio1 : Within s.hviprio1 (prioMask s.cfg prioFields1)
  hviprio2 : Within s.hviprio2 (prioMask s.cfg prioFields2)
  vsieOwn : Within s.vsieOwn Config.majorBits
  vscause : Within s.vscause (vscauseMask s.cfg)
  files : ∀ g (h : g < 64), fileLegal s.cfg s.files[g] = true
  mem : Memory.wf s.mem = true

theorem legal_iff_isLegal (s : State) : s.legal = true ↔ IsLegal s := by
  simp only [legal_iff, registersLegal_iff, fits_iff, vsiselectLegal, hidelegLegal, hvienLegal, hvipLegal, hvictlLegal,
    hviprioLegal, vsieOwnLegal, vscauseLegal, filesLegal_iff, Bool.and_eq_true, within_iff, decide_eq_true_iff]
  constructor
  · rintro ⟨hwf, ⟨hx, hx0, hpc, hvsepc, hvstvec, hvstval⟩, hvsiselect, hhideleg, ⟨hhvien, hones⟩, hhvip, hhvictl,
      ⟨hprio1, hprio2⟩, hown, hvscause, hfiles, hmem⟩
    exact ⟨hwf, hx, hx0, hpc, hvsepc, hvstvec, hvstval, hvsiselect, hhideleg, hhvien, hones, hhvip, hhvictl, hprio1,
      hprio2, hown, hvscause, hfiles, hmem⟩
  · rintro ⟨hwf, hx, hx0, hpc, hvsepc, hvstvec, hvstval, hvsiselect, hhideleg, hhvien, hones, hhvip, hhvictl, hprio1,
      hprio2, hown, hvscause, hfiles, hmem⟩
    exact ⟨hwf, ⟨hx, hx0, hpc, hvsepc, hvstvec, hvstval⟩, hvsiselect, hhideleg, ⟨hhvien, hones⟩, hhvip, hhvictl,
      ⟨hprio1, hprio2⟩, hown, hvscause, hfiles, hmem⟩

/-! ### The updates of a state -/

section
variable {s : State} (h : IsLegal s)
include h

theorem IsLegal.setMode (v : Mode) : IsLegal (s.setMode v) := { h with }
theorem IsLegal.setVgein (v : BitVec 6) : IsLegal (s.setVgein v) := { h with }
theorem IsLegal.setVsSIE (v : Bool) : IsLegal (s.setVsSIE v) := { h with }
theorem IsLegal.setVsSPIE (v : Bool) : IsLegal (s.setVsSPIE v) := { h with }
theorem IsLegal.setVsSPP (v : Bool) : IsLegal (s.setVsSPP v) := { h with }
theorem IsLegal.setSip (v : BitVec 64) : IsLegal (s.setSip v) := { h with }
theorem IsLegal.setSie (v : BitVec 64) : IsLegal (s.setSie v) := { h with }
theorem IsLegal.setHie (v : BitVec 64) : IsLegal (s.setHie v) := { h with }
theorem IsLegal.setVstipTimer (v : Bool) : IsLegal (s.setVstipTimer v) := { h with }
theorem IsLegal.setVseipPlatform (v : Bool) : IsLegal (s.setVseipPlatform v) := { h with }
theorem IsLegal.setOutside (v : Outside) : IsLegal (s.setOutside v) := { h with }
theorem IsLegal.setIommu (v : List (Nat × FileRef)) : IsLegal (s.setIommu v) := { h with }
theorem IsLegal.setOutcome (v : Option TrapRecord) : IsLegal (s.setOutcome v) := { h with }
theorem IsLegal.setAgenda (v : List Turn) : IsLegal (s.setAgenda v) := { h with }
theorem IsLegal.setDraws (v : Nat) : IsLegal (s.setDraws v) := { h with }
theorem IsLegal.setPc {v : Word} (hv : Within v s.cfg.xmask) : IsLegal (s.setPc v) := { h with pc := hv }
theorem IsLegal.setVsepc {v : Word} (hv : Within v s.cfg.xmask) : IsLegal (s.setVsepc v) := { h with vsepc := hv }
theorem IsLegal.setVstvec {v : Word} (hv : Within v s.cfg.xmask) : IsLegal (s.setVstvec v) := { h with vstvec := hv }
theorem IsLegal.setVstval {v : Word} (hv : Within v s.cfg.xmask) : IsLegal (s.setVstval v) := { h with vstval := hv }
theorem IsLegal.setVscause {v : Word} (hv : Within v (vscauseMask s.cfg)) : IsLegal (s.setVscause v) :=
  { h with vscause := hv }
theorem IsLegal.setVsiselect {v : Word} (hv : Within v (lowMask s.cfg.vsiselectBits)) : IsLegal (s.setVsiselect v) :=
  { h with vsiselect := hv }
theorem IsLegal.setHideleg {v : BitVec 64} (hv : Within v s.cfg.hidelegW) : IsLegal (s.setHideleg v) :=
  { h with hideleg := hv }
theorem IsLegal.setHvien {v : BitVec 64} (hv : Within v (s.cfg.hvienW ||| s.cfg.hvienRO1))
    (hones : Within s.cfg.hvienRO1 v) : IsLegal (s.setHvien v) := { h with hvien := hv, hvienOnes := hones }
theorem IsLegal.setHvip {v : BitVec 64} (hv : Within v (hvipWritable s.cfg)) : IsLegal (s.setHvip v) :=
  { h with hvip := hv }
theorem IsLegal.setHvictl {v : Hvictl} (hv : v.iid.toNat < 2 ^ s.cfg.iidBits) : IsLegal (s.setHvictl v) :=
  { h with hvictl := hv }
theorem IsLegal.setHviprio1 {v : BitVec 64} (hv : Within v (prioMask s.cfg prioFields1)) : IsLegal (s.setHviprio1 v) :=
  { h with hviprio1 := hv }
theorem IsLegal.setHviprio2 {v : BitVec 64} (hv : Within v (prioMask s.cfg prioFields2)) : IsLegal (s.setHviprio2 v) :=
  { h with hviprio2 := hv }
theorem IsLegal.setVsieOwn {v : BitVec 64} (hv : Within v Config.majorBits) : IsLegal (s.setVsieOwn v) :=
  { h with vsieOwn := hv }

theorem IsLegal.setFileAt (g : Nat) {f : IntrFile} (hf : fileLegal s.cfg f = true) : IsLegal (setFileAt s g f) :=
  { h with
    files := fun k hk => by
      rw [setFileAt_eq]
      simp only [State.setFiles_files, State.setFiles_cfg, Vector.getElem_setIfInBounds]
      split
      · exact hf
      · exact h.files k hk }

theorem IsLegal.fileAt (g : Nat) (hg : g < 64) : fileLegal s.cfg (fileAt s g) = true := by
  rw [Machine.fileAt, Vector.getElem?_eq_getElem hg]
  exact h.files g hg

theorem IsLegal.currentFile : fileLegal s.cfg (currentFile s) = true := h.fileAt _ s.vgein.isLt

theorem IsLegal.setCurrentFile {f : IntrFile} (hf : fileLegal s.cfg f = true) : IsLegal (setCurrentFile s f) :=
  h.setFileAt _ hf

/-- R53: `x[0]` stays, and another register takes XLEN bits. -/
theorem IsLegal.writeReg (r : BitVec 5) (v : Word) : IsLegal (writeReg r v s) := by
  unfold Machine.writeReg
  split
  · exact h
  · next hr =>
    have hne : r.toNat ≠ 0 := fun e => hr (BitVec.eq_of_toNat_eq e)
    exact
      { h with
        x := fun i hi => by
          simp only [State.setX_x, State.setX_cfg, Vector.getElem_set]
          split
          · exact Within.and_right v _
          · exact h.x i hi
        x0 := by
          simp only [State.setX_x, Vector.getElem_set, if_neg hne]
          exact h.x0 }

theorem IsLegal.advance : IsLegal (advance s) := h.setPc (Within.and_right _ _)

end

/-! ### The constraints on the parameters -/

section
variable {c : Config} (h : c.wf = true)
include h

theorem vscauseCodeBits_of_wf : c.iidBits ≤ c.vscauseCodeBits ∧ 6 ≤ c.vscauseCodeBits ∧ c.vscauseCodeBits < 64 := by
  simp only [Config.wf, Config.vscauseOk, Bool.and_eq_true, decide_eq_true_iff] at h
  have hx : c.xlenBits ≤ 64 := by
    unfold Config.xlenBits
    split <;> omega
  omega

theorem iidBits_of_wf : c.iidBits ≤ 12 := by
  simp only [Config.wf, Config.iidOk, Bool.and_eq_true, decide_eq_true_iff] at h
  omega

/-- No bit of hvien is both writable and read-only one (R15). -/
theorem hvienW_of_hvienRO1 (i : Nat) (hi : c.hvienRO1.getLsbD i = true) : c.hvienW.getLsbD i = false := by
  have hok : c.hvienOk = true := by
    simp only [Config.wf, Bool.and_eq_true] at h
    tauto
  simp only [Config.hvienOk, Bool.and_eq_true, beq_iff_eq] at hok
  obtain ⟨-, hdisjoint⟩ := hok
  have hzero : (c.hvienW &&& c.hvienRO1).getLsbD i = false := by
    rw [hdisjoint]
    exact BitVec.getLsbD_zero
  simpa [BitVec.getLsbD_and, hi] using hzero

end

/-! ### Legal interrupt files -/

theorem fileLegal_iff_within (c : Config) (f : IntrFile) :
    fileLegal c f = true ↔
      (∀ k, k < 32 → Within (arrayWord f.eip k) (idMask c k) ∧ Within (arrayWord f.eie k) (idMask c k)) ∧
        Within f.eithreshold (lowMask (ceilLog2 c.numIds)) := by
  simp only [fileLegal_iff, within_iff, Within]

/-- An array with one word replaced holds implemented identities where that word does (R131). -/
theorem within_setArrayWord {c : Config} {a : Vector (BitVec 64) 32} {k : Nat} {v : BitVec 64}
    (ha : ∀ j, j < 32 → Within (arrayWord a j) (idMask c j)) (hv : k < 32 → Within v (idMask c k)) (j : Nat)
    (hj : j < 32) : Within (arrayWord (setArrayWord a k v) j) (idMask c j) := by
  rw [arrayWord_setArrayWord]
  split
  · next h => exact h.1 ▸ hv h.2
  · exact ha j hj

/-- R62, R133: the bit of an identity is set where that is implemented, and may be cleared anywhere. -/
theorem within_setIdBit {c : Config} (hc : c.wf = true) {a : Vector (BitVec 64) 32} {n : Nat} {b : Bool}
    (ha : ∀ j, j < 32 → Within (arrayWord a j) (idMask c j)) (hb : b = true → 1 ≤ n ∧ n < c.numIds) (j : Nat)
    (hj : j < 32) : Within (arrayWord (setIdBit a n b) j) (idMask c j) := by
  refine within_setArrayWord ha (fun hn i hi h => ?_) j hj
  have hlt : n % 64 < 64 := Nat.mod_lt n (by decide)
  rw [getLsbD_mergeBits, getLsbD_bitAt _ _ _ hlt, getLsbD_bitAt _ _ _ hlt] at h
  split at h
  · simp only [Bool.and_eq_true, decide_eq_true_iff] at h
    obtain ⟨rfl, hset⟩ := h
    have hdiv : 64 * (n / 64) + n % 64 = n := Nat.div_add_mod n 64
    rw [getLsbD_idMask c hc _ _ hlt, hdiv]
    exact decide_eq_true (hb hset)
  · exact ha _ hn i hi h

section
variable {s : State} (h : IsLegal s)
include h

theorem IsLegal.setEidelivery (b : Bool) : IsLegal (Machine.setCurrentFile s { Machine.currentFile s with eidelivery := b }) :=
  h.setCurrentFile h.currentFile

theorem IsLegal.setEithreshold (v : Word) :
    IsLegal (Machine.setCurrentFile s { Machine.currentFile s with eithreshold := v &&& lowMask (ceilLog2 s.cfg.numIds) }) := by
  obtain ⟨harrays, -⟩ := (fileLegal_iff_within _ _).mp h.currentFile
  exact h.setCurrentFile ((fileLegal_iff_within _ _).mpr ⟨harrays, Within.and_right _ _⟩)

theorem IsLegal.setEip {a : Vector (BitVec 64) 32} (ha : ∀ j, j < 32 → Within (arrayWord a j) (idMask s.cfg j)) :
    IsLegal (Machine.setCurrentFile s { Machine.currentFile s with eip := a }) := by
  obtain ⟨harrays, hthreshold⟩ := (fileLegal_iff_within _ _).mp h.currentFile
  exact h.setCurrentFile ((fileLegal_iff_within _ _).mpr ⟨fun k hk => ⟨ha k hk, (harrays k hk).2⟩, hthreshold⟩)

theorem IsLegal.setEie {a : Vector (BitVec 64) 32} (ha : ∀ j, j < 32 → Within (arrayWord a j) (idMask s.cfg j)) :
    IsLegal (Machine.setCurrentFile s { Machine.currentFile s with eie := a }) := by
  obtain ⟨harrays, hthreshold⟩ := (fileLegal_iff_within _ _).mp h.currentFile
  exact h.setCurrentFile ((fileLegal_iff_within _ _).mpr ⟨fun k hk => ⟨(harrays k hk).1, ha k hk⟩, hthreshold⟩)

theorem IsLegal.within_eip (k : Nat) (hk : k < 32) : Within (arrayWord (Machine.currentFile s).eip k) (idMask s.cfg k) :=
  (((fileLegal_iff_within _ _).mp h.currentFile).1 k hk).1

theorem IsLegal.within_eie (k : Nat) (hk : k < 32) : Within (arrayWord (Machine.currentFile s).eie k) (idMask s.cfg k) :=
  (((fileLegal_iff_within _ _).mp h.currentFile).1 k hk).2

/-- R129, R131. -/
theorem IsLegal.writeFileReg (r : FileReg) (v : Word) : IsLegal (writeFileReg r v s) := by
  cases r with
  | eidelivery =>
    unfold Machine.writeFileReg
    split_ifs
    · exact h.setEidelivery false
    · exact h.setEidelivery true
    · exact (h.setDraws _).setEidelivery _
  | eithreshold => exact h.setEithreshold v
  | eip k p =>
    exact h.setEip (within_setArrayWord h.within_eip fun hk => (Within.refl _).half_write (h.within_eip k hk) p v)
  | eie k p =>
    exact h.setEie (within_setArrayWord h.within_eie fun hk => (Within.refl _).half_write (h.within_eie k hk) p v)

theorem IsLegal.writeVsireg (v : Word) : IsLegal (writeVsireg v s) := by
  unfold Machine.writeVsireg
  split
  · exact h.writeFileReg _ v
  · exact h

theorem IsLegal.claim : IsLegal (claim s) := by
  unfold Machine.claim
  split
  · exact h
  · exact h.setEip (within_setIdBit h.wf h.within_eip fun e => absurd e Bool.false_ne_true)

/-- R62: an MSI sets the bit of an implemented identity. -/
theorem IsLegal.msi (g n : Nat) (hg : g < 64) : IsLegal (Machine.setFileAt s g (msiWrite s.cfg (Machine.fileAt s g) n)) := by
  refine h.setFileAt g ?_
  have hf := h.fileAt g hg
  unfold msiWrite
  split
  · next hn =>
    obtain ⟨harrays, hthreshold⟩ := (fileLegal_iff_within _ _).mp hf
    refine (fileLegal_iff_within _ _).mpr ⟨fun k hk => ⟨?_, (harrays k hk).2⟩, hthreshold⟩
    exact within_setIdBit h.wf (fun j hj => (harrays j hj).1) (fun _ => hn) k hk
  · exact hf

/-! ### Writes of the other registers -/

/-- D10: a virtualized bit is one that hvien can hold, and so a writable bit of hvip. -/
theorem IsLegal.within_virtualized : Within (virtualized s) (hvipWritable s.cfg) := fun i hi hb => by
  rw [getLsbD_virtualized s i hi] at hb
  simp only [Bool.and_eq_true, decide_eq_true_iff] at hb
  have hvien := h.hvien i hi hb.2
  rw [BitVec.getLsbD_or] at hvien
  rw [hvipWritable, BitVec.getLsbD_or, BitVec.getLsbD_and, getLsbD_majorBits i hi, BitVec.getLsbD_or, hvien]
  simp [hb.1.1]

omit h in
theorem hvipWritable_two (c : Config) : (hvipWritable c).getLsbD 2 = true := by
  rw [hvipWritable, BitVec.getLsbD_or, show vsLevelBits.getLsbD 2 = true from by decide, Bool.true_or]

theorem IsLegal.writeHideleg (p : Half) (v : Word) : IsLegal (writeHideleg p v s) := by
  obtain ⟨d, hd⟩ := writeHideleg_eq p v s
  rw [hd]
  have hdraw : Within (unspecifiedBits s.hideleg s.hvien (p.write s.cfg.hidelegW s.hideleg v) s.hvien)
      Config.majorBits := (Within.refl _).and_left _
  exact ((h.setHideleg ((Within.refl _).half_write h.hideleg p v)).setVsieOwn (hdraw.mergeBits h.vsieOwn _)).setDraws d

theorem IsLegal.writeHvien (p : Half) (v : Word) : IsLegal (writeHvien p v s) := by
  obtain ⟨d, hd⟩ := writeHvien_eq p v s
  rw [hd]
  have hdraw : Within (unspecifiedBits s.hideleg s.hvien s.hideleg (p.write s.cfg.hvienW s.hvien v))
      Config.majorBits := (Within.refl _).and_left _
  have hones : Within s.cfg.hvienRO1 (p.write s.cfg.hvienW s.hvien v) := fun i hi hb => by
    rw [getLsbD_half_write, hvienW_of_hvienRO1 h.wf i hb]
    exact h.hvienOnes i hi hb
  have hlegal : Within (p.write s.cfg.hvienW s.hvien v) (s.cfg.hvienW ||| s.cfg.hvienRO1) :=
    ((Within.refl _).or_left _).half_write h.hvien p v
  exact ((h.setHvien hlegal hones).setVsieOwn (hdraw.mergeBits h.vsieOwn _)).setDraws d

theorem IsLegal.writeVsip (p : Half) (v : Word) : IsLegal (writeVsip p v s) := by
  have hbit : ∀ b, Within (bitAt 2 b) (hvipWritable s.cfg) := fun b =>
    Within.bitAt (by decide) b fun _ => hvipWritable_two s.cfg
  exact (h.setHvip ((hbit _).mergeBits (h.within_virtualized.half_write h.hvip p v) _)).setSip _

theorem IsLegal.writeVsie (p : Half) (v : Word) : IsLegal (writeVsie p v s) := by
  have hvirt : Within (virtualized s) Config.majorBits := ((Within.refl _).and_left _).and_left _
  exact ((h.setHie _).setSie _).setVsieOwn (hvirt.half_write h.vsieOwn p v)

omit h in
/-- R18: IID keeps its implemented bits. -/
theorem hvictlOf_iid_lt {c : Config} (hc : c.wf = true) (v : Word) : (hvictlOf c v).iid.toNat < 2 ^ c.iidBits := by
  have hk := iidBits_of_wf hc
  have hpow : 2 ^ c.iidBits ≤ 2 ^ 12 := Nat.pow_le_pow_right (by decide) hk
  have hpos : 0 < 2 ^ c.iidBits := Nat.two_pow_pos _
  have hmask : ((lowMask c.iidBits).setWidth 12).toNat = 2 ^ c.iidBits - 1 := by
    rw [lowMask, BitVec.toNat_setWidth, BitVec.toNat_ofNat]
    omega
  have hle : (hvictlOf c v).iid.toNat ≤ ((lowMask c.iidBits).setWidth 12).toNat := by
    rw [hvictlOf, BitVec.toNat_and]
    exact Nat.and_le_right
  omega

theorem IsLegal.writeHstatus (v : Word) : IsLegal (writeHstatus v s) := by
  obtain ⟨g, d, hd⟩ := writeHstatus_eq v s
  rw [hd]
  exact (h.setVgein g).setDraws d

/-- A write of an XLEN-bit value keeps every stored value legal. -/
theorem IsLegal.csrStore (c : Csr) {v : Word} (hv : Within v s.cfg.xmask) : IsLegal (csrStore c v s) := by
  cases c
  case hstatus => exact h.writeHstatus v
  case hideleg => exact h.writeHideleg _ v
  case hidelegh => exact h.writeHideleg _ v
  case hvien => exact h.writeHvien _ v
  case hvienh => exact h.writeHvien _ v
  case hie => exact h.setHie _
  case hvictl => exact h.setHvictl (hvictlOf_iid_lt h.wf v)
  case hip =>
    exact h.setHvip ((Within.bitAt (by decide) true fun _ => hvipWritable_two s.cfg).mergeBits h.hvip v)
  case hvip => exact h.setHvip ((Within.refl _).half_write h.hvip _ v)
  case hviph => exact h.setHvip ((Within.refl _).half_write h.hvip _ v)
  case hviprio1 => exact h.setHviprio1 ((Within.refl _).half_write h.hviprio1 _ v)
  case hviprio1h => exact h.setHviprio1 ((Within.refl _).half_write h.hviprio1 _ v)
  case hviprio2 => exact h.setHviprio2 ((Within.refl _).half_write h.hviprio2 _ v)
  case hviprio2h => exact h.setHviprio2 ((Within.refl _).half_write h.hviprio2 _ v)
  case vsstatus => exact ((h.setVsSIE _).setVsSPIE _).setVsSPP _
  case vsie => exact h.writeVsie _ v
  case vsieh => exact h.writeVsie _ v
  case vsip => exact h.writeVsip _ v
  case vsiph => exact h.writeVsip _ v
  case vstvec => exact h.setVstvec hv
  case vsepc => exact h.setVsepc (hv.and_left _)
  case vscause => exact h.setVscause (Within.and_right _ _)
  case vstval => exact h.setVstval hv
  case vsiselect => exact h.setVsiselect (Within.and_right _ _)
  case vsireg => exact h.writeVsireg v
  case vstopei => exact h.claim
  case vstimecmp => exact h
  case vstimecmph => exact h
  case vstopi => exact h

theorem IsLegal.csrWrite (c : Csr) (v : Word) : IsLegal (csrWrite c v s) := h.csrStore c (Within.and_right _ _)

theorem IsLegal.csrRead (c : Csr) : IsLegal (csrRead c s).2 := by
  rcases csrRead_state c s with e | e <;> rw [e]
  · exact h
  · exact h.setDraws _

theorem IsLegal.csrComplete (c : Csr) (r w : Bool) (f : Word → Word) (rd : BitVec 5) :
    IsLegal (csrComplete c r w f rd s) := by
  unfold Machine.csrComplete
  split_ifs
  · exact (((h.csrRead c).csrWrite c _).writeReg rd _).advance
  · exact ((h.csrRead c).writeReg rd _).advance
  · exact (h.csrWrite c _).advance

/-! ### Traps and returns -/

theorem IsLegal.returnFromVS : IsLegal (returnFromVS s) :=
  ((((h.setPc h.vsepc).setMode _).setVsSIE _).setVsSPIE _).setVsSPP _

theorem IsLegal.returnFromHS : IsLegal (returnFromHS s) := ((h.setPc (Within.and_right _ _)).setMode _).setOutside _

theorem IsLegal.vsHandler (b : Bool) (code : Nat) :
    Within (vsHandler b code s).1 s.cfg.xmask ∧ IsLegal (vsHandler b code s).2 := by
  refine ⟨?_, ?_⟩
  · unfold Machine.vsHandler
    split_ifs
    · exact h.vstvec.and_left _
    · exact Within.and_right _ _
    · exact Within.and_right _ _
  · rcases vsHandler_state b code s with e | e <;> rw [e]
    · exact h
    · exact h.setDraws _

theorem IsLegal.enterVS {handler : Word} (hh : Within handler s.cfg.xmask) : IsLegal (enterVS handler s) :=
  (((((h.setVsepc h.pc).setVsSPP _).setVsSPIE _).setVsSIE _).setMode _).setPc hh

/-- R168: a cause code of implemented bits and a trap value of XLEN bits. -/
theorem IsLegal.trapToVS (b : Bool) {code : Nat} {tval : Word} (hcode : code < 2 ^ s.cfg.vscauseCodeBits)
    (htval : Within tval s.cfg.xmask) : IsLegal (trapToVS b code tval s) := by
  have hlow : Within (BitVec.ofNat 64 code) (vscauseMask s.cfg) :=
    (Within.ofNat_lowMask hcode (vscauseCodeBits_of_wf h.wf).2.2).or_right _
  have hcause : Within ((if b then interruptBit s.cfg else 0) ||| BitVec.ofNat 64 code) (vscauseMask s.cfg) := by
    refine Within.or ?_ hlow
    split
    · exact (Within.refl _).or_left _
    · exact Within.zero _
  obtain ⟨hhandler, -⟩ := h.vsHandler b code
  obtain ⟨d, hd⟩ := trapToVS_eq b code tval s
  rw [hd]
  exact (((h.setDraws d).setVscause hcause).setVstval htval).enterVS hhandler

/-- R42: vscause holds the identity of every interrupt that vstopi reports. -/
theorem IsLegal.vstopiIid_lt : vstopiIid (vstopi s) < 2 ^ s.cfg.vscauseCodeBits := by
  obtain ⟨hiid, hsix, -⟩ := vscauseCodeBits_of_wf h.wf
  have h1 : 2 ^ s.cfg.iidBits ≤ 2 ^ s.cfg.vscauseCodeBits := Nat.pow_le_pow_right (by decide) hiid
  have h2 : 2 ^ 6 ≤ 2 ^ s.cfg.vscauseCodeBits := Nat.pow_le_pow_right (by decide) hsix
  have h3 := h.hvictl
  cases hw : winner s with
  | none =>
    rw [vstopi_none s hw]
    exact Nat.two_pow_pos _
  | some w =>
    rw [vstopiIid_vstopi s w hw]
    rcases winner_iid s w hw with e | e <;> omega

theorem IsLegal.takeInterrupt : IsLegal (takeInterrupt s) := h.trapToVS true h.vstopiIid_lt (Within.zero _)

end

/-! ### Turns and steps -/

/-- A value of at most 32 bits is an XLEN-bit value with either XLEN. -/
theorem within_setWidth {n : Nat} (c : Config) (w : BitVec n) (hn : n ≤ 32) : Within (w.setWidth 64) c.xmask :=
  fun i hi hb => by
    have h32 : i < 32 := by
      by_contra hge
      rw [BitVec.getLsbD_setWidth, BitVec.getLsbD_of_ge w i (by omega), Bool.and_false] at hb
      cases hb
    unfold Config.xmask
    split
    · exact (getLsbD_low32 i hi).trans (decide_eq_true h32)
    · exact getLsbD_all64 i hi

section
variable {s t : State} (h : IsLegal s)
include h

theorem IsLegal.exec (i : Instr) (ht : exec i s = .next t) : IsLegal t := by
  rcases csrField_cases i with rfl | ⟨n, hn⟩
  · rcases execSret_next s t ht with ⟨k, rfl⟩ | ⟨-, -, rfl⟩ | ⟨-, rfl⟩
    · exact h.setOutcome _
    · exact h.returnFromVS
    · exact h.returnFromHS
  · obtain ⟨r, f, he, -⟩ := exec_csr i n s hn
    rw [he] at ht
    rcases csrExec_next _ _ _ _ _ _ _ _ ht with ⟨k, -, rfl⟩ | ⟨c, -, rfl⟩
    · exact h.setOutcome _
    · exact h.csrComplete c r _ f _

theorem IsLegal.hartTurn (d : Bool) (ht : hartTurn d s = .next t) : IsLegal t := by
  obtain ⟨-, ⟨-, rfl⟩ | ⟨i, hi⟩ | ⟨w, rfl⟩⟩ := hartTurn_next d s t ht
  · exact h.takeInterrupt
  · exact h.exec i hi
  · exact h.setOutcome _

theorem IsLegal.applyMsi (g n : Nat) (ht : applyMsi g n s = .next t) : IsLegal t := by
  obtain ⟨-, hg, rfl⟩ := applyMsi_next g n s t ht
  have hgeilen : s.cfg.geilen ≤ 63 := by
    have hwf := h.wf
    simp only [Config.wf, Config.geilenOk, Bool.and_eq_true, decide_eq_true_iff] at hwf
    omega
  exact h.msi g n (by omega)

theorem IsLegal.applyEvent (e : Event) (ht : applyEvent e s = .next t) : IsLegal t := by
  rcases applyEvent_next e s t ht with rfl | ⟨g, n, hm⟩ | ⟨_, rfl⟩ | ⟨_, rfl⟩ | ⟨_, rfl⟩ | ⟨_, rfl⟩ | ⟨_, rfl⟩ | ⟨_, rfl⟩ |
    ⟨_, rfl⟩ | ⟨m, pc, o, -, rfl⟩ | ⟨r, v, -, hk, -, hv, rfl⟩
  · exact h
  · exact h.applyMsi g n hm
  · exact h.setIommu _
  · exact h.setSip _
  · exact h.setSie _
  · exact h.setHie _
  · exact h.setVstipTimer _
  · exact h.setVseipPlatform _
  · exact h.setOutside _
  · exact (((h.setMode m).setPc (Within.and_right _ _)).setOutside o).setOutcome none
  · have hsix := (vscauseCodeBits_of_wf h.wf).2.1
    have hpow : 2 ^ 6 ≤ 2 ^ s.cfg.vscauseCodeBits := Nat.pow_le_pow_right (by decide) hsix
    have hcode : r.kind.code < 2 ^ s.cfg.vscauseCodeBits := by
      rw [hk, ExcKind.code]
      omega
    refine (h.trapToVS false hcode ?_).setOutcome none
    rcases hv with rfl | rfl
    · exact Within.zero _
    · exact within_setWidth s.cfg r.instr le_rfl

end

/-- Settles O58, by the rule of each operation a turn is made of. -/
theorem stepKeepsLegal : Obligations.StepKeepsLegal := by
  intro s t h ht
  rw [legal_iff_isLegal] at h ⊢
  obtain ⟨a, ⟨e, -, he⟩ | ⟨-, d, hd⟩⟩ := step_next s t ht
  · exact (h.setAgenda a).applyEvent e he
  · exact (h.setAgenda a).hartTurn d hd

/-! ### Reset -/

theorem arrayWord_replicate (k : Nat) : arrayWord (Vector.replicate 32 0) k = 0 := by
  unfold arrayWord
  by_cases hk : k < 32 <;> simp [hk]

theorem fileLegal_blank (c : Config) : fileLegal c IntrFile.blank = true := by
  refine (fileLegal_iff_within _ _).mpr ⟨fun k _ => ?_, Within.zero _⟩
  have hword : arrayWord (Vector.replicate 32 (0 : BitVec 64)) k = 0 := arrayWord_replicate k
  exact ⟨hword ▸ Within.zero _, hword ▸ Within.zero _⟩

/-- R52: the fixed values of every well-formed configuration are legal, and so is zero elsewhere. -/
theorem resetOf_isLegal (c : Config) (h : c.wf = true) : IsLegal (State.resetOf c) := by
  have hpc : Within c.resetPc c.xmask := by
    simp only [Config.wf, Config.resetPcOk, Bool.and_eq_true, within_iff] at h
    exact h.2.1
  exact
    { wf := h
      x := fun i hi => by
        simp only [State.resetOf, Vector.getElem_replicate]
        exact Within.zero _
      x0 := rfl
      pc := hpc
      vsepc := Within.zero _
      vstvec := Within.zero _
      vstval := Within.zero _
      vsiselect := Within.zero _
      hideleg := Within.zero _
      hvien := (Within.refl c.hvienRO1).or_right c.hvienW
      hvienOnes := Within.refl c.hvienRO1
      hvip := Within.zero _
      hvictl := Nat.two_pow_pos _
      hviprio1 := Within.zero _
      hviprio2 := Within.zero _
      vsieOwn := Within.zero _
      vscause := Within.zero _
      files := fun g hg => by
        simp only [State.resetOf, Vector.getElem_replicate]
        exact fileLegal_blank c
      mem := rfl }

theorem cfgA_wf : Config.cfgA.wf = true := by decide

/-- Settles O60: reset is legal in every configuration, and M-mode takes no VS-level interrupt. -/
theorem resetIsLegal : Obligations.ResetIsLegal := by
  have hlegal : State.reset.legal = true := (legal_iff_isLegal _).mpr (resetOf_isLegal _ cfgA_wf)
  refine ⟨rfl, rfl, readReg_zero _, rfl, hlegal, ?_, fun s hs => ?_⟩
  · rw [State.maybeReset, hlegal]
    rfl
  · simp only [State.maybeReset, Bool.and_eq_true, decide_eq_true_iff] at hs
    obtain ⟨⟨⟨-, hmode⟩, -⟩, -⟩ := hs
    exact interruptTaken_of_not_interruptible s (interruptible_outside_guest s (.inl hmode))

end Sys2Proof.Machine
end

section
/-! The access checks of 41_vs_csr_access.md (R120-R143): what passes, what raises, what is refused by name. -/

namespace Sys2Proof.Machine

/-! ### The general clauses -/

theorem levelException_hypervisor (s : State) (h : hypervisorMode s = true) (p : BitVec 2) (hp : p ≠ 3) :
    levelException s.mode p = none := by
  rcases (hypervisorMode_iff s).mp h with hm | hm
  · rw [hm]
    exact if_neg hp
  · rw [hm]
    rfl

theorem vtiTraps_hypervisor (s : State) (h : hypervisorMode s = true) (c : Csr) (named w : Bool) :
    vtiTraps s c named w = false := by
  rcases (hypervisorMode_iff s).mp h with hm | hm <;> simp [vtiTraps, hm]

/-- R120, R123: by its own number in HS-mode or M-mode a register that is there passes, its file clause raising
nothing. -/
theorem check_own (s : State) (c : Csr) (w : Bool) (hm : hypervisorMode s = true) (hp : csrPresent s.cfg c = true)
    (ho : c = .vstopi → w = false) (hf : fileException s c = none) : check s (csrNumber c) w = .pass c := by
  refine check_of_clauses s _ w c ((csrExists_csrNumber _ _).trans hp) (fun hw => ?_)
    (levelException_hypervisor s hm _ (by rw [csrLevel_csrNumber]; decide))
    (by simp only [csrReached, csrNamed_csrNumber]) ?_
  · rw [csrReadOnly_csrNumber]
    exact decide_eq_false fun e => by simp [ho e] at hw
  · simp only [registerException, hf, vtiTraps_hypervisor s hm, Bool.false_eq_true, if_false]

/-- Clause 4 raises nothing on the registers but vsireg and vstopei where those reach something. -/
theorem fileException_none (s : State) (c : Csr) (h1 : c = .vsireg → fileSelected s = true)
    (h2 : c = .vstopei → vgeinValid s = true) : fileException s c = none := by
  cases c
  case vsireg => exact (vsiregException_eq_none_iff s).mpr (h1 rfl)
  case vstopei => exact (vstopeiException_eq_none_iff s).mpr (h2 rfl)
  all_goals rfl

/-- Settles O17: no clause of the check applies. -/
theorem hypervisorReachesEveryRegister : Obligations.HypervisorReachesEveryRegister := fun c w s hm hp ho h1 h2 =>
  check_own s c w hm hp ho (fileException_none s c h1 h2)

/-- Settles O18: in VS-mode the supervisor number reaches the VS register, and VTI traps none of these accesses. -/
theorem guestReachesVsRegisters : Obligations.GuestReachesVsRegisters := fun c n w s hm hs hp ho h1 h2 hv =>
  check_reachesBy s c n n w hs (.inr ⟨hm, rfl⟩) hp ho (fileException_none s c h1 h2) fun _ => hv

/-! ### Modes below the hypervisor -/

/-- The exception that the own number of a register raises below HS-mode (R120 clause 3). -/
theorem check_own_raises (s : State) (c : Csr) (w : Bool) (k : ExcKind) (hp : csrPresent s.cfg c = true)
    (ho : c = .vstopi → w = false) (hl : levelException s.mode 2 = some k) : check s (csrNumber c) w = .raises k := by
  refine check_of_level s _ w k ((csrExists_csrNumber _ _).trans hp) (fun hw => ?_)
    (by rw [csrLevel_csrNumber]; exact hl)
  rw [csrReadOnly_csrNumber]
  exact decide_eq_false fun e => by simp [ho e] at hw

/-- Where clause 3 raises an exception the check raises one, by whichever of the first three clauses applies first. -/
theorem check_raises_of_level (s : State) (n : BitVec 12) (w : Bool) (k : ExcKind)
    (hl : levelException s.mode (csrLevel n) = some k) : ∃ k', check s n w = .raises k' := by
  unfold check
  split
  · exact ⟨_, rfl⟩
  · split
    · exact ⟨_, rfl⟩
    · rw [hl]
      exact ⟨_, rfl⟩

/-- Every number of a register of the spec lies above user level (R84, R85). -/
theorem csrLevel_of_named (n : BitVec 12) (h : (csrNamed n).isSome = true) : csrLevel n = 1 ∨ csrLevel n = 2 := by
  rcases csrNamed_cases n with hn | ⟨c, -, rfl⟩ | ⟨c, -, hs⟩
  · rw [hn] at h
    cases h
  · exact .inr (csrLevel_csrNumber c)
  · exact .inl (csrLevel_supNumber c n hs)

/-- R178: VU-mode and U-mode reach no register above user level. -/
theorem levelException_user (m : Mode) (p : BitVec 2) (hm : m = .VU ∨ m = .U) (hp : p = 1 ∨ p = 2) :
    ∃ k, levelException m p = some k := by
  rcases hm with rfl | rfl <;> rcases hp with rfl | rfl <;> exact ⟨_, rfl⟩

/-- Settles O19: clause 3 by the level of the number. -/
theorem registersClosedBelowHypervisor : Obligations.RegistersClosedBelowHypervisor := by
  refine fun i s => ⟨fun c hi hp ho => ⟨fun hm => ?_, fun hm => ?_⟩, fun n hi hn hm => ?_⟩
  · exact exec_csr_raises i _ s _ hi (check_own_raises s c _ _ hp ho (by rcases hm with hm | hm <;> rw [hm] <;> rfl))
  · exact exec_csr_raises i _ s _ hi (check_own_raises s c _ _ hp ho (by rw [hm]; rfl))
  · obtain ⟨k, hk⟩ := levelException_user s.mode _ hm (csrLevel_of_named n hn)
    obtain ⟨k', hk'⟩ := check_raises_of_level s n (writeAttempt i) k hk
    exact ⟨k', exec_csr_raises i n s k' hi hk'⟩

/-! ### Numbers no CSR has, and read-only numbers -/

theorem check_absent (s : State) (n : BitVec 12) (w : Bool) (h : csrExists s.cfg n = false) :
    check s n w = .raises .illegalInstruction := if_pos h

theorem check_readOnly (s : State) (n : BitVec 12) (h : csrReadOnly n = true) :
    check s n true = .raises .illegalInstruction := by
  unfold check
  split
  · rfl
  · rw [if_pos ⟨rfl, h⟩]

theorem csrReadOnly_iff (n : BitVec 12) : csrReadOnly n = true ↔ n.extractLsb' 10 2 = 3 := beq_iff_eq

/-- A number of R84 whose register the hart has not. -/
theorem csrExists_false_of_named (cfg : Config) (n : BitVec 12) (name : CsrName) (hn : csrNamed n = some name)
    (hp : csrPresent cfg (namedReg name) = false) : csrExists cfg n = false := by
  simp only [csrExists, hn, hp]

/-- The numbers of the high halves, own and supervisor. -/
theorem csrExists_high_half (cfg : Config) (n : BitVec 12) (hx : cfg.xlen = .rv64)
    (hn : n ∈ [0x613, 0x618, 0x655, 0x656, 0x657, 0x214, 0x254, 0x25D, 0x114, 0x154, 0x15D]) :
    csrExists cfg n = false := by
  have absent : ∀ name, csrNamed n = some name → namedReg name ∈
      [Csr.hidelegh, .hvienh, .hviph, .hviprio1h, .hviprio2h, .vsieh, .vsiph, .vstimecmph] → csrExists cfg n = false := by
    intro name hname hmem
    refine csrExists_false_of_named cfg n name hname ?_
    simp only [List.mem_cons, List.not_mem_nil, or_false] at hmem
    rcases hmem with h | h | h | h | h | h | h | h <;> rw [h] <;> simp [csrPresent, hx]
  simp only [List.mem_cons, List.not_mem_nil, or_false] at hn
  rcases hn with rfl | rfl | rfl | rfl | rfl | rfl | rfl | rfl | rfl | rfl | rfl <;>
    exact absent _ rfl (by decide)

theorem csrExists_vstopei (cfg : Config) (n : BitVec 12) (hi : cfg.hasImsic = false) (hn : n ∈ [0x25C, 0x15C]) :
    csrExists cfg n = false := by
  simp only [List.mem_cons, List.not_mem_nil, or_false] at hn
  rcases hn with rfl | rfl <;> exact csrExists_false_of_named cfg _ _ rfl hi

theorem csrExists_timer (cfg : Config) (n : BitVec 12) (hs : cfg.hasSstc = false)
    (hn : n ∈ [0x24D, 0x25D, 0x14D, 0x15D]) : csrExists cfg n = false := by
  simp only [List.mem_cons, List.not_mem_nil, or_false] at hn
  rcases hn with rfl | rfl | rfl | rfl <;>
    exact csrExists_false_of_named cfg _ _ rfl (by simp [namedReg, csrPresent, hs])

/-- Settles O20: clauses 1 and 2 of the check, which come before the mode. -/
theorem absentAndReadOnlyCsrsRaise : Obligations.AbsentAndReadOnlyCsrsRaise := by
  intro i n s hi h
  refine exec_csr_raises i n s _ hi ?_
  rcases h with h | ⟨hw, hro⟩ | ⟨hx, hn⟩ | ⟨him, hn⟩ | ⟨hst, hn⟩
  · exact check_absent s n _ h
  · rw [hw]
    exact check_readOnly s n ((csrReadOnly_iff n).mpr hro)
  · exact check_absent s n _ (csrExists_high_half s.cfg n hx hn)
  · exact check_absent s n _ (csrExists_vstopei s.cfg n him hn)
  · exact check_absent s n _ (csrExists_timer s.cfg n hst hn)

/-! ### The VS-level timer under VTI -/

/-- The numbers of R137 and the registers behind them. -/
theorem exists_timerReg_of_number (cfg : Config) (n : BitVec 12) (hs : cfg.hasSstc = true)
    (h : n = 0x14D ∨ (cfg.xlen = .rv32 ∧ n = 0x15D)) :
    ∃ c, (c = .vstimecmp ∨ c = .vstimecmph) ∧ supNumber c = some n ∧ csrPresent cfg c = true := by
  rcases h with rfl | ⟨hx, rfl⟩
  · exact ⟨.vstimecmp, .inl rfl, rfl, hs⟩
  · exact ⟨.vstimecmph, .inr rfl, rfl, by simp [csrPresent, hs, hx]⟩

/-- Settles O22: a write is of the trapped set; a read passes and draws. -/
theorem vtiTrapsTimerWrites : Obligations.VtiTrapsTimerWrites := by
  intro i n s hi hm hv hst hn
  obtain ⟨c, hc, hs, hp⟩ := exists_timerReg_of_number s.cfg n hst hn
  have hset : inVtiSet c = true ∧ isIntrReg c = false ∧ c ≠ .vstopi ∧ fileException s c = none ∧
      csrRead c s = takeFree s := by
    rcases hc with rfl | rfl <;> exact ⟨rfl, rfl, by decide, rfl, rfl⟩
  obtain ⟨hvti, hintr, hne, hfile, hread⟩ := hset
  refine ⟨fun hw => ?_, fun hw => ?_⟩
  · refine exec_csr_raises i n s _ hi (check_supNumber_raises s c n _ _ hm hs hp hne ?_)
    simp [registerException, hfile, vtiTraps, hm, hv, hw, hvti]
  · have hpass : check s n false = .pass c :=
      check_reachesBy s c n n false hs (.inr ⟨hm, rfl⟩) hp (fun _ => rfl) hfile
        fun _ _ => ⟨hintr, fun e => absurd e Bool.false_ne_true⟩
    rw [exec_csr_read i n s c hi hw hpass, hread]
    rfl

/-! ### Accesses to the interrupt file that reach nothing -/

theorem vsiregException_hypervisor (s : State) (hm : hypervisorMode s = true) (hf : fileSelected s = false) :
    vsiregException s = some .illegalInstruction := by
  have hVS : s.mode ≠ .VS := by
    rcases (hypervisorMode_iff s).mp hm with h | h <;> rw [h] <;> decide
  have hanswer : vsiregException s = none ∨ vsiregException s = some .illegalInstruction := by
    unfold vsiregException
    simp only [if_neg hVS]
    split_ifs
    · exact .inr rfl
    · split
      · exact .inl rfl
      · exact .inr rfl
    · exact .inr rfl
    · exact .inr rfl
  refine hanswer.resolve_left fun h => ?_
  rw [(vsiregException_eq_none_iff s).mp h] at hf
  cases hf

/-- Select values outside the two ranges name no register (R127). -/
theorem vsiregException_out_of_range (s : State) (h7 : s.vsiselect.toNat < 0x70 ∨ 0xFF < s.vsiselect.toNat)
    (h3 : ¬ (0x30 ≤ s.vsiselect.toNat ∧ s.vsiselect.toNat ≤ 0x3F)) :
    vsiregException s = some .illegalInstruction := by
  rw [vsiregException, if_neg h3, if_neg (by omega)]

section
variable (s : State) (hlo : 0x70 ≤ s.vsiselect.toNat) (hhi : s.vsiselect.toNat ≤ 0xFF)
include hlo hhi

/-- Reserved select values of the file's range (R48, R127). -/
theorem vsiregException_reserved (hg : vgeinValid s = true) (hf : fileReg s.cfg s.vsiselect.toNat = none) :
    vsiregException s = some .illegalInstruction := by
  rw [vsiregException, if_neg (by omega), if_pos ⟨hlo, hhi⟩, if_pos hg, hf]

theorem vsiregException_no_file_guest (hm : s.mode = .VS) (hg : vgeinValid s = false) :
    vsiregException s = some .virtualInstruction := by
  rw [vsiregException, if_neg (by omega), if_pos ⟨hlo, hhi⟩, if_neg (ne_true_of_eq_false hg), if_pos hm]

end

theorem vstopeiException_hypervisor (s : State) (hm : hypervisorMode s = true) (hg : vgeinValid s = false) :
    vstopeiException s = some .illegalInstruction := by
  rw [vstopeiException, if_neg (ne_true_of_eq_false hg), if_neg]
  rcases (hypervisorMode_iff s).mp hm with h | h <;> rw [h] <;> decide

theorem vstopeiException_guest (s : State) (hm : s.mode = .VS) (hg : vgeinValid s = false) :
    vstopeiException s = some .virtualInstruction := by
  rw [vstopeiException, if_neg (ne_true_of_eq_false hg), if_pos hm]

theorem exec_vsireg_raises (i : Instr) (s : State) (n : BitVec 12) (k : ExcKind) (hr : reachesBy s 0x251 0x151 n)
    (hi : csrField i = some n) (hk : vsiregException s = some k) :
    exec i s = .next (s.setOutcome (some ⟨k, s.pc, encode i⟩)) :=
  exec_csr_raises i n s k hi
    (check_reachesBy_raises s .vsireg k 0x151 n _ rfl hr rfl (fun h => by cases h) hk)

theorem exec_vstopei_raises (i : Instr) (s : State) (n : BitVec 12) (k : ExcKind) (hr : reachesBy s 0x25C 0x15C n)
    (hi : csrField i = some n) (hp : s.cfg.hasImsic = true) (hk : vstopeiException s = some k) :
    exec i s = .next (s.setOutcome (some ⟨k, s.pc, encode i⟩)) :=
  exec_csr_raises i n s k hi
    (check_reachesBy_raises s .vstopei k 0x15C n _ rfl hr hp (fun h => by cases h) hk)

/-- Settles O24, by the exception of the file's clause in each case. -/
theorem accessesThatReachNothingRaise : Obligations.AccessesThatReachNothingRaise := by
  refine fun i s => ⟨fun hi hm hf => ?_, fun hi hm h7 h3 => ?_, fun n hr hi hlo hhi hg h70 h72 hj => ?_,
    fun hi hm hlo hhi hg => ?_, fun hi hp hm hg => ?_, fun hi hp hm hg => ?_⟩
  · exact exec_vsireg_raises i s _ _ (.inl ⟨hm, rfl⟩) hi (vsiregException_hypervisor s hm hf)
  · exact exec_vsireg_raises i s _ _ (.inr ⟨hm, rfl⟩) hi (vsiregException_out_of_range s h7 h3)
  · exact exec_vsireg_raises i s n _ hr hi
      (vsiregException_reserved s hlo hhi hg (fileReg_absent s.cfg _ h70 h72 hj))
  · exact exec_vsireg_raises i s _ _ (.inr ⟨hm, rfl⟩) hi (vsiregException_no_file_guest s hlo hhi hm hg)
  · exact exec_vstopei_raises i s _ _ (.inl ⟨hm, rfl⟩) hi hp (vstopeiException_hypervisor s hm hg)
  · exact exec_vstopei_raises i s _ _ (.inr ⟨hm, rfl⟩) hi hp (vstopeiException_guest s hm hg)

/-! ### Accesses the spec gives no meaning -/

/-- The general clauses raising nothing, clauses 4 and 5 decide. -/
theorem check_eq_checkReached (s : State) (n : BitVec 12) (w : Bool) (he : csrExists s.cfg n = true)
    (hr : w = true → csrReadOnly n = false) (hl : levelException s.mode (csrLevel n) = none) :
    check s n w = checkReached s n w := by
  have h2 : ¬ (w = true ∧ csrReadOnly n = true) := fun ⟨hw, h⟩ => by simp [hr hw] at h
  rw [check, if_neg (by simp [he]), if_neg h2, hl]

/-- R142: with V = 0 a supervisor number reaches no register of this spec. -/
theorem check_supNumber_hypervisor (s : State) (c : Csr) (n : BitVec 12) (w : Bool) (hs : supNumber c = some n)
    (hp : csrPresent s.cfg c = true) (hm : hypervisorMode s = true) (ho : c = .vstopi → w = false) :
    check s n w = .refuses (.supervisorCsr n) := by
  have hnamed := csrNamed_supNumber c n hs
  have hreached : csrReached s.mode n = none := by
    rcases (hypervisorMode_iff s).mp hm with h | h <;> simp [csrReached, hnamed, h, Mode.virt]
  rw [check_eq_checkReached s n w ((csrExists_supNumber _ c n hs).trans hp) (fun hw => ?_)
    (levelException_hypervisor s hm _ (by rw [csrLevel_supNumber c n hs]; decide))]
  · simp [checkReached, hreached, hnamed]
  · rw [csrReadOnly_supNumber c n hs]
    exact decide_eq_false fun e => by simp [ho e] at hw

/-- U8, R135: a CSR that the spec does not describe is refused, but for a write that VTI traps. -/
theorem checkReached_undescribed (s : State) (n : BitVec 12) (w : Bool) (hn : csrNamed n = none) :
    checkReached s n w =
      if s.mode = .VS ∧ s.hvictl.vti = true ∧ w = true ∧ n ∈ s.cfg.vtiWriteTrapCsrs
      then .raises .virtualInstruction else .refuses (.undescribedCsr n) := by
  simp only [checkReached, csrReached, hn, Option.isSome_none, Bool.false_eq_true, if_false, List.contains_iff_mem]

/-- Settles O25, by the answer of clause 5. -/
theorem accessesOutsideTheSpecAreRefused : Obligations.AccessesOutsideTheSpecAreRefused := by
  refine fun i n s hi => ⟨fun c hs hp hm ho => ?_, fun hn he hr hl => ?_⟩
  · exact exec_csr_refuses i n s _ hi (check_supNumber_hypervisor s c n _ hs hp hm ho)
  · have hro : writeAttempt i = true → csrReadOnly n = false := fun hw =>
      eq_false_of_ne_true fun h => hr hw ((csrReadOnly_iff n).mp h)
    have hcheck := (check_eq_checkReached s n _ he hro hl).trans (checkReached_undescribed s n _ hn)
    split_ifs at hcheck ⊢
    · exact exec_csr_raises i n s _ hi hcheck
    · exact exec_csr_refuses i n s _ hi hcheck

end Sys2Proof.Machine
end

section
/-! Single accesses by the hypervisor and the guest to registers with one piece of state behind them: hvictl, vsiselect,
VGEIN, hie, hip and the trap registers of VS level (10_state.md sections 4 and 8, 41_vs_csr_access.md section 7). -/

namespace Sys2Proof.Machine

/-! ### The instructions on a register that the check passes -/

section
variable {s : State} {n : BitVec 12} {c : Csr} (rd rs1 : BitVec 5)

theorem exec_csrrw_x0 (hc : check s n true = .pass c) :
    exec (.csrrw 0 n rs1) s = .next (advance (csrWrite c (readReg rs1 s) s)) := by
  rw [exec_csrrw, csrExec_write_x0 _ _ _ _ _ hc]

theorem exec_csrrs_x0 (hc : check s n false = .pass c) :
    exec (.csrrs rd n 0) s = .next (advance (writeReg rd (csrRead c s).1 (csrRead c s).2)) := by
  rw [exec_csrrs, csrExec_read_zero _ _ _ _ _ _ hc]

/-- An instruction of the family that always writes, on a register whose read changes nothing: with rd = x0 the value
read is discarded. -/
theorem csrExec_write_pure (w : InstrWord) (v : Word) (hc : check s n true = .pass c) (hr : (csrRead c s).2 = s) :
    csrExec w n (rd != 0) true (fun _ => v) rd s = .next (advance (writeReg rd (csrRead c s).1 (csrWrite c v s))) := by
  by_cases h0 : rd = 0
  · rw [h0, csrExec_write_x0 _ _ _ _ _ hc, writeReg_zero]
  · rw [csrExec_write_reads _ _ _ _ _ hc _ h0, hr]

end

/-- A value whose bits are within a mask is not cut by it. -/
theorem Within.and_eq {a m : BitVec 64} (h : Within a m) : a &&& m = a := by
  refine BitVec.eq_of_getLsbD_eq fun i hi => ?_
  rw [BitVec.getLsbD_and]
  cases ha : a.getLsbD i
  · rfl
  · rw [h i hi ha, Bool.and_true]

theorem immediate_and_xmask (c : Config) (u : BitVec 5) : u.setWidth 64 &&& c.xmask = u.setWidth 64 :=
  (within_setWidth c u (by decide)).and_eq

/-! ### hvictl -/

theorem check_hvictl (s : State) (w : Bool) (hm : hypervisorMode s = true) : check s 0x609 w = .pass .hvictl :=
  check_own s .hvictl w hm rfl (fun h => by cases h) rfl

/-- Settles O15: the read is pure, and the write is that of the five fields. -/
theorem hvictlAccessCompletes : Obligations.HvictlAccessCompletes := by
  intro rd rs1 u s hm
  have hw := check_hvictl s true hm
  have hr := check_hvictl s false hm
  refine ⟨?_, ?_, fun h => ?_, fun h => ?_, fun h => ?_, fun h => ?_, ?_, ?_, ?_, ?_⟩
  · exact csrExec_write_pure rd _ _ hw rfl
  · have h := csrExec_write_pure rd (encode (.csrrwi rd 0x609 u)) (u.setWidth 64) hw rfl
    rw [csrWrite, immediate_and_xmask] at h
    exact h
  · exact csrExec_read_writes _ _ _ _ _ _ _ hw h
  · exact csrExec_read_writes _ _ _ _ _ _ _ hw h
  · exact csrExec_read_writes _ _ _ _ _ _ _ hw h
  · exact csrExec_read_writes _ _ _ _ _ _ _ hw h
  · exact csrExec_read_zero _ _ _ _ _ _ hr
  · exact csrExec_read_zero _ _ _ _ _ _ hr
  · exact csrExec_read_zero _ _ _ _ _ _ hr
  · exact csrExec_read_zero _ _ _ _ _ _ hr

/-- The defined bits of hvictl, IID with `k` implemented bits (R18). -/
def hvictlMask (k : Nat) : Word := (0x400003FF : BitVec 64) ||| (lowMask k <<< 16)

theorem getLsbD_hvictlMask (k i : Nat) (hk : k ≤ 12) (hi : i < 64) :
    (hvictlMask k).getLsbD i = decide (i < 10 ∨ i = 30 ∨ (16 ≤ i ∧ i < 16 + k)) := by
  have hfixed : (0x400003FF : BitVec 64).getLsbD i = decide (i < 10 ∨ i = 30) := by interval_cases i <;> decide
  rw [hvictlMask, BitVec.getLsbD_or, hfixed, BitVec.getLsbD_shiftLeft, getLsbD_lowMask k (by omega)]
  rw [Bool.eq_iff_iff]
  simp
  omega

/-- Reading the fields of a value back (R18, R19): each defined bit stands where it stood. -/
theorem hvictlValue_hvictlOf (c : Config) (hk : c.iidBits ≤ 12) (v : Word) :
    hvictlValue (hvictlOf c v) = v &&& hvictlMask c.iidBits := by
  refine BitVec.eq_of_getLsbD_eq fun i hi => ?_
  rw [BitVec.getLsbD_and, getLsbD_hvictlMask _ i hk hi]
  simp only [hvictlValue, hvictlOf, BitVec.getLsbD_or, getLsbD_bitAt 30 i _ (by decide), getLsbD_bitAt 9 i _ (by decide),
    getLsbD_bitAt 8 i _ (by decide), BitVec.getLsbD_shiftLeft, BitVec.getLsbD_setWidth, BitVec.getLsbD_and,
    BitVec.getLsbD_extractLsb', getLsbD_lowMask _ (show c.iidBits < 64 by omega)]
  by_cases h16 : 16 ≤ i
  · have hback : 16 + (i - 16) = i := by omega
    have h9 : i ≠ 9 := by omega
    have h8 : i ≠ 8 := by omega
    rw [hback]
    by_cases h30 : i = 30
    · have hk30 : ¬ 30 - 16 < 12 := by decide
      simp [h30]
    · have hrange : (i < 10 ∨ i = 30 ∨ 16 ≤ i ∧ i < 16 + c.iidBits) ↔ i - 16 < 12 ∧ i - 16 < c.iidBits := by omega
      simp only [hrange]
      have hlow : ¬ i < 8 := by omega
      have hword : i - 16 < 64 := by omega
      have hhigh : ¬ i < 16 := by omega
      simp only [hi, h30, h9, h8, hlow, hword, hhigh, decide_true, decide_false, Bool.false_and, Bool.true_and,
        Bool.false_or, Bool.or_false, Bool.not_false, Bool.decide_and]
      cases v.getLsbD i <;> simp
  · clear hk
    interval_cases i <;> simp

/-- Settles O16: the value written, read back from its fields. -/
theorem hvictlReadsBackDefinedFields : Obligations.HvictlReadsBackDefinedFields := by
  intro rd rs1 s hm hwf hrd
  have hk := iidBits_of_wf hwf
  let t := advance (csrWrite .hvictl (readReg rs1 s) s)
  have hmask : Within (hvictlMask s.cfg.iidBits) s.cfg.xmask := fun i hi hb => by
    rw [getLsbD_hvictlMask _ i hk hi, decide_eq_true_iff] at hb
    unfold Config.xmask
    split
    · exact (getLsbD_low32 i hi).trans (decide_eq_true (by omega))
    · exact getLsbD_all64 i hi
  refine ⟨t, _, exec_csrrw_x0 rs1 (check_hvictl s true hm), exec_csrrs_x0 rd (check_hvictl t false hm), ?_⟩
  have hread : (csrRead .hvictl t).1 = readReg rs1 s &&& hvictlMask s.cfg.iidBits := by
    have hfields : (csrRead .hvictl t).1 = (readReg rs1 s &&& s.cfg.xmask) &&& hvictlMask s.cfg.iidBits :=
      hvictlValue_hvictlOf s.cfg hk _
    rw [hfields, BitVec.and_assoc, BitVec.and_comm s.cfg.xmask, hmask.and_eq]
  have hrd' : readReg rd (advance (writeReg rd (csrRead .hvictl t).1 (csrRead .hvictl t).2)) =
      (csrRead .hvictl t).1 &&& s.cfg.xmask := readReg_writeReg_same rd _ t hrd
  rw [hrd', hread, BitVec.and_assoc, hmask.and_eq]
  rfl

/-! ### Values of XLEN bits, and values in part free -/

theorem getLsbD_xmask (c : Config) (i : Nat) (hi : i < 32) : c.xmask.getLsbD i = true := by
  unfold Config.xmask
  split
  · exact (getLsbD_low32 i (by omega)).trans (decide_eq_true hi)
  · exact getLsbD_all64 i (by omega)

theorem getLsbD_and_xmask (c : Config) (v : Word) (i : Nat) (hi : i < 32) : (v &&& c.xmask).getLsbD i = v.getLsbD i := by
  rw [BitVec.getLsbD_and, getLsbD_xmask c i hi, Bool.and_true]

theorem toNat_and_lowMask (a : BitVec 64) (n : Nat) (hn : n ≤ 64) : (a &&& lowMask n).toNat = a.toNat % 2 ^ n := by
  have hpow : 2 ^ n ≤ 2 ^ 64 := Nat.pow_le_pow_right (by decide) hn
  have hpos : 0 < 2 ^ n := Nat.two_pow_pos n
  rw [BitVec.toNat_and, lowMask, BitVec.toNat_ofNat, Nat.mod_eq_of_lt (by omega), Nat.and_two_pow_sub_one_eq_mod]

/-- R142: a bit that the spec gives is read as it is. -/
theorem getLsbD_readPartly (k v : Word) (s : State) (i : Nat) (hk : k.getLsbD i = true) :
    (readPartly k v s).1.getLsbD i = v.getLsbD i := by
  rw [readPartly, getLsbD_mergeBits, if_pos hk]

/-! ### VGEIN, hie, hip -/

/-- Bits 17:12 lie below bit 32, so either XLEN holds them. -/
theorem vgein_and_xmask (c : Config) (v : Word) : (v &&& c.xmask).extractLsb' 12 6 = v.extractLsb' 12 6 := by
  refine BitVec.eq_of_getLsbD_eq fun i hi => ?_
  rw [BitVec.getLsbD_extractLsb', BitVec.getLsbD_extractLsb', getLsbD_and_xmask c v _ (by omega)]

/-- The read of hstatus gives VGEIN at its place (R12, R142). -/
theorem csrRead_hstatus_vgein (s : State) : (csrRead .hstatus s).1.extractLsb' 12 6 = s.vgein := by
  refine BitVec.eq_of_getLsbD_eq fun i hi => ?_
  have hknown : (0x3F000 : Word).getLsbD (12 + i) = true := by
    interval_cases i <;> decide
  rw [BitVec.getLsbD_extractLsb', csrRead, getLsbD_readPartly _ _ _ _ hknown, BitVec.getLsbD_shiftLeft,
    BitVec.getLsbD_setWidth]
  have h12 : ¬ 12 + i < 12 := by omega
  have h64 : 12 + i < 64 := by omega
  have hsub : 12 + i - 12 = i := by omega
  simp [hi, h12, h64, hsub]
  omega

theorem getLsbD_vsLevelBits (i : Nat) (hi : i < 64) :
    vsLevelBits.getLsbD i = decide (i = 10 ∨ i = 6 ∨ i = 2) := by
  unfold vsLevelBits
  interval_cases i <;> decide

theorem getLsbD_hipValue (s : State) (i : Nat) :
    (hipValue s).getLsbD i =
      (decide (i = 10) && hip10 s || decide (i = 6) && hip6 s || decide (i = 2) && hip2 s) := by
  simp only [hipValue, BitVec.getLsbD_or, getLsbD_bitAt 10 i _ (by decide), getLsbD_bitAt 6 i _ (by decide),
    getLsbD_bitAt 2 i _ (by decide)]

/-- R142: of hie the three bits of VS level are written. -/
theorem getLsbD_hie_written (c : Config) (old v : BitVec 64) (i : Nat) (hi : i < 64) :
    (mergeBits vsLevelBits old (v &&& c.xmask)).getLsbD i =
      if i = 10 ∨ i = 6 ∨ i = 2 then v.getLsbD i else old.getLsbD i := by
  rw [getLsbD_mergeBits, getLsbD_vsLevelBits i hi]
  by_cases h : i = 10 ∨ i = 6 ∨ i = 2
  · rw [getLsbD_and_xmask c v i (by omega)]
    simp [h]
  · simp [h]

/-- R142: of hip bit 2 of hvip is written. -/
theorem getLsbD_hip_written (c : Config) (old v : BitVec 64) (i : Nat) :
    (mergeBits (bitAt 2 true) old (v &&& c.xmask)).getLsbD i = if i = 2 then v.getLsbD 2 else old.getLsbD i := by
  rw [getLsbD_mergeBits, getLsbD_bitAt 2 i true (by decide)]
  by_cases h : i = 2
  · rw [h, getLsbD_and_xmask c v 2 (by decide)]
    simp
  · simp [h]

/-! ### vsiselect -/

theorem vsiselectBits_of_wf {c : Config} (h : c.wf = true) : c.vsiselectBits ≤ 64 := by
  simp only [Config.wf, Config.vsiselectOk, Bool.and_eq_true, decide_eq_true_iff] at h
  have hx : c.xlenBits ≤ 64 := by
    unfold Config.xlenBits
    split <;> omega
  omega

/-- Settles O34: each read and write of its own field. -/
theorem hypervisorFieldsReadAndWrite : Obligations.HypervisorFieldsReadAndWrite := by
  intro rd rs1 s hwf
  refine ⟨fun n hr hv => ?_, fun hm => ?_⟩
  · have hcheck : ∀ w, check s n w = .pass .vsiselect := fun w =>
      check_reachesBy s .vsiselect 0x150 n w rfl hr rfl (fun h => by cases h) rfl
        fun hVS hvti => ⟨rfl, fun _ => ⟨rfl, hv hVS hvti⟩⟩
    exact ⟨exec_csrrs_x0 rd (hcheck false), _, exec_csrrw_x0 rs1 (hcheck true),
      toNat_and_lowMask _ _ (vsiselectBits_of_wf hwf)⟩
  · have hcheck : ∀ c w, csrPresent s.cfg c = true → c ≠ .vstopi → fileException s c = none →
        check s (csrNumber c) w = .pass c := fun c w hp ho hf => check_own s c w hm hp (fun e => absurd e ho) hf
    have hhstatus : ∀ w, check s 0x600 w = .pass .hstatus := fun w => hcheck .hstatus w rfl (by decide) rfl
    have hhie : ∀ w, check s 0x604 w = .pass .hie := fun w => hcheck .hie w rfl (by decide) rfl
    have hhip : ∀ w, check s 0x644 w = .pass .hip := fun w => hcheck .hip w rfl (by decide) rfl
    refine ⟨fun hg => ?_, fun hg => ?_, ⟨_, exec_csrrs_x0 rd (hhstatus false), csrRead_hstatus_vgein s⟩,
      ⟨_, exec_csrrw_x0 rs1 (hhie true), getLsbD_hie_written s.cfg s.hie _⟩,
      ⟨_, exec_csrrs_x0 rd (hhie false), ?_⟩,
      ⟨_, exec_csrrw_x0 rs1 (hhip true), fun i _ => getLsbD_hip_written s.cfg s.hvip _ i⟩,
      ⟨_, exec_csrrs_x0 rd (hhip false), ?_⟩⟩
    · rw [exec_csrrw_x0 rs1 (hhstatus true), csrWrite, csrStore, writeHstatus, vgein_and_xmask, if_pos hg]
    · rw [exec_csrrw_x0 rs1 (hhstatus true), csrWrite, csrStore, writeHstatus, vgein_and_xmask,
        if_neg (Nat.not_le.mpr hg)]
      exact ⟨_, rfl⟩
    · have hbit : ∀ i, vsLevelBits.getLsbD i = true → (csrRead .hie s).1.getLsbD i = s.hie.getLsbD i :=
        fun i => getLsbD_readPartly vsLevelBits s.hie s i
      exact ⟨hbit 10 (by decide), hbit 6 (by decide), hbit 2 (by decide)⟩
    · have hbit : ∀ i, vsLevelBits.getLsbD i = true → (csrRead .hip s).1.getLsbD i = (hipValue s).getLsbD i :=
        fun i => getLsbD_readPartly vsLevelBits (hipValue s) s i
      rw [hbit 10 (by decide), hbit 6 (by decide), hbit 2 (by decide), getLsbD_hipValue, getLsbD_hipValue,
        getLsbD_hipValue, ← hip10_eq]
      simp [hip6, timerSignal, hip2]

/-! ### The trap registers of VS level -/

/-- The five registers pass by their own numbers and, VTI_WRITE_TRAP_CSRS not naming them, by the guest's. -/
theorem check_trapReg (s : State) (c : Csr) (n : BitVec 12) (w : Bool)
    (hc : c ∈ [.vsstatus, .vstvec, .vsepc, .vscause, .vstval])
    (hn : (hypervisorMode s = true ∧ n = csrNumber c) ∨
      (s.mode = .VS ∧ supNumber c = some n ∧ (s.hvictl.vti = true → vtiNamed s.cfg n c = false))) :
    check s n w = .pass c := by
  have hplain : csrPresent s.cfg c = true ∧ c ≠ .vstopi ∧ fileException s c = none ∧ isIntrReg c = false ∧
      inVtiSet c = false := by
    simp only [List.mem_cons, List.not_mem_nil, or_false] at hc
    rcases hc with rfl | rfl | rfl | rfl | rfl <;> exact ⟨rfl, by decide, rfl, rfl, rfl⟩
  obtain ⟨hp, ho, hf, hintr, hset⟩ := hplain
  rcases hn with ⟨hm, rfl⟩ | ⟨hm, hs, hv⟩
  · exact check_own s c w hm hp (fun e => absurd e ho) hf
  · exact check_reachesBy s c n n w hs (.inr ⟨hm, rfl⟩) hp (fun e => absurd e ho) hf
      fun _ hvti => ⟨hintr, fun _ => ⟨hset, hv hvti⟩⟩

/-- The defined bits of vsstatus stand at 8, 5 and 1 (R13, R142). -/
theorem csrRead_vsstatus_bits (s : State) :
    (csrRead .vsstatus s).1.getLsbD 1 = s.vsSIE ∧ (csrRead .vsstatus s).1.getLsbD 5 = s.vsSPIE ∧
      (csrRead .vsstatus s).1.getLsbD 8 = s.vsSPP := by
  have hbit : ∀ i, (0x122 : Word).getLsbD i = true →
      (csrRead .vsstatus s).1.getLsbD i = (vsstatusValue s).getLsbD i := fun i =>
    getLsbD_readPartly 0x122 (vsstatusValue s) s i
  rw [hbit 1 (by decide), hbit 5 (by decide), hbit 8 (by decide)]
  simp only [vsstatusValue, BitVec.getLsbD_or, getLsbD_bitAt 8 _ _ (by decide : 8 < 64),
    getLsbD_bitAt 5 _ _ (by decide : 5 < 64), getLsbD_bitAt 1 _ _ (by decide : 1 < 64)]
  simp

/-- Settles O35: each register by its one rule of writing and of reading. -/
theorem vsTrapRegistersReadAndWrite : Obligations.VsTrapRegistersReadAndWrite := by
  intro c n rd rs1 s hn
  refine ⟨?_, ?_, ?_, ?_, ?_⟩ <;> rintro rfl
  · have hcheck := fun w => check_trapReg s .vsstatus n w (by decide) hn
    refine ⟨?_, _, exec_csrrs_x0 rd (hcheck false), csrRead_vsstatus_bits s⟩
    rw [exec_csrrw_x0 rs1 (hcheck true), csrWrite, csrStore, getLsbD_and_xmask _ _ 1 (by decide),
      getLsbD_and_xmask _ _ 5 (by decide), getLsbD_and_xmask _ _ 8 (by decide)]
  · have hcheck := fun w => check_trapReg s .vstvec n w (by decide) hn
    exact ⟨exec_csrrw_x0 rs1 (hcheck true), exec_csrrs_x0 rd (hcheck false)⟩
  · have hcheck := fun w => check_trapReg s .vsepc n w (by decide) hn
    exact ⟨exec_csrrw_x0 rs1 (hcheck true), exec_csrrs_x0 rd (hcheck false)⟩
  · have hcheck := fun w => check_trapReg s .vscause n w (by decide) hn
    exact ⟨exec_csrrw_x0 rs1 (hcheck true), exec_csrrs_x0 rd (hcheck false)⟩
  · have hcheck := fun w => check_trapReg s .vstval n w (by decide) hn
    exact ⟨exec_csrrw_x0 rs1 (hcheck true), exec_csrrs_x0 rd (hcheck false)⟩

end Sys2Proof.Machine
end

section
/-! The 64-bit registers with a high half (10_state.md sections 3 to 7): what a write by one CSR of them leaves in each bit,
and the aliases of vsip and vsie. -/

namespace Sys2Proof.Machine

/-! ### The CSR of a half -/

/-- The part of a 64-bit register behind the CSR of its high half, or behind that of its plain name (R23). -/
def halfOf (cfg : Config) (high : Bool) : Half := if high then .high else plainHalf cfg

section
variable {s : State} {high : Bool} {lo hi : Nat} (hb : holdsBits s.cfg high lo hi)
include hb

/-- The high half is there with XLEN = 32 only. -/
theorem xlen_of_holdsBits_high (hh : high = true) : s.cfg.xlen = .rv32 := by
  rcases hb with ⟨-, h, -⟩ | ⟨-, h, -⟩ | ⟨hx, -⟩
  · rw [h] at hh
    cases hh
  · rw [h] at hh
    cases hh
  · exact hx

theorem csrPresent_half {plain half : Csr} (hp : csrPresent s.cfg plain = true)
    (hh : csrPresent s.cfg half = (s.cfg.xlen == .rv32)) : csrPresent s.cfg (if high then half else plain) = true := by
  cases high
  · exact hp
  · exact hh.trans (beq_iff_eq.mpr (xlen_of_holdsBits_high hb rfl))

/-- The bits below 32 are those of the CSR of the plain name. -/
theorem getLsbD_half_mask_low (i : Nat) (hi32 : i < 32) : (halfOf s.cfg high).mask.getLsbD i = !high := by
  obtain ⟨-, -, -, hlow, hhigh⟩ := holdsBits_range s.cfg high lo hi hb
  rw [halfOf, getLsbD_half_mask s.cfg high lo hi hb i (by omega)]
  cases high
  · have hxlen : 32 ≤ hi := by
      rcases hb with ⟨-, -, -, h⟩ | ⟨-, -, -, h⟩ | ⟨-, h, -⟩
      · omega
      · omega
      · cases h
    exact decide_eq_true ⟨by rw [hlow rfl]; omega, by omega⟩
  · exact decide_eq_false (by rw [hhigh rfl]; omega)

theorem getLsbD_half_place_low (hh : high = false) (v : Word) (i : Nat) (hi32 : i < 32) :
    ((halfOf s.cfg high).place (v &&& s.cfg.xmask)).getLsbD i = v.getLsbD i := by
  obtain ⟨-, -, -, hlow, -⟩ := holdsBits_range s.cfg high lo hi hb
  have hmask := getLsbD_half_mask_low hb i hi32
  rw [halfOf, getLsbD_half_mask s.cfg high lo hi hb i (by omega), hh, Bool.not_false, decide_eq_true_iff] at hmask
  rw [halfOf, getLsbD_half_place s.cfg high lo hi hb v i hmask.1 hmask.2, hlow hh, Nat.sub_zero]

/-- A write by the CSR of a half: the writable bits that it holds, and no other (R23). -/
theorem getLsbD_halfOf_write (w old : BitVec 64) (v : Word) (i : Nat) (hi64 : i < 64) :
    ((halfOf s.cfg high).write w old (v &&& s.cfg.xmask)).getLsbD i =
      if lo ≤ i ∧ i < hi ∧ w.getLsbD i = true then v.getLsbD (i - lo) else old.getLsbD i :=
  getLsbD_half_write_value s.cfg high lo hi hb w old v i hi64

end

/-! ### hideleg and hvien, with the transitions of R35 -/

theorem getLsbD_unspecifiedBits (d v d' v' : BitVec 64) (i : Nat) (hi : i < 64) :
    (unspecifiedBits d v d' v').getLsbD i =
      (decide (13 ≤ i) && ((!d.getLsbD i && !d'.getLsbD i && !v.getLsbD i && v'.getLsbD i) ||
        (v.getLsbD i && v'.getLsbD i && d.getLsbD i && !d'.getLsbD i))) := by
  simp only [unspecifiedBits, BitVec.getLsbD_and, BitVec.getLsbD_or, BitVec.getLsbD_not, getLsbD_majorBits i hi, hi,
    decide_true, Bool.true_and]

/-- The second transition of R35: a bit of vsie ceases to be delegated where hvien enables it. -/
theorem getLsbD_draw_hideleg (d d' v own free : BitVec 64) (i : Nat) (hi : i < 64) :
    (mergeBits (unspecifiedBits d v d' v) own free).getLsbD i =
      if 13 ≤ i ∧ v.getLsbD i = true ∧ d.getLsbD i = true ∧ d'.getLsbD i = false
      then free.getLsbD i else own.getLsbD i := by
  rw [getLsbD_mergeBits, getLsbD_unspecifiedBits _ _ _ _ i hi]
  cases v.getLsbD i <;> cases d.getLsbD i <;> cases d'.getLsbD i <;> simp

/-- The first transition of R35: hvien comes to enable a bit that hideleg does not delegate. -/
theorem getLsbD_draw_hvien (d v v' own free : BitVec 64) (i : Nat) (hi : i < 64) :
    (mergeBits (unspecifiedBits d v d v') own free).getLsbD i =
      if 13 ≤ i ∧ d.getLsbD i = false ∧ v.getLsbD i = false ∧ v'.getLsbD i = true
      then free.getLsbD i else own.getLsbD i := by
  rw [getLsbD_mergeBits, getLsbD_unspecifiedBits _ _ _ _ i hi]
  cases v.getLsbD i <;> cases d.getLsbD i <;> cases v'.getLsbD i <;> simp

section
variable (s : State) (high : Bool) (v : Word)

theorem csrWrite_hideleg_half :
    csrWrite (if high then .hidelegh else .hideleg) v s = writeHideleg (halfOf s.cfg high) (v &&& s.cfg.xmask) s := by
  cases high <;> rfl

theorem csrWrite_hvien_half :
    csrWrite (if high then .hvienh else .hvien) v s = writeHvien (halfOf s.cfg high) (v &&& s.cfg.xmask) s := by
  cases high <;> rfl

theorem csrWrite_hvip_half :
    csrWrite (if high then .hviph else .hvip) v s =
      s.setHvip ((halfOf s.cfg high).write (hvipWritable s.cfg) s.hvip (v &&& s.cfg.xmask)) := by
  cases high <;> rfl

theorem csrWrite_hviprio1_half :
    csrWrite (if high then .hviprio1h else .hviprio1) v s =
      s.setHviprio1 ((halfOf s.cfg high).write (prioMask s.cfg prioFields1) s.hviprio1 (v &&& s.cfg.xmask)) := by
  cases high <;> rfl

theorem csrWrite_hviprio2_half :
    csrWrite (if high then .hviprio2h else .hviprio2) v s =
      s.setHviprio2 ((halfOf s.cfg high).write (prioMask s.cfg prioFields2) s.hviprio2 (v &&& s.cfg.xmask)) := by
  cases high <;> rfl

theorem csrWrite_vsip_half :
    csrWrite (if high then .vsiph else .vsip) v s = writeVsip (halfOf s.cfg high) (v &&& s.cfg.xmask) s := by
  cases high <;> rfl

theorem csrWrite_vsie_half :
    csrWrite (if high then .vsieh else .vsie) v s = writeVsie (halfOf s.cfg high) (v &&& s.cfg.xmask) s := by
  cases high <;> rfl

end

section
variable {s : State} {high : Bool} {lo hi : Nat} (hm : hypervisorMode s = true) (hb : holdsBits s.cfg high lo hi)
include hm hb

/-- Each CSR of a register with a high half passes the check in HS-mode and M-mode (R120, R123). -/
theorem check_half (plain half : Csr) (n m : BitVec 12) (w : Bool) (hn : csrNumber plain = n) (hn' : csrNumber half = m)
    (hp : csrPresent s.cfg plain = true) (hh : csrPresent s.cfg half = (s.cfg.xlen == .rv32))
    (ho : plain ≠ .vstopi ∧ half ≠ .vstopi) (hf : fileException s plain = none ∧ fileException s half = none) :
    check s (if high then m else n) w = .pass (if high then half else plain) := by
  have hpresent := csrPresent_half hb hp hh
  cases high
  · exact hn ▸ check_own s plain w hm hpresent (fun e => absurd e ho.1) hf.1
  · exact hn' ▸ check_own s half w hm hpresent (fun e => absurd e ho.2) hf.2

/-- A write of hideleg by either CSR: the writable bits by the part written, VSIE_OWN by the draw (R14, R35). -/
theorem exec_hideleg_half (rs1 : BitVec 5) :
    ∃ t, exec (.csrrw 0 (if high then 0x613 else 0x603) rs1) s = .next t ∧ t.hvien = s.hvien ∧ t.hvip = s.hvip ∧
      t.sip = s.sip ∧ t.sie = s.sie ∧ ∀ i, i < 64 →
        t.hideleg.getLsbD i =
          (if lo ≤ i ∧ i < hi ∧ s.cfg.hidelegW.getLsbD i = true then (readReg rs1 s).getLsbD (i - lo)
           else s.hideleg.getLsbD i) ∧
        t.vsieOwn.getLsbD i =
          (if 13 ≤ i ∧ s.hvien.getLsbD i = true ∧ s.hideleg.getLsbD i = true ∧ t.hideleg.getLsbD i = false
           then (Config.freeValue s.draws).getLsbD i else s.vsieOwn.getLsbD i) := by
  have hcheck := check_half hm hb .hideleg .hidelegh 0x603 0x613 true rfl rfl rfl rfl ⟨by decide, by decide⟩ ⟨rfl, rfl⟩
  obtain ⟨d, hd⟩ := writeHideleg_eq (halfOf s.cfg high) (readReg rs1 s &&& s.cfg.xmask) s
  have hexec := exec_csrrw_x0 rs1 hcheck
  rw [csrWrite_hideleg_half, hd] at hexec
  exact ⟨_, hexec, rfl, rfl, rfl, rfl, fun i hi64 =>
    ⟨getLsbD_halfOf_write hb _ _ _ i hi64, getLsbD_draw_hideleg _ _ _ _ _ i hi64⟩⟩

/-- A write of hvien by either CSR (R15, R35). -/
theorem exec_hvien_half (rs1 : BitVec 5) :
    ∃ t, exec (.csrrw 0 (if high then 0x618 else 0x608) rs1) s = .next t ∧ t.hideleg = s.hideleg ∧ t.hvip = s.hvip ∧
      t.sip = s.sip ∧ t.sie = s.sie ∧ ∀ i, i < 64 →
        t.hvien.getLsbD i =
          (if lo ≤ i ∧ i < hi ∧ s.cfg.hvienW.getLsbD i = true then (readReg rs1 s).getLsbD (i - lo)
           else s.hvien.getLsbD i) ∧
        t.vsieOwn.getLsbD i =
          (if 13 ≤ i ∧ s.hideleg.getLsbD i = false ∧ s.hvien.getLsbD i = false ∧ t.hvien.getLsbD i = true
           then (Config.freeValue s.draws).getLsbD i else s.vsieOwn.getLsbD i) := by
  have hcheck := check_half hm hb .hvien .hvienh 0x608 0x618 true rfl rfl rfl rfl ⟨by decide, by decide⟩ ⟨rfl, rfl⟩
  obtain ⟨d, hd⟩ := writeHvien_eq (halfOf s.cfg high) (readReg rs1 s &&& s.cfg.xmask) s
  have hexec := exec_csrrw_x0 rs1 hcheck
  rw [csrWrite_hvien_half, hd] at hexec
  exact ⟨_, hexec, rfl, rfl, rfl, rfl, fun i hi64 =>
    ⟨getLsbD_halfOf_write hb _ _ _ i hi64, getLsbD_draw_hvien _ _ _ _ _ i hi64⟩⟩

end

/-- Settles O26: the writable bits by the part written, VSIE_OWN by the draw of R35. -/
theorem delegationWriteDrawsHiddenBits : Obligations.DelegationWriteDrawsHiddenBits := fun rs1 _ _ _ _ hm hb =>
  ⟨exec_hideleg_half hm hb rs1, exec_hvien_half hm hb rs1⟩

/-! ### hvip -/

/-- With XLEN = 64 the bits set are the writable ones among those named (R108, R16). -/
theorem whole_write_or (w old v : BitVec 64) : Half.whole.write w old (old ||| v) = old ||| (v &&& w) := by
  refine BitVec.eq_of_getLsbD_eq fun i hi => ?_
  rw [getLsbD_whole_write w old _ i hi, BitVec.getLsbD_or, BitVec.getLsbD_or, BitVec.getLsbD_and]
  cases w.getLsbD i <;> simp

/-- Only writable bits being set, the bits cleared are those named (R108, R16). -/
theorem whole_write_and_not (w old v : BitVec 64) (h : Within old w) :
    Half.whole.write w old (old &&& ~~~v) = old &&& ~~~v := by
  refine BitVec.eq_of_getLsbD_eq fun i hi => ?_
  rw [getLsbD_whole_write w old _ i hi, BitVec.getLsbD_and]
  cases hw : w.getLsbD i
  · cases ho : old.getLsbD i
    · simp
    · rw [h i hi ho] at hw
      cases hw
  · simp

theorem and_xmask_rv64 (c : Config) (v : Word) (hx : c.xlen = .rv64) : v &&& c.xmask = v := by
  rw [Config.xmask, hx]
  exact BitVec.and_allOnes

/-- Settles O27: the value read is hvip, and what is written back differs from it in the bits named. -/
theorem hvipSetClearNamedBits : Obligations.HvipSetClearNamedBits := by
  intro rd rs1 s hm hlegal hx h1
  have hcheck : check s 0x645 true = .pass .hvip := check_own s .hvip true hm rfl (fun h => by cases h) rfl
  have hhalf : plainHalf s.cfg = .whole := by rw [plainHalf, hx]
  have hread : csrRead .hvip s = (s.hvip, s) := by
    rw [csrRead, hhalf]
    rfl
  have hwrite : ∀ v, csrWrite .hvip v s = s.setHvip (Half.whole.write (hvipWritable s.cfg) s.hvip v) := fun v => by
    rw [csrWrite, csrStore, hhalf, and_xmask_rv64 _ _ hx]
  have hwithin := ((legal_iff_isLegal s).mp hlegal).hvip
  refine ⟨?_, ?_⟩
  · rw [exec_csrrs, csrExec_read_writes _ _ _ _ _ _ _ hcheck h1, hread, hwrite, whole_write_or]
  · rw [exec_csrrc, csrExec_read_writes _ _ _ _ _ _ _ hcheck h1, hread, hwrite, whole_write_and_not _ _ _ hwithin]

end Sys2Proof.Machine
end

section
/-! Accesses to vsip and vsie by their own numbers and as sip and sie of a guest (10_state.md R27-R34, R23), and the seven
registers with a high half. -/

namespace Sys2Proof.Machine

/-! ### The bits that a write of vsip or vsie leaves -/

section
variable {s : State} {high : Bool} {lo hi : Nat} (hb : holdsBits s.cfg high lo hi) (v : Word) (i : Nat) (hi64 : i < 64)
include hb hi64

/-- R31: the delegated bits that the CSR holds and a mask of the hart lets through. -/
theorem getLsbD_delegated_written (w old : BitVec 64) :
    ((halfOf s.cfg high).write (delegated s &&& w) old (v &&& s.cfg.xmask)).getLsbD i =
      if lo ≤ i ∧ i < hi ∧ 13 ≤ i ∧ s.hideleg.getLsbD i = true ∧ w.getLsbD i = true
      then v.getLsbD (i - lo) else old.getLsbD i := by
  rw [getLsbD_halfOf_write hb _ _ _ i hi64, BitVec.getLsbD_and, getLsbD_delegated s i hi64]
  simp only [Bool.and_eq_true, decide_eq_true_iff, and_assoc]

/-- R31, R33: the virtualized bits that the CSR holds. -/
theorem getLsbD_virtualized_written (old : BitVec 64) :
    ((halfOf s.cfg high).write (virtualized s) old (v &&& s.cfg.xmask)).getLsbD i =
      if lo ≤ i ∧ i < hi ∧ 13 ≤ i ∧ s.hideleg.getLsbD i = false ∧ s.hvien.getLsbD i = true
      then v.getLsbD (i - lo) else old.getLsbD i := by
  rw [getLsbD_halfOf_write hb _ _ _ i hi64, getLsbD_virtualized s i hi64]
  simp only [Bool.and_eq_true, decide_eq_true_iff, Bool.not_eq_true', and_assoc]

/-- R27, R31: hvip after a write of vsip. -/
theorem getLsbD_hvip_written :
    (hvipAfterVsip (halfOf s.cfg high) (v &&& s.cfg.xmask) s).getLsbD i =
      if lo ≤ i ∧ i < hi ∧ 13 ≤ i ∧ s.hideleg.getLsbD i = false ∧ s.hvien.getLsbD i = true then v.getLsbD (i - lo)
      else if i = 2 ∧ high = false ∧ s.hideleg.getLsbD 2 = true then v.getLsbD 1 else s.hvip.getLsbD i := by
  have hmask1 := getLsbD_half_mask_low hb 1 (by decide)
  rw [hvipAfterVsip, getLsbD_mergeBits, getLsbD_bitAt 2 i _ (by decide), getLsbD_bitAt 2 i _ (by decide), hmask1,
    getLsbD_virtualized_written hb v i hi64]
  by_cases h2 : i = 2
  · have h13 : ¬ 13 ≤ i := by omega
    cases hh : high
    · have hplace := getLsbD_half_place_low hb hh v 1 (by decide)
      rw [hh] at hplace
      cases s.hideleg.getLsbD 2 <;> simp [-BitVec.getLsbD_eq_getElem, h2, hplace]
    · simp [h2]
  · simp [h2]

/-- R28: hie after a write of vsie. -/
theorem getLsbD_hie_written_vsie :
    (mergeBits (hieWritable (halfOf s.cfg high) s) s.hie ((halfOf s.cfg high).place (v &&& s.cfg.xmask) <<< 1)).getLsbD i =
      if high = false ∧ (i = 10 ∨ i = 6 ∨ i = 2) ∧ s.hideleg.getLsbD i = true then v.getLsbD (i - 1)
      else s.hie.getLsbD i := by
  rw [getLsbD_mergeBits, hieWritable, getLsbD_half_mask_low hb 9 (by decide), getLsbD_half_mask_low hb 5 (by decide),
    getLsbD_half_mask_low hb 1 (by decide), BitVec.getLsbD_or, BitVec.getLsbD_or, getLsbD_bitAt 10 i _ (by decide),
    getLsbD_bitAt 6 i _ (by decide), getLsbD_bitAt 2 i _ (by decide), BitVec.getLsbD_shiftLeft]
  cases hh : high
  · have hplace := fun j hj => getLsbD_half_place_low hb hh v j hj
    rw [hh] at hplace
    by_cases h : i = 10 ∨ i = 6 ∨ i = 2
    · rcases h with rfl | rfl | rfl <;> simp [-BitVec.getLsbD_eq_getElem, hplace]
    · have hnot : i ≠ 10 ∧ i ≠ 6 ∧ i ≠ 2 := by tauto
      simp [hnot]
  · simp

end

/-! ### The accesses -/

section
variable {s : State} {high : Bool} {lo hi : Nat} (hb : holdsBits s.cfg high lo hi)
  (hv : s.mode = .VS → s.hvictl.vti = false) {n : BitVec 12}
include hb hv

theorem check_vsip_half (w : Bool)
    (hr : reachesBy s (if high then 0x254 else 0x244) (if high then 0x154 else 0x144) n) :
    check s n w = .pass (if high then .vsiph else .vsip) := by
  have hpresent : csrPresent s.cfg (if high then .vsiph else .vsip) = true := csrPresent_half hb rfl rfl
  have hvti : s.mode = .VS → ¬ s.hvictl.vti = true := fun hm => by simp [hv hm]
  cases high
  · exact check_reachesBy s .vsip 0x144 n w rfl hr hpresent (fun h => by cases h) rfl fun hm h => absurd h (hvti hm)
  · exact check_reachesBy s .vsiph 0x154 n w rfl hr hpresent (fun h => by cases h) rfl fun hm h => absurd h (hvti hm)

theorem check_vsie_half (w : Bool)
    (hr : reachesBy s (if high then 0x214 else 0x204) (if high then 0x114 else 0x104) n) :
    check s n w = .pass (if high then .vsieh else .vsie) := by
  have hpresent : csrPresent s.cfg (if high then .vsieh else .vsie) = true := csrPresent_half hb rfl rfl
  have hvti : s.mode = .VS → ¬ s.hvictl.vti = true := fun hm => by simp [hv hm]
  cases high
  · exact check_reachesBy s .vsie 0x104 n w rfl hr hpresent (fun h => by cases h) rfl fun hm h => absurd h (hvti hm)
  · exact check_reachesBy s .vsieh 0x114 n w rfl hr hpresent (fun h => by cases h) rfl fun hm h => absurd h (hvti hm)

end

theorem csrRead_vsip_half (s : State) (high : Bool) :
    csrRead (if high then .vsiph else .vsip) s = ((halfOf s.cfg high).get (vsip s), s) := by
  cases high <;> rfl

theorem csrRead_vsie_half (s : State) (high : Bool) :
    csrRead (if high then .vsieh else .vsie) s = ((halfOf s.cfg high).get (vsie s), s) := by
  cases high <;> rfl

/-- A pure read by the CSR of a half, the register's value being read without a draw (R23). -/
theorem exec_read_half {s : State} {high : Bool} {lo hi : Nat} (hb : holdsBits s.cfg high lo hi) (rd : BitVec 5)
    (n : BitVec 12) (c : Csr) (r : BitVec 64) (hc : check s n false = .pass c)
    (hread : csrRead c s = ((halfOf s.cfg high).get r, s)) :
    ∃ v, exec (.csrrs rd n 0) s = .next (advance (writeReg rd v s)) ∧
      ∀ i, i < 64 → v.getLsbD i = (decide (lo + i < hi) && r.getLsbD (lo + i)) := by
  refine ⟨(halfOf s.cfg high).get r, ?_, fun i hi64 => getLsbD_half_get s.cfg high lo hi hb r i hi64⟩
  rw [exec_csrrs_x0 rd hc, hread]

/-- Settles O31: the check passes, and the bits are those of the part read or written. -/
theorem sipAndSieAccessesReachAliases : Obligations.SipAndSieAccessesReachAliases := by
  refine fun rd rs1 n high lo hi s hb hv => ⟨fun hr => ⟨?_, ?_⟩, fun hr => ⟨?_, ?_⟩⟩
  · exact exec_read_half hb rd n _ _ (check_vsip_half hb hv false hr) (csrRead_vsip_half s high)
  · refine ⟨hvipAfterVsip (halfOf s.cfg high) (readReg rs1 s &&& s.cfg.xmask) s, _, ?_, fun i hi64 =>
      ⟨getLsbD_delegated_written hb _ i hi64 s.cfg.sipW s.sip, getLsbD_hvip_written hb _ i hi64⟩⟩
    rw [exec_csrrw_x0 rs1 (check_vsip_half hb hv true hr), csrWrite_vsip_half]
    rfl
  · exact exec_read_half hb rd n _ _ (check_vsie_half hb hv false hr) (csrRead_vsie_half s high)
  · refine ⟨_, _, _, ?_, fun i hi64 => ⟨getLsbD_delegated_written hb _ i hi64 s.cfg.sieW s.sie,
      getLsbD_virtualized_written hb _ i hi64 s.vsieOwn, getLsbD_hie_written_vsie hb _ i hi64⟩⟩
    rw [exec_csrrw_x0 rs1 (check_vsie_half hb hv true hr), csrWrite_vsie_half]
    rfl

/-! ### vsip and vsie after a write -/

/-- The writable bits of vsip (R27, R31). -/
def vsipWritable (s : State) (i : Nat) : Bool :=
  (i == 1 && s.hideleg.getLsbD 2) ||
    (decide (13 ≤ i) && if s.hideleg.getLsbD i then s.cfg.sipW.getLsbD i else s.hvien.getLsbD i)

/-- The writable bits of vsie (R28, R33). -/
def vsieWritable (s : State) (i : Nat) : Bool :=
  ((i == 9 || i == 5 || i == 1) && s.hideleg.getLsbD (i + 1)) ||
    (decide (13 ≤ i) && if s.hideleg.getLsbD i then s.cfg.sieW.getLsbD i else s.hvien.getLsbD i)

section
variable {s : State} {high : Bool} {lo hi : Nat} (hb : holdsBits s.cfg high lo hi)
include hb

/-- The CSR that holds a bit below 32 is that of the plain name, and holds it in its place. -/
theorem holds_low_iff (i : Nat) (h32 : i < 32) (p : Prop) : (lo ≤ i ∧ i < hi ∧ p) ↔ (high = false ∧ p) := by
  have hmask := getLsbD_half_mask_low hb i h32
  rw [halfOf, getLsbD_half_mask s.cfg high lo hi hb i (by omega)] at hmask
  rw [← and_assoc]
  refine and_congr_left' ?_
  cases high <;> simpa using hmask

theorem lo_of_low (hh : high = false) : lo = 0 := by
  obtain ⟨-, -, -, hlow, -⟩ := holdsBits_range s.cfg high lo hi hb
  exact hlow hh

/-- vsip after a write of it: the external and the timer bit are not written (R27). -/
theorem getLsbD_vsip_written (v : Word) (i : Nat) (hi64 : i < 64) :
    (vsip (writeVsip (halfOf s.cfg high) (v &&& s.cfg.xmask) s)).getLsbD i =
      if lo ≤ i ∧ i < hi ∧ vsipWritable s i = true then v.getLsbD (i - lo) else (vsip s).getLsbD i := by
  let t := writeVsip (halfOf s.cfg high) (v &&& s.cfg.xmask) s
  have hhvip : ∀ j, j < 64 → t.hvip.getLsbD j = _ := fun j hj => getLsbD_hvip_written hb v j hj
  have hsip : t.sip.getLsbD i = _ := getLsbD_delegated_written hb v i hi64 s.cfg.sipW s.sip
  have hkept : ∀ j, j < 13 → j ≠ 2 → t.hvip.getLsbD j = s.hvip.getLsbD j := fun j h13 h2 => by
    rw [hhvip j (by omega), if_neg (by omega), if_neg (by tauto)]
  have h10 : hip10 t = hip10 s := by
    rw [hip10, hkept 10 (by decide) (by decide)]
    rfl
  have h6 : hip6 t = hip6 s := by
    rw [hip6, hkept 6 (by decide) (by decide)]
    rfl
  have h2 : hip2 t = if high = false ∧ s.hideleg.getLsbD 2 = true then v.getLsbD 1 else hip2 s := by
    rw [hip2, hhvip 2 (by decide), if_neg (by omega)]
    simp only [true_and]
    rfl
  have hd : t.hideleg = s.hideleg := rfl
  have hn : t.hvien = s.hvien := rfl
  change (vsip t).getLsbD i = _
  rw [getLsbD_vsip t i hi64, getLsbD_vsip s i hi64, h10, h6, h2, hsip, hhvip i hi64, hd, hn, vsipWritable]
  by_cases h13 : 13 ≤ i
  · have h1 : i ≠ 1 := by omega
    have h2 : i ≠ 2 := by omega
    cases s.hideleg.getLsbD i <;> cases s.hvien.getLsbD i <;> simp [h13, h1, h2]
  · by_cases h1 : i = 1
    · subst h1
      simp only [holds_low_iff hb 1 (by decide)]
      cases hh : high
      · rw [lo_of_low hb hh]
        cases s.hideleg.getLsbD 2 <;> simp
      · simp
    · simp [h13, h1]

/-- vsie after a write of it. -/
theorem getLsbD_vsie_written (v : Word) (i : Nat) (hi64 : i < 64) :
    (vsie (writeVsie (halfOf s.cfg high) (v &&& s.cfg.xmask) s)).getLsbD i =
      if lo ≤ i ∧ i < hi ∧ vsieWritable s i = true then v.getLsbD (i - lo) else (vsie s).getLsbD i := by
  let t := writeVsie (halfOf s.cfg high) (v &&& s.cfg.xmask) s
  have hhie : ∀ j, j < 64 → t.hie.getLsbD j = _ := fun j hj => getLsbD_hie_written_vsie hb v j hj
  have hsie : t.sie.getLsbD i = _ := getLsbD_delegated_written hb v i hi64 s.cfg.sieW s.sie
  have hown : t.vsieOwn.getLsbD i = _ := getLsbD_virtualized_written hb v i hi64 s.vsieOwn
  have hd : t.hideleg = s.hideleg := rfl
  have hn : t.hvien = s.hvien := rfl
  change (vsie t).getLsbD i = _
  rw [getLsbD_vsie t i hi64, getLsbD_vsie s i hi64, hhie 10 (by decide), hhie 6 (by decide), hhie 2 (by decide), hsie,
    hown, hd, hn, vsieWritable]
  by_cases h13 : 13 ≤ i
  · have h9 : i ≠ 9 := by omega
    have h5 : i ≠ 5 := by omega
    have h1 : i ≠ 1 := by omega
    cases s.hideleg.getLsbD i <;> cases s.hvien.getLsbD i <;> simp [h13, h9, h5, h1]
  · by_cases hbit : i = 9 ∨ i = 5 ∨ i = 1
    · simp only [holds_low_iff hb i (by omega)]
      cases hh : high
      · rw [lo_of_low hb hh]
        rcases hbit with rfl | rfl | rfl
        · cases s.hideleg.getLsbD 10 <;> simp
        · cases s.hideleg.getLsbD 6 <;> simp
        · cases s.hideleg.getLsbD 2 <;> simp
      · simp
    · have hnot : i ≠ 9 ∧ i ≠ 5 ∧ i ≠ 1 := by tauto
      simp [h13, hnot]

end

/-! ### The seven registers -/

theorem getLsbD_hvipWritable (c : Config) (i : Nat) (hi : i < 64) :
    (hvipWritable c).getLsbD i =
      (i == 10 || i == 6 || i == 2 || (decide (13 ≤ i) && (c.hvienW.getLsbD i || c.hvienRO1.getLsbD i))) := by
  rw [hvipWritable, BitVec.getLsbD_or, BitVec.getLsbD_and, BitVec.getLsbD_or, getLsbD_vsLevelBits i hi,
    getLsbD_majorBits i hi, Bool.eq_iff_iff]
  simp [or_assoc]

section
variable {s : State} {high : Bool} {lo hi : Nat} (hb : holdsBits s.cfg high lo hi)
  (rd rs1 : BitVec 5)

/-- What the statement says of one register: the bits that a write by the CSR of a half leaves, and those it reads. -/
def HalfReachesOwnBits (s : State) (lo hi : Nat) (rd rs1 : BitVec 5) (n : BitVec 12)
    (reg : State → BitVec 64) (writable : Nat → Bool) : Prop :=
  (∃ t, exec (.csrrw 0 n rs1) s = .next t ∧ ∀ i, i < 64 →
    (reg t).getLsbD i =
      if lo ≤ i ∧ i < hi ∧ writable i = true then (readReg rs1 s).getLsbD (i - lo) else (reg s).getLsbD i) ∧
  (∃ v, exec (.csrrs rd n 0) s = .next (advance (writeReg rd v s)) ∧
    ∀ i, i < 64 → v.getLsbD i = (decide (lo + i < hi) && (reg s).getLsbD (lo + i)))

include hb

/-- A register whose CSR `c` passes, whose read is that of the part, and whose write leaves the bits of the part. -/
theorem halfReachesOwnBits_of_rules (n : BitVec 12) (c : Csr) (reg : State → BitVec 64) (writable : Nat → Bool)
    (hcheck : ∀ w, check s n w = .pass c) (hread : csrRead c s = ((halfOf s.cfg high).get (reg s), s))
    (hadvance : ∀ t, reg (advance t) = reg t)
    (hwrite : ∀ i, i < 64 → (reg (csrWrite c (readReg rs1 s) s)).getLsbD i =
      if lo ≤ i ∧ i < hi ∧ writable i = true then (readReg rs1 s).getLsbD (i - lo) else (reg s).getLsbD i) :
    HalfReachesOwnBits s lo hi rd rs1 n reg writable := by
  refine ⟨⟨_, exec_csrrw_x0 rs1 (hcheck true), fun i hi64 => ?_⟩, exec_read_half hb rd n c _ (hcheck false) hread⟩
  rw [hadvance]
  exact hwrite i hi64

end

theorem advance_samePending (s : State) : SamePending (advance s) s := by
  constructor <;> rfl

theorem advance_sameEnabled (s : State) : SameEnabled (advance s) s := by
  constructor <;> rfl

section
variable {s : State} {high : Bool} {lo hi : Nat} (hm : hypervisorMode s = true) (hb : holdsBits s.cfg high lo hi)
  (rd rs1 : BitVec 5)
include hm hb

theorem hideleg_reachesOwnBits :
    HalfReachesOwnBits s lo hi rd rs1 (if high then 0x613 else 0x603) State.hideleg fun i => s.cfg.hidelegW.getLsbD i := by
  refine halfReachesOwnBits_of_rules hb rd rs1 _ (if high then .hidelegh else .hideleg) _ _
    (fun w => check_half hm hb .hideleg .hidelegh _ _ w rfl rfl rfl rfl ⟨by decide, by decide⟩ ⟨rfl, rfl⟩)
    (by cases high <;> rfl) (fun _ => rfl) fun i hi64 => ?_
  obtain ⟨d, hd⟩ := writeHideleg_eq (halfOf s.cfg high) (readReg rs1 s &&& s.cfg.xmask) s
  rw [csrWrite_hideleg_half, hd]
  exact getLsbD_halfOf_write hb _ _ _ i hi64

theorem hvien_reachesOwnBits :
    HalfReachesOwnBits s lo hi rd rs1 (if high then 0x618 else 0x608) State.hvien fun i => s.cfg.hvienW.getLsbD i := by
  refine halfReachesOwnBits_of_rules hb rd rs1 _ (if high then .hvienh else .hvien) _ _
    (fun w => check_half hm hb .hvien .hvienh _ _ w rfl rfl rfl rfl ⟨by decide, by decide⟩ ⟨rfl, rfl⟩)
    (by cases high <;> rfl) (fun _ => rfl) fun i hi64 => ?_
  obtain ⟨d, hd⟩ := writeHvien_eq (halfOf s.cfg high) (readReg rs1 s &&& s.cfg.xmask) s
  rw [csrWrite_hvien_half, hd]
  exact getLsbD_halfOf_write hb _ _ _ i hi64

theorem hvip_reachesOwnBits :
    HalfReachesOwnBits s lo hi rd rs1 (if high then 0x655 else 0x645) State.hvip fun i =>
      i == 10 || i == 6 || i == 2 ||
        (decide (13 ≤ i) && (s.cfg.hvienW.getLsbD i || s.cfg.hvienRO1.getLsbD i)) := by
  refine halfReachesOwnBits_of_rules hb rd rs1 _ (if high then .hviph else .hvip) _ _
    (fun w => check_half hm hb .hvip .hviph _ _ w rfl rfl rfl rfl ⟨by decide, by decide⟩ ⟨rfl, rfl⟩)
    (by cases high <;> rfl) (fun _ => rfl) fun i hi64 => ?_
  rw [csrWrite_hvip_half, ← getLsbD_hvipWritable s.cfg i hi64]
  exact getLsbD_halfOf_write hb _ _ _ i hi64

theorem hviprio1_reachesOwnBits :
    HalfReachesOwnBits s lo hi rd rs1 (if high then 0x656 else 0x646) State.hviprio1 fun i =>
      (prioMask s.cfg prioFields1).getLsbD i := by
  refine halfReachesOwnBits_of_rules hb rd rs1 _ (if high then .hviprio1h else .hviprio1) _ _
    (fun w => check_half hm hb .hviprio1 .hviprio1h _ _ w rfl rfl rfl rfl ⟨by decide, by decide⟩ ⟨rfl, rfl⟩)
    (by cases high <;> rfl) (fun _ => rfl) fun i hi64 => ?_
  rw [csrWrite_hviprio1_half]
  exact getLsbD_halfOf_write hb _ _ _ i hi64

theorem hviprio2_reachesOwnBits :
    HalfReachesOwnBits s lo hi rd rs1 (if high then 0x657 else 0x647) State.hviprio2 fun i =>
      (prioMask s.cfg prioFields2).getLsbD i := by
  refine halfReachesOwnBits_of_rules hb rd rs1 _ (if high then .hviprio2h else .hviprio2) _ _
    (fun w => check_half hm hb .hviprio2 .hviprio2h _ _ w rfl rfl rfl rfl ⟨by decide, by decide⟩ ⟨rfl, rfl⟩)
    (by cases high <;> rfl) (fun _ => rfl) fun i hi64 => ?_
  rw [csrWrite_hviprio2_half]
  exact getLsbD_halfOf_write hb _ _ _ i hi64

theorem vsip_reachesOwnBits :
    HalfReachesOwnBits s lo hi rd rs1 (if high then 0x254 else 0x244) vsip (vsipWritable s) := by
  refine halfReachesOwnBits_of_rules hb rd rs1 _ (if high then .vsiph else .vsip) _ _
    (fun w => check_half hm hb .vsip .vsiph _ _ w rfl rfl rfl rfl ⟨by decide, by decide⟩ ⟨rfl, rfl⟩)
    (csrRead_vsip_half s high) (fun t => (advance_samePending t).vsip) fun i hi64 => ?_
  rw [csrWrite_vsip_half]
  exact getLsbD_vsip_written hb _ i hi64

theorem vsie_reachesOwnBits :
    HalfReachesOwnBits s lo hi rd rs1 (if high then 0x214 else 0x204) vsie (vsieWritable s) := by
  refine halfReachesOwnBits_of_rules hb rd rs1 _ (if high then .vsieh else .vsie) _ _
    (fun w => check_half hm hb .vsie .vsieh _ _ w rfl rfl rfl rfl ⟨by decide, by decide⟩ ⟨rfl, rfl⟩)
    (csrRead_vsie_half s high) (fun t => (advance_sameEnabled t).vsie) fun i hi64 => ?_
  rw [csrWrite_vsie_half]
  exact getLsbD_vsie_written hb _ i hi64

end

/-- Settles O32, register by register. -/
theorem halvesReachOwnBits : Obligations.HalvesReachOwnBits := by
  intro rd rs1 plain half reg writable high lo hi s hm hb hmem
  simp only [List.mem_cons, List.not_mem_nil, or_false, Prod.mk.injEq] at hmem
  rcases hmem with ⟨rfl, rfl, rfl, rfl⟩ | ⟨rfl, rfl, rfl, rfl⟩ | ⟨rfl, rfl, rfl, rfl⟩ | ⟨rfl, rfl, rfl, rfl⟩ |
    ⟨rfl, rfl, rfl, rfl⟩ | ⟨rfl, rfl, rfl, rfl⟩ | ⟨rfl, rfl, rfl, rfl⟩
  · exact hideleg_reachesOwnBits hm hb rd rs1
  · exact hvien_reachesOwnBits hm hb rd rs1
  · exact hvip_reachesOwnBits hm hb rd rs1
  · exact hviprio1_reachesOwnBits hm hb rd rs1
  · exact hviprio2_reachesOwnBits hm hb rd rs1
  · exact vsip_reachesOwnBits hm hb rd rs1
  · exact vsie_reachesOwnBits hm hb rd rs1

end Sys2Proof.Machine
end

section
/-! The priority-number fields of hviprio1 and hviprio2 (10_state.md R20-R23, decision D9). -/

namespace Sys2Proof.Machine

/-! ### The two registers as one -/

/-- The fields of hviprio1, or of hviprio2. -/
def prioFields (second : Bool) : List (Nat × Nat) := if second then prioFields2 else prioFields1

/-- hviprio1, or hviprio2. -/
def prioReg (second : Bool) (s : State) : BitVec 64 := if second then s.hviprio2 else s.hviprio1

/-- Each field is a byte of its register, and no two are the same one (R20, R21). -/
theorem prioFields_aligned (second : Bool) : ∀ f ∈ prioFields second, f.2 % 8 = 0 ∧ f.2 < 64 := by
  cases second <;> decide

theorem prioFields_inj (second : Bool) : ∀ f ∈ prioFields second, ∀ g ∈ prioFields second, f.2 = g.2 → f = g := by
  cases second <;> decide

theorem hviprio_of_mem (second : Bool) (s : State) (i P : Nat) (h : (i, P) ∈ prioFields second) :
    hviprio s i = ((prioReg second s).extractLsb' P 8).toNat := by
  cases second
  · simp only [prioFields, prioFields1, Bool.false_eq_true, if_false, List.mem_cons, List.not_mem_nil, or_false,
      Prod.mk.injEq] at h
    rcases h with ⟨rfl, rfl⟩ | ⟨rfl, rfl⟩ | ⟨rfl, rfl⟩ | ⟨rfl, rfl⟩ | ⟨rfl, rfl⟩ <;> rfl
  · simp only [prioFields, prioFields2, if_true, List.mem_cons, List.not_mem_nil, or_false, Prod.mk.injEq] at h
    rcases h with ⟨rfl, rfl⟩ | ⟨rfl, rfl⟩ | ⟨rfl, rfl⟩ | ⟨rfl, rfl⟩ | ⟨rfl, rfl⟩ | ⟨rfl, rfl⟩ | ⟨rfl, rfl⟩ | ⟨rfl, rfl⟩ <;>
      rfl

/-- An interrupt whose field, where it has one, is the same in two states has one priority number. -/
theorem hviprio_eq_of_field (t s : State) (i : Nat)
    (h : ∀ second P, (i, P) ∈ prioFields second →
      (prioReg second t).extractLsb' P 8 = (prioReg second s).extractLsb' P 8) : hviprio t i = hviprio s i := by
  by_cases hmem : ∃ second P, (i, P) ∈ prioFields second
  · obtain ⟨second, P, hP⟩ := hmem
    rw [hviprio_of_mem second t i P hP, hviprio_of_mem second s i P hP, h second P hP]
  · have hzero : ∀ u, hviprio u i = 0 := fun u => by
      have hnone : ∀ second, (prioFields second).lookup i = none := fun second =>
        List.lookup_eq_none_iff.mpr fun p hp => bne_iff_ne.mpr fun (e : i = p.1) =>
          hmem ⟨second, p.2, e.symm ▸ hp⟩
      have h1 : prioFields1.lookup i = none := hnone false
      have h2 : prioFields2.lookup i = none := hnone true
      rw [hviprio, h1, h2]
    rw [hzero, hzero]

/-! ### A field after a write -/

/-- The implemented bits of a field are its low HVIPRIO_BITS, where it is implemented (R22). -/
theorem getLsbD_prioMask_field (c : Config) (hc : c.hviprioBits ≤ 8) (second : Bool) (i P j : Nat)
    (h : (i, P) ∈ prioFields second) (hj : j < 8) :
    (prioMask c (prioFields second)).getLsbD (P + j) = (c.hviprioImpl.getLsbD i && decide (j < c.hviprioBits)) := by
  obtain ⟨hP8, hP64⟩ := prioFields_aligned second _ h
  rw [getLsbD_prioMask c hc _ _ (by simp only at hP8 hP64; omega), Bool.eq_iff_iff, List.any_eq_true]
  simp only [Bool.and_eq_true, decide_eq_true_iff]
  constructor
  · rintro ⟨f, hf, himpl, hle, hlt⟩
    obtain ⟨hf8, -⟩ := prioFields_aligned second f hf
    obtain rfl : f = (i, P) := prioFields_inj second f hf _ h (by simp only at hP8 ⊢; omega)
    exact ⟨himpl, by simp only at hlt; omega⟩
  · rintro ⟨himpl, hlt⟩
    exact ⟨(i, P), h, himpl, by simp only; omega, by simp only; omega⟩

section
variable {s : State} {high : Bool} {lo hi : Nat} (hb : holdsBits s.cfg high lo hi) (hbits : s.cfg.hviprioBits ≤ 8)
  (second : Bool) {old : BitVec 64} {i P : Nat} (h : (i, P) ∈ prioFields second) (v : Word)
include hb h

/-- A part of a register holds a field whole or not at all. -/
theorem field_in_half : P + 8 ≤ 64 ∧ (lo ≤ P → P < hi → P + 8 ≤ hi) ∧ (¬ (lo ≤ P ∧ P < hi) → P + 8 ≤ lo ∨ hi ≤ P) := by
  obtain ⟨hP8, hP64⟩ := prioFields_aligned second _ h
  simp only at hP8 hP64
  rcases hb with ⟨-, -, rfl, rfl⟩ | ⟨-, -, rfl, rfl⟩ | ⟨-, -, rfl, rfl⟩ <;> omega

/-- A field outside the part written stays. -/
theorem field_outside_half (hout : ¬ (lo ≤ P ∧ P < hi)) :
    ((halfOf s.cfg high).write (prioMask s.cfg (prioFields second)) old (v &&& s.cfg.xmask)).extractLsb' P 8 =
      old.extractLsb' P 8 := by
  obtain ⟨h64, -, hsep⟩ := field_in_half hb second h
  refine BitVec.eq_of_getLsbD_eq fun j hj => ?_
  have hside := hsep hout
  rw [BitVec.getLsbD_extractLsb', BitVec.getLsbD_extractLsb', getLsbD_halfOf_write hb _ _ _ _ (by omega),
    if_neg (by omega)]

include hbits

/-- D9: a field in the part written keeps the low bits of the byte written, where it is implemented. -/
theorem field_in_half_written (hold : Within old (prioMask s.cfg (prioFields second))) (hlo : lo ≤ P) (hhi : P < hi) :
    (((halfOf s.cfg high).write (prioMask s.cfg (prioFields second)) old (v &&& s.cfg.xmask)).extractLsb' P 8).toNat =
      if s.cfg.hviprioImpl.getLsbD i then (v.extractLsb' (P - lo) 8).toNat % 2 ^ s.cfg.hviprioBits else 0 := by
  obtain ⟨h64, hin, -⟩ := field_in_half hb second h
  refine Nat.eq_of_testBit_eq fun j => ?_
  rw [BitVec.testBit_toNat, BitVec.getLsbD_extractLsb']
  by_cases hj : j < 8
  · have hmask := getLsbD_prioMask_field s.cfg hbits second i P j h hj
    have hkeep := hold (P + j) (by omega)
    have hin8 := hin hlo hhi
    have hrange : lo ≤ P + j ∧ P + j < hi := by omega
    have hplace : P + j - lo = P - lo + j := by omega
    rw [hmask] at hkeep
    rw [getLsbD_halfOf_write hb _ _ _ _ (by omega), hmask, hplace]
    cases himpl : s.cfg.hviprioImpl.getLsbD i
    · have hzero : old.getLsbD (P + j) = false := eq_false_of_ne_true fun e => by simpa [himpl] using hkeep e
      simp [hzero]
    · rw [if_pos rfl, Nat.testBit_mod_two_pow, BitVec.testBit_toNat, BitVec.getLsbD_extractLsb']
      by_cases hlt : j < s.cfg.hviprioBits
      · simp [hj, hlt, hrange]
      · have hzero : old.getLsbD (P + j) = false := eq_false_of_ne_true fun e => by simpa [hlt] using hkeep e
        simp [hj, hlt, hzero]
  · have hout : ∀ n : BitVec 8, n.toNat.testBit j = false := fun n => by
      rw [BitVec.testBit_toNat, BitVec.getLsbD_of_ge n j (by omega)]
    split
    · rw [Nat.testBit_mod_two_pow, hout]
      simp [hj]
    · simp [hj]

end

/-! ### The accesses -/

/-- The three reserved fields of hviprio1, bit by bit (R20). -/
theorem getLsbD_reservedFields (i : Nat) (hi : i < 64) :
    (0x000000FF00FF00FF : BitVec 64).getLsbD i = decide (i < 8 ∨ (16 ≤ i ∧ i < 24) ∨ (32 ≤ i ∧ i < 40)) := by
  interval_cases i <;> decide

theorem hviprioBits_of_wf {c : Config} (h : c.wf = true) : c.hviprioBits ≤ 8 := by
  simp only [Config.wf, Config.hviprioOk, Bool.and_eq_true, decide_eq_true_iff] at h
  omega

/-- In a legal state the reserved fields of hviprio1 are 0. -/
theorem IsLegal.hviprio1_reserved {s : State} (h : IsLegal s) : s.hviprio1 &&& 0x000000FF00FF00FF = 0 := by
  have hbits := hviprioBits_of_wf h.wf
  refine BitVec.eq_of_getLsbD_eq fun i hi => (eq_false_of_ne_true fun hb => ?_).trans BitVec.getLsbD_zero.symm
  rw [BitVec.getLsbD_and, Bool.and_eq_true, getLsbD_reservedFields i hi, decide_eq_true_iff] at hb
  have hmask := h.hviprio1 i hi hb.1
  rw [getLsbD_prioMask s.cfg hbits _ i hi, List.any_eq_true] at hmask
  obtain ⟨f, hf, hrange⟩ := hmask
  rw [Bool.and_eq_true, decide_eq_true_iff] at hrange
  have hfield : ∀ f ∈ prioFields1, f.2 = 8 ∨ f.2 = 24 ∨ 40 ≤ f.2 := by decide
  have := hfield f hf
  omega

section
variable {s : State} {high : Bool} {lo hi : Nat} (hm : hypervisorMode s = true)
  (hb : holdsBits s.cfg high lo hi) (rs1 : BitVec 5)
include hm hb

/-- The number of the CSR of a part of hviprio1 or hviprio2 (R84). -/
theorem exec_hviprio_part (second : Bool) :
    ∃ t, exec (.csrrw 0 (if high then (if second then 0x657 else 0x656) else (if second then 0x647 else 0x646)) rs1) s =
        .next t ∧
      prioReg second t = (halfOf s.cfg high).write (prioMask s.cfg (prioFields second)) (prioReg second s)
        (readReg rs1 s &&& s.cfg.xmask) ∧
      prioReg (!second) t = prioReg (!second) s := by
  cases second
  · have hcheck := check_half hm hb .hviprio1 .hviprio1h 0x646 0x656 true rfl rfl rfl rfl ⟨by decide, by decide⟩
      ⟨rfl, rfl⟩
    have hexec := exec_csrrw_x0 rs1 hcheck
    rw [csrWrite_hviprio1_half] at hexec
    exact ⟨_, hexec, rfl, rfl⟩
  · have hcheck := check_half hm hb .hviprio2 .hviprio2h 0x647 0x657 true rfl rfl rfl rfl ⟨by decide, by decide⟩
      ⟨rfl, rfl⟩
    have hexec := exec_csrrw_x0 rs1 hcheck
    rw [csrWrite_hviprio2_half] at hexec
    exact ⟨_, hexec, rfl, rfl⟩

/-- The fields of a part, listed with their lowest bit in the CSR, after a write of it. -/
theorem exec_hviprio_fields (hl : IsLegal s) (second : Bool) (fields : List (Nat × Nat))
    (hsub : ∀ f ∈ fields, (f.1, f.2 + lo) ∈ prioFields second ∧ f.2 + lo < hi)
    (hall : ∀ f ∈ prioFields second, lo ≤ f.2 → f.2 < hi → (f.1, f.2 - lo) ∈ fields) :
    ∃ t, exec (.csrrw 0 (if high then (if second then 0x657 else 0x656) else (if second then 0x647 else 0x646)) rs1) s =
        .next t ∧
      (∀ i p, (i, p) ∈ fields → hviprio t i = if s.cfg.hviprioImpl.getLsbD i
        then ((readReg rs1 s).extractLsb' p 8).toNat % 2 ^ s.cfg.hviprioBits else 0) ∧
      (∀ i, (∀ p, (i, p) ∉ fields) → hviprio t i = hviprio s i) ∧ t.hviprio1 &&& 0x000000FF00FF00FF = 0 := by
  have hbits := hviprioBits_of_wf hl.wf
  have hold : Within (prioReg second s) (prioMask s.cfg (prioFields second)) := by
    cases second
    · exact hl.hviprio1
    · exact hl.hviprio2
  obtain ⟨t, ht, hnew, hother⟩ := exec_hviprio_part hm hb rs1 second
  refine ⟨t, ht, fun i p hp => ?_, fun i hi' => ?_, (hl.exec _ ht).hviprio1_reserved⟩
  · obtain ⟨hmem, hlt⟩ := hsub _ hp
    rw [hviprio_of_mem second t i _ hmem, hnew,
      field_in_half_written hb hbits second hmem _ hold (Nat.le_add_left lo p) hlt, Nat.add_sub_cancel]
  · refine hviprio_eq_of_field t s i fun b P hP => ?_
    by_cases hsame : b = second
    · subst hsame
      rw [hnew, field_outside_half hb b hP]
      exact fun h => hi' _ (hall _ hP h.1 h.2)
    · obtain rfl : b = !second := by cases b <;> cases second <;> simp at hsame ⊢
      rw [hother]

end

/-- Settles O28: in each row of the table the fields are those of the part behind the CSR. -/
theorem hviprioFieldsAreWarl : Obligations.HviprioFieldsAreWarl := by
  intro rs1 n fields s hm hlegal h
  have hl := (legal_iff_isLegal s).mp hlegal
  simp only [List.mem_cons, List.not_mem_nil, or_false, Prod.mk.injEq] at h
  rcases h with ⟨hx, ⟨rfl, rfl⟩ | ⟨rfl, rfl⟩⟩ | ⟨hx, ⟨rfl, rfl⟩ | ⟨rfl, rfl⟩ | ⟨rfl, rfl⟩ | ⟨rfl, rfl⟩⟩
  · exact exec_hviprio_fields hm (.inl ⟨hx, rfl, rfl, rfl⟩) rs1 hl false _ (by decide) (by decide)
  · exact exec_hviprio_fields hm (.inl ⟨hx, rfl, rfl, rfl⟩) rs1 hl true _ (by decide) (by decide)
  · exact exec_hviprio_fields hm (.inr (.inl ⟨hx, rfl, rfl, rfl⟩)) rs1 hl false _ (by decide) (by decide)
  · exact exec_hviprio_fields hm (.inr (.inr ⟨hx, rfl, rfl, rfl⟩)) rs1 hl false _ (by decide) (by decide)
  · exact exec_hviprio_fields hm (.inr (.inl ⟨hx, rfl, rfl, rfl⟩)) rs1 hl true _ (by decide) (by decide)
  · exact exec_hviprio_fields hm (.inr (.inr ⟨hx, rfl, rfl, rfl⟩)) rs1 hl true _ (by decide) (by decide)

end Sys2Proof.Machine
end

section
/-! The guest interrupt files (20_memory.md sections 2 and 3, 41_vs_csr_access.md sections 3 and 4): the MSI write, the
claim, and the array registers behind vsireg. -/

namespace Sys2Proof.Machine

/-! ### The MSI write -/

/-- Two files with the same registers are the same file. -/
theorem intrFile_ext {f g : IntrFile} (hd : f.eidelivery = g.eidelivery) (ht : f.eithreshold = g.eithreshold)
    (hp : f.eip = g.eip) (he : f.eie = g.eie) : f = g := by
  cases f
  cases g
  simp_all

section
variable (c : Config) (f : IntrFile) (n : Nat)

/-- R62: an MSI sets the bit of its identity, where that is implemented, and no other. -/
theorem idBit_msiWrite (hc : c.numIds ≤ 2048) (m : Nat) :
    idBit (msiWrite c f n).eip m = (idBit f.eip m || (decide (m = n) && decide (1 ≤ m) && decide (m < c.numIds))) := by
  unfold msiWrite
  split
  · next h =>
    rw [idBit_setIdBit _ _ _ _ (by omega)]
    by_cases hm : m = n
    · simp [hm, h]
    · simp [hm]
  · next h =>
    by_cases hm : m = n
    · subst hm
      have hno : ¬ 1 ≤ m ∨ ¬ m < c.numIds := by omega
      rcases hno with hno | hno <;> simp [hno]
    · simp [hm]

theorem msiWrite_eie : (msiWrite c f n).eie = f.eie := by
  unfold msiWrite
  split <;> rfl

theorem msiWrite_eidelivery : (msiWrite c f n).eidelivery = f.eidelivery := by
  unfold msiWrite
  split <;> rfl

theorem msiWrite_eithreshold : (msiWrite c f n).eithreshold = f.eithreshold := by
  unfold msiWrite
  split <;> rfl

end

theorem geilen_of_wf {c : Config} (h : c.wf = true) : c.geilen ≤ 63 := by
  simp only [Config.wf, Config.geilenOk, Bool.and_eq_true, decide_eq_true_iff] at h
  omega

theorem applyMsi_eq (g n : Nat) (s : State) (h1 : 1 ≤ g) (h2 : g ≤ s.cfg.geilen) :
    applyMsi g n s = .next (setFileAt s g (msiWrite s.cfg (fileAt s g) n)) := if_pos ⟨h1, h2⟩

/-- Settles O39: the turn replaces file `g` by the one with the bit set. -/
theorem msiSetsOnePendingBit : Obligations.MsiSetsOnePendingBit := by
  intro g data rest s hwf h1 h2 ha
  obtain ⟨-, hids, -⟩ := numIds_of_wf s.cfg hwf
  have hg : g < 64 := by
    have := geilen_of_wf hwf
    omega
  have hsame : fileAt (s.setAgenda rest) g = fileAt s g := rfl
  have hturn := (step_env s _ rest ha).trans (applyMsi_eq g data.toNat (s.setAgenda rest) h1 h2)
  rw [hsame, State.setAgenda_cfg] at hturn
  have hfile : fileAt (setFileAt (s.setAgenda rest) g (msiWrite s.cfg (fileAt s g) data.toNat)) g =
      msiWrite s.cfg (fileAt s g) data.toNat := by
    rw [fileAt_setFileAt, if_pos ⟨rfl, hg⟩]
  refine ⟨_, hturn, rfl, ?_⟩
  rw [hfile]
  refine ⟨fun n _ => idBit_msiWrite s.cfg _ _ hids n, msiWrite_eie .., msiWrite_eidelivery .., msiWrite_eithreshold ..,
    fun k hk => ?_⟩
  rw [fileAt_setFileAt, if_neg fun h => hk h.1.symm]
  rfl

/-! ### Addressed writes -/

section
variable {c : Config} (h : c.wf = true)
include h

theorem fileAddr_of_wf : (∀ a ∈ c.fileAddr, a % 4096 = 0) ∧ c.fileAddr.Nodup := by
  have hok : c.fileAddrOk = true := by
    simp only [Config.wf, Bool.and_eq_true] at h
    tauto
  simp only [Config.fileAddrOk, Bool.and_eq_true, decide_eq_true_iff, List.all_eq_true, beq_iff_eq] at hok
  obtain ⟨⟨-, haligned⟩, hnodup⟩ := hok
  exact ⟨haligned, hnodup⟩

/-- R70: an address in the page of file `g` names that file. -/
theorem pageFile_of_page {g base addr : Nat} (h1 : 1 ≤ g) (hbase : c.fileAddr[g - 1]? = some base)
    (hpage : addr / 4096 = base / 4096) : pageFile addr 1 c.fileAddr = some g := by
  obtain ⟨haligned, hnodup⟩ := fileAddr_of_wf h
  rw [pageFile_of_getElem? addr base hpage c.fileAddr 1 (g - 1) hnodup haligned hbase]
  congr 1
  omega

theorem fileAddr_aligned {g base : Nat} (hbase : c.fileAddr[g - 1]? = some base) : base % 4096 = 0 :=
  (fileAddr_of_wf h).1 base (List.mem_of_getElem? hbase)

end

section
variable (addr g : Nat) (bytes : List Byte) (s : State) (hp : pageFile addr 1 s.cfg.fileAddr = some g)
include hp

/-- R62: a write of the form of an MSI to a file's page is the MSI of its data. -/
theorem applyBusWrite_page_msi (n : BitVec 32) (hb : msiWord addr bytes = some n) :
    applyBusWrite addr bytes s = applyMsi g n.toNat s := by
  rw [applyBusWrite, hp]
  simp only [hb]

/-- R68: another write to a file's page is refused. -/
theorem applyBusWrite_page_malformed (hb : msiWord addr bytes = none) :
    applyBusWrite addr bytes s = .refused (.msiForm addr) := by
  rw [applyBusWrite, hp]
  simp only [hb]

end

/-- R63, R68: a write to a mapped address has the form of an MSI write, or is refused. -/
theorem applyDeviceWrite_malformed (gpa : Nat) (bytes : List Byte) (f : FileRef) (s : State)
    (hf : s.iommu.lookup gpa = some f) (hb : msiWord gpa bytes = none) :
    applyDeviceWrite gpa bytes s = .refused (.msiForm gpa) := by
  rw [applyDeviceWrite, hf]
  simp only [hb]

theorem applyDeviceWrite_own_file (gpa g : Nat) (bytes : List Byte) (n : BitVec 32) (s : State)
    (hf : s.iommu.lookup gpa = some { hart := s.cfg.hartId, file := g }) (hb : msiWord gpa bytes = some n) :
    applyDeviceWrite gpa bytes s = applyMsi g n.toNat s := by
  rw [applyDeviceWrite, hf]
  simp only [hb, if_true]

/-- The turn of an MSI that is put before the agenda. -/
theorem step_msi_first (s : State) (g : Nat) (data : BitVec 32) (rest : List Turn) :
    step (s.setAgenda (.env (.msi g data) :: rest)) = applyMsi g data.toNat (s.setAgenda rest) := rfl

/-- Settles O41: the form of R68 decides between the MSI and the refusal. -/
theorem addressedWritesAreMsisOrRefused : Obligations.AddressedWritesAreMsisOrRefused := by
  intro g base addr gpa data bytes f rest s hwf h1 _ hbase
  refine ⟨fun ha => ?_, fun ha hpage hform => ?_, fun ha hal hf => ?_, fun ha hf hform => ?_⟩
  · rw [step_env s _ rest ha, step_msi_first, applyEvent,
      applyBusWrite_page_msi base g _ (s.setAgenda rest) (pageFile_of_page hwf h1 hbase rfl) data
        (msiWord_bytes base data (fileAddr_aligned hwf hbase))]
  · rw [step_env s _ rest ha, applyEvent,
      applyBusWrite_page_malformed addr g _ (s.setAgenda rest) (pageFile_of_page hwf h1 hbase hpage)
        ((msiWord_eq_none addr bytes).mpr hform)]
  · rw [step_env s _ rest ha, step_msi_first, applyEvent]
    exact applyDeviceWrite_own_file gpa g _ data (s.setAgenda rest) hf (msiWord_bytes gpa data hal)
  · rw [step_env s _ rest ha, applyEvent]
    exact applyDeviceWrite_malformed gpa bytes f (s.setAgenda rest) hf ((msiWord_eq_none gpa bytes).mpr hform)

/-! ### The claim of vstopei -/

/-- `x[rd]` and the pc are no part of a file. -/
theorem fileAt_advance_writeReg (rd : BitVec 5) (v : Word) (s : State) (g : Nat) :
    fileAt (advance (writeReg rd v s)) g = fileAt s g := by
  obtain ⟨x, hx⟩ := writeReg_eq rd v s
  rw [hx]
  rfl

theorem currentFile_advance_writeReg (rd : BitVec 5) (v : Word) (s : State) :
    currentFile (advance (writeReg rd v s)) = currentFile s := by
  obtain ⟨x, hx⟩ := writeReg_eq rd v s
  rw [hx]
  rfl

theorem claim_cfg (s : State) : (claim s).cfg = s.cfg := by
  rcases claim_eq s with h | ⟨f, h⟩ <;> rw [h]
  rfl

/-- A write attempt completes with the claim, rd taking what topei was. -/
theorem exec_vstopei_write (i : Instr) (n : BitVec 12) (s : State) (hi : csrField i = some n)
    (hw : writeAttempt i = true) (hc : check s n true = .pass .vstopei) :
    ∃ v, exec i s = .next (advance (writeReg (destination i) v (claim s))) ∧
      (destination i ≠ 0 → v = topei s.cfg (currentFile s)) := by
  obtain ⟨u, h | ⟨h0, h⟩⟩ := exec_csr_write i n s .vstopei hi hw hc
  · exact ⟨_, h, fun _ => rfl⟩
  · refine ⟨0, ?_, fun h1 => absurd h0 h1⟩
    rw [h, h0, writeReg_zero]
    rfl

/-- Settles O38: the read is pure, and every write is the claim of `claim_spec`. -/
theorem vstopeiReportsAndClaims : Obligations.VstopeiReportsAndClaims := by
  intro i n s hr hi hwf himsic hg
  have hfile : fileException s .vstopei = none := (vstopeiException_eq_none_iff s).mpr hg
  refine ⟨fun hw => ?_, fun hw hv => ?_⟩
  · have hc : check s n false = .pass .vstopei :=
      check_reachesBy s .vstopei 0x15C n false rfl hr himsic (fun h => by cases h) hfile
        fun _ _ => ⟨rfl, fun e => absurd e Bool.false_ne_true⟩
    rw [exec_csr_read i n s .vstopei hi hw hc]
    rfl
  · have hc : check s n true = .pass .vstopei :=
      check_reachesBy s .vstopei 0x15C n true rfl hr himsic (fun h => by cases h) hfile
        fun hm hvti => ⟨rfl, fun _ => ⟨rfl, hv hm hvti⟩⟩
    obtain ⟨v, hexec, hval⟩ := exec_vstopei_write i n s hi hw hc
    refine ⟨_, hexec, fun h0 => ?_, ?_⟩
    · have hread := readReg_writeReg_same (destination i) v (claim s) h0
      rw [claim_cfg, hval h0] at hread
      rw [hval h0]
      exact hread
    · simp only [currentFile_advance_writeReg, fileAt_advance_writeReg]
      exact claim_spec s (numIds_of_wf s.cfg hwf).2.1

end Sys2Proof.Machine
end

section
/-! Reads and writes of a guest interrupt file through vsireg and sireg (41_vs_csr_access.md R126-R131, R140), and the MSI
that arrives meanwhile (20_memory.md R69, R72). -/

namespace Sys2Proof.Machine

/-! ### The check -/

theorem fileSelected_iff (s : State) :
    fileSelected s = true ↔ vgeinValid s = true ∧ 0x70 ≤ s.vsiselect.toNat ∧ s.vsiselect.toNat ≤ 0xFF ∧
      (fileReg s.cfg s.vsiselect.toNat).isSome = true := by
  simp [fileSelected, and_assoc]

theorem fileSelected_of_fileReg (s : State) (r : FileReg) (hg : vgeinValid s = true) (hlo : 0x70 ≤ s.vsiselect.toNat)
    (hhi : s.vsiselect.toNat ≤ 0xFF) (hr : fileReg s.cfg s.vsiselect.toNat = some r) : fileSelected s = true :=
  (fileSelected_iff s).mpr ⟨hg, hlo, hhi, by rw [hr]; rfl⟩

/-- vsireg and sireg, a register of a file being selected. -/
theorem check_vsireg (s : State) (n : BitVec 12) (w : Bool) (hr : reachesBy s 0x251 0x151 n)
    (hsel : fileSelected s = true)
    (hv : s.mode = .VS → s.hvictl.vti = true → vtiNamed s.cfg 0x151 .vsireg = false) : check s n w = .pass .vsireg :=
  check_reachesBy s .vsireg 0x151 n w rfl hr rfl (fun h => by cases h) ((vsiregException_eq_none_iff s).mpr hsel)
    fun hm hvti => ⟨rfl, fun _ => ⟨rfl, hv hm hvti⟩⟩

theorem readVsireg_of_fileReg (s : State) (r : FileReg) (h : fileReg s.cfg s.vsiselect.toNat = some r) :
    readVsireg s = readFileReg s.cfg (currentFile s) r := by
  rw [readVsireg, h]

theorem writeVsireg_of_fileReg (s : State) (r : FileReg) (v : Word) (h : fileReg s.cfg s.vsiselect.toNat = some r) :
    writeVsireg v s = writeFileReg r v s := by
  rw [writeVsireg, h]

/-! ### eidelivery and eithreshold -/

section
variable {s : State} {n : BitVec 12} (rd rs1 : BitVec 5) (hcheck : ∀ w, check s n w = .pass .vsireg)
include hcheck

theorem exec_vsireg_read : exec (.csrrs rd n 0) s = .next (advance (writeReg rd (readVsireg s) s)) :=
  exec_csrrs_x0 rd (hcheck false)

theorem exec_vsireg_write :
    exec (.csrrw 0 n rs1) s = .next (advance (writeVsireg (readReg rs1 s &&& s.cfg.xmask) s)) :=
  exec_csrrw_x0 rs1 (hcheck true)

/-- R129: 0 and 1 set eidelivery, another value leaves it to the draw. -/
theorem exec_eidelivery (hreg : fileReg s.cfg s.vsiselect.toNat = some .eidelivery) :
    exec (.csrrs rd n 0) s = .next (advance (writeReg rd (if (currentFile s).eidelivery then 1 else 0) s)) ∧
      (readReg rs1 s &&& s.cfg.xmask = 0 → exec (.csrrw 0 n rs1) s =
        .next (advance (setCurrentFile s { currentFile s with eidelivery := false }))) ∧
      (readReg rs1 s &&& s.cfg.xmask = 1 → exec (.csrrw 0 n rs1) s =
        .next (advance (setCurrentFile s { currentFile s with eidelivery := true }))) ∧
      (readReg rs1 s &&& s.cfg.xmask ≠ 0 → readReg rs1 s &&& s.cfg.xmask ≠ 1 → ∃ b, exec (.csrrw 0 n rs1) s =
        .next (advance ((setCurrentFile s { currentFile s with eidelivery := b }).setDraws (s.draws + 1)))) := by
  have hwrite := exec_vsireg_write rs1 hcheck
  rw [writeVsireg_of_fileReg s _ _ hreg, writeFileReg] at hwrite
  refine ⟨?_, fun h => ?_, fun h => ?_, fun h0 h1 => ⟨(takeFree s).1.getLsbD 0, ?_⟩⟩
  · rw [exec_vsireg_read rd hcheck, readVsireg_of_fileReg s _ hreg, readFileReg]
    cases (currentFile s).eidelivery <;> rfl
  · rw [hwrite, if_pos h]
  · rw [hwrite, if_neg (by rw [h]; decide), if_pos h]
  · rw [hwrite, if_neg h0, if_neg h1]
    rfl

/-- R129: eithreshold keeps the bits of an identity. -/
theorem exec_eithreshold (hids : 2 ≤ s.cfg.numIds ∧ s.cfg.numIds ≤ 2048)
    (hreg : fileReg s.cfg s.vsiselect.toNat = some .eithreshold) :
    exec (.csrrs rd n 0) s = .next (advance (writeReg rd (currentFile s).eithreshold s)) ∧
      ∃ v, exec (.csrrw 0 n rs1) s = .next (advance (setCurrentFile s { currentFile s with eithreshold := v })) ∧
        v.toNat = (readReg rs1 s &&& s.cfg.xmask).toNat % 2 ^ Nat.clog 2 s.cfg.numIds := by
  have hbits : ceilLog2 s.cfg.numIds ≤ 64 := by
    rw [ceilLog2_eq_clog _ hids.1, Nat.clog_le_iff_le_pow (by decide)]
    omega
  refine ⟨?_, (readReg rs1 s &&& s.cfg.xmask) &&& lowMask (ceilLog2 s.cfg.numIds), ?_, ?_⟩
  · rw [exec_vsireg_read rd hcheck, readVsireg_of_fileReg s _ hreg, readFileReg]
  · rw [exec_vsireg_write rs1 hcheck, writeVsireg_of_fileReg s _ _ hreg, writeFileReg]
  · rw [toNat_and_lowMask _ _ hbits, ceilLog2_eq_clog _ hids.1]

end

/-! ### An array register: identities and bits -/

section
variable {s : State} {high : Bool} {lo hi j k : Nat} (hwf : s.cfg.wf = true) (hb : holdsBits s.cfg high lo hi)
  (hk : 64 * k + lo = 32 * j) (hj : 32 * j < s.cfg.numIds) (a : Vector (BitVec 64) 32)
include hwf hb hk hj

/-- R131: an array register written takes every identity that it holds and that is implemented. -/
theorem idBit_arrayWritten (v : Word) (m : Nat) :
    idBit (setArrayWord a k ((halfOf s.cfg high).write (idMask s.cfg k) (arrayWord a k) (v &&& s.cfg.xmask))) m =
      if 32 * j ≤ m ∧ m < 32 * j + s.cfg.xlenBits ∧ 1 ≤ m ∧ m < s.cfg.numIds then v.getLsbD (m - 32 * j)
      else idBit a m := by
  obtain ⟨hlen, hlt, h64, -, -⟩ := holdsBits_range s.cfg high lo hi hb
  obtain ⟨-, hids, -⟩ := numIds_of_wf s.cfg hwf
  have hmod : m % 64 < 64 := Nat.mod_lt m (by decide)
  rw [idBit_setArrayWord a k m _ (by omega)]
  by_cases hm : m / 64 = k
  · have hback : m % 64 - lo = m - 32 * j := by omega
    have hid : 64 * k + m % 64 = m := by omega
    rw [if_pos hm, getLsbD_halfOf_write hb _ _ _ _ hmod, hback, idBit, hm]
    refine if_congr ?_ rfl rfl
    rw [getLsbD_idMask _ hwf _ _ hmod, hid, decide_eq_true_iff]
    omega
  · rw [if_neg hm, if_neg (by omega)]

omit hj in
/-- R130: an array register read gives the identities that it holds and that are implemented. -/
theorem getLsbD_arrayRead (m : Nat) (hm : m < 64) :
    ((halfOf s.cfg high).get (arrayWord a k &&& idMask s.cfg k)).getLsbD m =
      (decide (m < s.cfg.xlenBits ∧ 1 ≤ 32 * j + m ∧ 32 * j + m < s.cfg.numIds) && idBit a (32 * j + m)) := by
  obtain ⟨hlen, hlt, h64, -, -⟩ := holdsBits_range s.cfg high lo hi hb
  rw [halfOf, getLsbD_half_get s.cfg high lo hi hb _ m hm]
  by_cases hin : lo + m < hi
  · have hdiv : (32 * j + m) / 64 = k := by omega
    have hmod : (32 * j + m) % 64 = lo + m := by omega
    have hid : 64 * k + (lo + m) = 32 * j + m := by omega
    have hxlen : m < s.cfg.xlenBits := by omega
    rw [BitVec.getLsbD_and, getLsbD_idMask _ hwf _ _ (by omega), idBit, hdiv, hmod, hid, Bool.and_comm (arrayWord a k |>.getLsbD _)]
    simp only [hin, hxlen, true_and, decide_true, Bool.true_and]
  · have hxlen : ¬ m < s.cfg.xlenBits := by omega
    simp [hin, hxlen]

end

/-! ### The register that is selected -/

/-- vsireg reaches the part `p` of word `k` of the array `arr` of the current file, and leaves the array `other`. -/
structure SelectsArray (s : State) (arr other : IntrFile → Vector (BitVec 64) 32) (k : Nat) (p : Half) : Prop where
  selected : fileSelected s = true
  read : readVsireg s = p.get (arrayWord (arr (currentFile s)) k &&& idMask s.cfg k)
  write : ∀ v, ∃ f, writeVsireg v s = setCurrentFile s f ∧
    arr f = setArrayWord (arr (currentFile s)) k (p.write (idMask s.cfg k) (arrayWord (arr (currentFile s)) k) v) ∧
    other f = other (currentFile s) ∧ f.eidelivery = (currentFile s).eidelivery ∧
    f.eithreshold = (currentFile s).eithreshold

theorem selectsArray_eip {s : State} {k : Nat} {p : Half} (hsel : fileSelected s = true)
    (hr : fileReg s.cfg s.vsiselect.toNat = some (.eip k p)) : SelectsArray s IntrFile.eip IntrFile.eie k p where
  selected := hsel
  read := readVsireg_of_fileReg s _ hr
  write v := ⟨_, writeVsireg_of_fileReg s _ v hr, rfl, rfl, rfl, rfl⟩

theorem selectsArray_eie {s : State} {k : Nat} {p : Half} (hsel : fileSelected s = true)
    (hr : fileReg s.cfg s.vsiselect.toNat = some (.eie k p)) : SelectsArray s IntrFile.eie IntrFile.eip k p where
  selected := hsel
  read := readVsireg_of_fileReg s _ hr
  write v := ⟨_, writeVsireg_of_fileReg s _ v hr, rfl, rfl, rfl, rfl⟩

/-- The select values 0x80 + j and 0xC0 + j select array register j, where that exists (R48). -/
theorem selectsArray_of_vsiselect {s : State} {j sel : Nat} {arr other : IntrFile → Vector (BitVec 64) 32}
    (hg : vgeinValid s = true) (hids : s.cfg.numIds ≤ 2048)
    (hmem : (sel, arr, other) ∈ [(0x80, IntrFile.eip, IntrFile.eie), (0xC0, IntrFile.eie, IntrFile.eip)])
    (hj : 32 * j < s.cfg.numIds) (heven : s.cfg.xlen = .rv64 → j % 2 = 0)
    (hsel : s.vsiselect = BitVec.ofNat 64 (sel + j)) :
    ∃ high lo hi k, holdsBits s.cfg high lo hi ∧ 64 * k + lo = 32 * j ∧
      SelectsArray s arr other k (halfOf s.cfg high) := by
  obtain ⟨high, lo, hi, hb, hpart, hk⟩ := arrayPart_holds s.cfg j hj heven
  refine ⟨high, lo, hi, j / 2, hb, hk, ?_⟩
  have hj64 : j < 64 := by omega
  simp only [List.mem_cons, List.not_mem_nil, or_false, Prod.mk.injEq] at hmem
  rcases hmem with ⟨rfl, rfl, rfl⟩ | ⟨rfl, rfl, rfl⟩
  · have hnat : s.vsiselect.toNat = 0x80 + j := by
      rw [hsel, BitVec.toNat_ofNat]
      omega
    have hreg : fileReg s.cfg s.vsiselect.toNat = some (.eip (j / 2) (halfOf s.cfg high)) := by
      rw [hnat, fileReg_of_eip s.cfg j hj64, hpart]
      rfl
    exact selectsArray_eip (fileSelected_of_fileReg s _ hg (by omega) (by omega) hreg) hreg
  · have hnat : s.vsiselect.toNat = 0xC0 + j := by
      rw [hsel, BitVec.toNat_ofNat]
      omega
    have hreg : fileReg s.cfg s.vsiselect.toNat = some (.eie (j / 2) (halfOf s.cfg high)) := by
      rw [hnat, fileReg_of_eie s.cfg j hj64, hpart]
      rfl
    exact selectsArray_eie (fileSelected_of_fileReg s _ hg (by omega) (by omega) hreg) hreg

theorem setFileAt_fileAt (s : State) (g : Nat) : setFileAt s g (fileAt s g) = s := by
  have hfiles : s.files.setIfInBounds g (fileAt s g) = s.files := by
    ext i hi : 1
    rw [Vector.getElem_setIfInBounds]
    split
    · next h =>
      subst h
      rw [fileAt, Vector.getElem?_eq_getElem hi]
      rfl
    · rfl
  rw [setFileAt_eq, hfiles]
  rfl

theorem setCurrentFile_currentFile (s : State) : setCurrentFile s (currentFile s) = s := setFileAt_fileAt s _

/-! ### The three instructions on a selected register -/

/-- csrrw, csrrs and csrrc write the value read changed bit by bit; csrrs and csrrc with rs1 = x0 write nothing, which
is the same (R101-R103). -/
theorem exec_vsireg_new {s : State} {n : BitVec 12} (rd rs1 : BitVec 5) (hcheck : ∀ w, check s n w = .pass .vsireg)
    (i : Instr) (new : Bool → Bool → Bool)
    (hmem : (i, new) ∈ [(.csrrw rd n rs1, fun _ b => b), (.csrrs rd n rs1, fun a b => a || b),
      (.csrrc rd n rs1, fun a b => a && !b)]) :
    ∃ t, exec i s = .next (advance (writeReg rd (readVsireg s) t)) ∧
      ((∃ v, t = writeVsireg (v &&& s.cfg.xmask) s ∧
          ∀ m, m < 64 → v.getLsbD m = new ((readVsireg s).getLsbD m) ((readReg rs1 s).getLsbD m)) ∨
        (t = s ∧ ∀ m b, new b ((readReg rs1 s).getLsbD m) = b)) := by
  simp only [List.mem_cons, List.not_mem_nil, or_false, Prod.mk.injEq] at hmem
  rcases hmem with ⟨rfl, rfl⟩ | ⟨rfl, rfl⟩ | ⟨rfl, rfl⟩
  · exact ⟨_, csrExec_write_pure rd _ _ (hcheck true) rfl, .inl ⟨readReg rs1 s, rfl, fun _ _ => rfl⟩⟩
  · by_cases h0 : rs1 = 0
    · subst h0
      exact ⟨s, exec_csrrs_x0 rd (hcheck false), .inr ⟨rfl, fun m b => by rw [readReg_zero]; simp⟩⟩
    · exact ⟨_, csrExec_read_writes _ _ _ _ _ _ _ (hcheck true) h0,
        .inl ⟨_, rfl, fun m _ => BitVec.getLsbD_or⟩⟩
  · by_cases h0 : rs1 = 0
    · subst h0
      exact ⟨s, csrExec_read_zero _ _ _ _ _ _ (hcheck false), .inr ⟨rfl, fun m b => by rw [readReg_zero]; simp⟩⟩
    · refine ⟨_, csrExec_read_writes _ _ _ _ _ _ _ (hcheck true) h0, .inl ⟨_, rfl, fun m hm => ?_⟩⟩
      rw [BitVec.getLsbD_and, BitVec.getLsbD_not]
      simp [hm]
      rfl

section
variable {s : State} {n : BitVec 12} {high : Bool} {lo hi j k : Nat} {arr other : IntrFile → Vector (BitVec 64) 32}
  (hwf : s.cfg.wf = true) (hb : holdsBits s.cfg high lo hi) (hk : 64 * k + lo = 32 * j) (hj : 32 * j < s.cfg.numIds)
  (hs : SelectsArray s arr other k (halfOf s.cfg high)) (hcheck : ∀ w, check s n w = .pass .vsireg) (rd rs1 : BitVec 5)
include hwf hb hk hj hs hcheck

/-- Each of the three instructions replaces the current file by one that differs in the implemented identities the
register holds, each changed by the bit of the source (R131). -/
theorem exec_array_new (i : Instr) (new : Bool → Bool → Bool)
    (hmem : (i, new) ∈ [(.csrrw rd n rs1, fun _ b => b), (.csrrs rd n rs1, fun a b => a || b),
      (.csrrc rd n rs1, fun a b => a && !b)]) :
    ∃ f, exec i s = .next (advance (writeReg rd (readVsireg s) (setCurrentFile s f))) ∧
      (∀ m, idBit (arr f) m =
        if 32 * j ≤ m ∧ m < 32 * j + s.cfg.xlenBits ∧ 1 ≤ m ∧ m < s.cfg.numIds
        then new (idBit (arr (currentFile s)) m) ((readReg rs1 s).getLsbD (m - 32 * j))
        else idBit (arr (currentFile s)) m) ∧
      other f = other (currentFile s) ∧ f.eidelivery = (currentFile s).eidelivery ∧
      f.eithreshold = (currentFile s).eithreshold := by
  obtain ⟨t, ht, ⟨v, rfl, hv⟩ | ⟨rfl, hv⟩⟩ := exec_vsireg_new rd rs1 hcheck i new hmem
  · obtain ⟨f, hf, harr, hother, hd, hth⟩ := hs.write (v &&& s.cfg.xmask)
    obtain ⟨hlen, hlt, h64, -, -⟩ := holdsBits_range s.cfg high lo hi hb
    rw [hf] at ht
    refine ⟨f, ht, fun m => ?_, hother, hd, hth⟩
    rw [harr, idBit_arrayWritten hwf hb hk hj]
    refine ite_congr rfl (fun hin => ?_) fun _ => rfl
    have hback : 32 * j + (m - 32 * j) = m := by omega
    have hbit : (readVsireg s).getLsbD (m - 32 * j) = idBit (arr (currentFile s)) m := by
      rw [hs.read, getLsbD_arrayRead hwf hb hk _ _ (by omega), hback, decide_eq_true (by omega), Bool.true_and]
    rw [hv _ (by omega), hbit]
  · refine ⟨currentFile t, ?_, fun m => ?_, rfl, rfl, rfl⟩
    · rw [setCurrentFile_currentFile]
      exact ht
    · rw [hv, ite_self]

end

/-- The state after each of the three instructions, by the bits of the array: nothing else of any file changes. -/
theorem exec_array_frame {s : State} {n : BitVec 12} {high : Bool} {lo hi j k : Nat}
    {arr other : IntrFile → Vector (BitVec 64) 32} (hwf : s.cfg.wf = true) (hb : holdsBits s.cfg high lo hi)
    (hk : 64 * k + lo = 32 * j) (hj : 32 * j < s.cfg.numIds) (hs : SelectsArray s arr other k (halfOf s.cfg high))
    (hcheck : ∀ w, check s n w = .pass .vsireg) (rd rs1 : BitVec 5) (i : Instr) (new : Bool → Bool → Bool)
    (hmem : (i, new) ∈ [(.csrrw rd n rs1, fun _ b => b), (.csrrs rd n rs1, fun a b => a || b),
      (.csrrc rd n rs1, fun a b => a && !b)]) :
    ∃ t, exec i s = .next t ∧
      (∀ m, m < 2048 → idBit (arr (currentFile t)) m =
        if 32 * j ≤ m ∧ m < 32 * j + s.cfg.xlenBits ∧ 1 ≤ m ∧ m < s.cfg.numIds
        then new (idBit (arr (currentFile s)) m) ((readReg rs1 s).getLsbD (m - 32 * j))
        else idBit (arr (currentFile s)) m) ∧
      other (currentFile t) = other (currentFile s) ∧ (currentFile t).eidelivery = (currentFile s).eidelivery ∧
      (currentFile t).eithreshold = (currentFile s).eithreshold ∧
      ∀ g, g ≠ s.vgein.toNat → fileAt t g = fileAt s g := by
  obtain ⟨f, hf, harr, hother, hd, hth⟩ := exec_array_new hwf hb hk hj hs hcheck rd rs1 i new hmem
  refine ⟨_, hf, ?_⟩
  rw [currentFile_advance_writeReg, currentFile_setCurrentFile]
  refine ⟨fun m _ => harr m, hother, hd, hth, fun g hg => ?_⟩
  rw [fileAt_advance_writeReg, fileAt_setCurrentFile_other s f g hg]

/-- csrrs x0 on an array of pending bits gives the current file with the bits of the source added. -/
theorem exec_eip_csrrs {s : State} {n : BitVec 12} {high : Bool} {lo hi j k : Nat} (hwf : s.cfg.wf = true)
    (hb : holdsBits s.cfg high lo hi) (hk : 64 * k + lo = 32 * j) (hj : 32 * j < s.cfg.numIds)
    (hs : SelectsArray s IntrFile.eip IntrFile.eie k (halfOf s.cfg high)) (hcheck : ∀ w, check s n w = .pass .vsireg)
    (rs1 : BitVec 5) :
    ∃ f, exec (.csrrs 0 n rs1) s = .next (advance (setCurrentFile s f)) ∧
      (∀ m, idBit f.eip m = (idBit (currentFile s).eip m ||
        (decide (32 * j ≤ m ∧ m < 32 * j + s.cfg.xlenBits ∧ 1 ≤ m ∧ m < s.cfg.numIds) &&
          (readReg rs1 s).getLsbD (m - 32 * j)))) ∧
      f.eie = (currentFile s).eie ∧ f.eidelivery = (currentFile s).eidelivery ∧
      f.eithreshold = (currentFile s).eithreshold := by
  obtain ⟨f, hf, harr, hrest⟩ := exec_array_new hwf hb hk hj hs hcheck 0 rs1 _ _
    (List.mem_cons_of_mem _ (List.mem_cons_self ..))
  rw [writeReg_zero] at hf
  refine ⟨f, hf, fun m => ?_, hrest⟩
  rw [harr]
  split
  · next h => rw [decide_eq_true h, Bool.true_and]
  · next h => rw [decide_eq_false h, Bool.false_and, Bool.or_false]

/-! ### The obligations -/

/-- R62: the bit of one identity, put in its place of the register that holds it. -/
theorem getLsbD_ofNat_two_pow (w i : Nat) (hw : w < 64) : (BitVec.ofNat 64 (2 ^ w)).getLsbD i = decide (i = w) := by
  rw [BitVec.getLsbD_ofNat, Nat.testBit_two_pow]
  by_cases h : i = w
  · subst h
    simp [hw]
  · simp [h, Ne.symm h]

/-- The array register of an identity: it starts at a multiple of XLEN. -/
theorem identity_register (c : Config) (m : Nat) :
    32 * ((c.xlenBits / 32) * (m / c.xlenBits)) + m % c.xlenBits = m ∧ m % c.xlenBits < c.xlenBits ∧ c.xlenBits ≤ 64 ∧
      (c.xlen = .rv64 → (c.xlenBits / 32) * (m / c.xlenBits) % 2 = 0) := by
  unfold Config.xlenBits
  cases c.xlen <;> simp <;> omega

/-- R62: csrrs of the bit of one identity is the MSI write of it. -/
theorem exec_injection {s : State} {n : BitVec 12} (hwf : s.cfg.wf = true) (hg : vgeinValid s = true)
    (hcheck : fileSelected s = true → ∀ w, check s n w = .pass .vsireg) (rs1 : BitVec 5) (k : Nat) (h1 : 1 ≤ k)
    (hlt : k < s.cfg.numIds)
    (hsel : s.vsiselect = BitVec.ofNat 64 (0x80 + (s.cfg.xlenBits / 32) * (k / s.cfg.xlenBits)))
    (hr : readReg rs1 s = BitVec.ofNat 64 (2 ^ (k % s.cfg.xlenBits))) :
    exec (.csrrs 0 n rs1) s = .next (advance (setCurrentFile s (msiWrite s.cfg (currentFile s) k))) := by
  obtain ⟨-, hids, -⟩ := numIds_of_wf s.cfg hwf
  obtain ⟨hreg, hmod, hx, heven⟩ := identity_register s.cfg k
  generalize (s.cfg.xlenBits / 32) * (k / s.cfg.xlenBits) = j at hsel hreg heven
  have hj : 32 * j < s.cfg.numIds := by omega
  obtain ⟨high, lo, hi, w, hb, hw, hs⟩ := selectsArray_of_vsiselect hg hids (List.mem_cons_self ..) hj heven hsel
  obtain ⟨f, hf, heip, heie, hd, hth⟩ := exec_eip_csrrs hwf hb hw hj hs (hcheck hs.selected) rs1
  have hfile : f = msiWrite s.cfg (currentFile s) k := by
    refine intrFile_ext (hd.trans (msiWrite_eidelivery ..).symm) (hth.trans (msiWrite_eithreshold ..).symm)
      (array_ext_idBit _ _ fun m _ => ?_) (heie.trans (msiWrite_eie ..).symm)
    rw [heip, idBit_msiWrite _ _ _ hids, hr, getLsbD_ofNat_two_pow _ _ (by omega)]
    congr 1
    rw [← Bool.decide_and, ← Bool.decide_and, ← Bool.decide_and]
    exact decide_eq_decide.mpr (by omega)
  rw [hf, hfile]

/-- Settles O37, register by register. -/
theorem vsiregReachesGuestFile : Obligations.VsiregReachesGuestFile := by
  intro rd rs1 n s hr hwf hg hv
  have hids := numIds_of_wf s.cfg hwf
  have hcheck : fileSelected s = true → ∀ w, check s n w = .pass .vsireg := fun hsel w => check_vsireg s n w hr hsel hv
  refine ⟨fun hsel => ?_, fun hsel => ?_, fun j sel arr other hmem hj heven hsel => ?_,
    fun k h1 hlt hsel hrs => exec_injection hwf hg hcheck rs1 k h1 hlt hsel hrs⟩
  · have hreg : fileReg s.cfg s.vsiselect.toNat = some .eidelivery := by
      rw [hsel]
      rfl
    exact exec_eidelivery rd rs1 (hcheck (fileSelected_of_fileReg s _ hg (by simp [hsel]) (by simp [hsel]) hreg)) hreg
  · have hreg : fileReg s.cfg s.vsiselect.toNat = some .eithreshold := by
      rw [hsel]
      rfl
    exact exec_eithreshold rd rs1 (hcheck (fileSelected_of_fileReg s _ hg (by simp [hsel]) (by simp [hsel]) hreg))
      (by omega) hreg
  · obtain ⟨high, lo, hi, w, hb, hw, hs⟩ := selectsArray_of_vsiselect hg hids.2.1 hmem hj heven hsel
    have hc := hcheck hs.selected
    refine ⟨⟨_, exec_vsireg_read rd hc, fun m hm => ?_⟩, exec_array_frame hwf hb hw hj hs hc rd rs1⟩
    rw [hs.read, getLsbD_arrayRead hwf hb hw _ m hm]

/-- A selected array register of pending bits holds one CSR's part of a word of the array. -/
theorem fileReg_eip_holds {s : State} {k : Nat} {h : Half}
    (hr : fileReg s.cfg s.vsiselect.toNat = some (.eip k h)) :
    ∃ high lo hi j, holdsBits s.cfg high lo hi ∧ 64 * k + lo = 32 * j ∧ 32 * j < s.cfg.numIds ∧ h = halfOf s.cfg high := by
  obtain ⟨j, -, -, hpart⟩ := fileReg_eip s.cfg _ k h hr
  obtain ⟨hj, heven⟩ := arrayPart_exists s.cfg j _ hpart
  obtain ⟨high, lo, hi, hb, hpart', hk⟩ := arrayPart_holds s.cfg j hj heven
  rw [hpart] at hpart'
  obtain ⟨rfl, rfl⟩ := Prod.mk.inj (Option.some.inj hpart')
  exact ⟨high, lo, hi, j, hb, hk, hj, rfl⟩

theorem setFileAt_advance (s : State) (g : Nat) (f : IntrFile) : setFileAt (advance s) g f = advance (setFileAt s g f) := by
  cases s
  rfl

/-- R72: adding bits to a file and an MSI to it commute. -/
theorem msiWrite_comm_set {c : Config} (hc : c.numIds ≤ 2048) {f f' g : IntrFile} {n : Nat} {b : Nat → Bool}
    (hf : ∀ m, idBit f'.eip m = (idBit f.eip m || b m)) (hfe : f'.eie = f.eie) (hfd : f'.eidelivery = f.eidelivery)
    (hft : f'.eithreshold = f.eithreshold) (hg : ∀ m, idBit g.eip m = (idBit (msiWrite c f n).eip m || b m))
    (hge : g.eie = (msiWrite c f n).eie) (hgd : g.eidelivery = (msiWrite c f n).eidelivery)
    (hgt : g.eithreshold = (msiWrite c f n).eithreshold) : g = msiWrite c f' n := by
  refine intrFile_ext ?_ ?_ (array_ext_idBit _ _ fun m _ => ?_) ?_
  · rw [hgd, msiWrite_eidelivery, msiWrite_eidelivery, hfd]
  · rw [hgt, msiWrite_eithreshold, msiWrite_eithreshold, hft]
  · rw [hg, idBit_msiWrite c f n hc, idBit_msiWrite c f' n hc, hf, Bool.or_right_comm]
  · rw [hge, msiWrite_eie, msiWrite_eie, hfe]

/-- Settles O40: both orders end in the file with the bits of the source and the bit of the MSI. -/
theorem csrrsLosesNoArrivingMsi : Obligations.CsrrsLosesNoArrivingMsi := by
  intro rs1 n k h s hm hlegal _ hsel hreg h1 hn
  have hwf : s.cfg.wf = true := ((legal_iff_isLegal s).mp hlegal).wf
  obtain ⟨-, hids, -⟩ := numIds_of_wf s.cfg hwf
  obtain ⟨high, lo, hi, j, hb, hk, hj, rfl⟩ := fileReg_eip_holds hreg
  obtain ⟨hg1, hg2⟩ := (vgeinValid_iff s).mp ((fileSelected_iff s).mp hsel).1
  have hcheck : ∀ t, t.mode = s.mode → fileSelected t = true → ∀ w, check t 0x251 w = .pass .vsireg := by
    intro t ht hselt w
    have hyp : hypervisorMode t = true := by rw [hypervisorMode, ht]; exact hm
    refine check_vsireg t 0x251 w (.inl ⟨hyp, rfl⟩) hselt fun hvs => ?_
    rw [hypervisorMode, hvs] at hyp
    cases hyp
  set u := setCurrentFile s (msiWrite s.cfg (currentFile s) n) with hu
  have hselu : fileSelected u = true := hsel
  obtain ⟨f, hf, hfp, hfe, hfd, hft⟩ := exec_eip_csrrs hwf hb hk hj (selectsArray_eip hsel hreg) (hcheck s rfl hsel) rs1
  obtain ⟨f', hf', hfp', hfe', hfd', hft'⟩ :=
    exec_eip_csrrs (s := u) hwf hb hk hj (selectsArray_eip hselu hreg) (hcheck u rfl hselu) rs1
  rw [hu, currentFile_setCurrentFile] at hfp' hfe' hfd' hft'
  have hfile : f' = msiWrite s.cfg f n := msiWrite_comm_set hids hfp hfe hfd hft hfp' hfe' hfd' hft'
  have hv : setFileAt (advance (setCurrentFile s f)) s.vgein.toNat (msiWrite s.cfg f n) = advance (setCurrentFile u f') := by
    rw [setFileAt_advance, setCurrentFile, setFileAt_setFileAt, hfile]
    exact congrArg advance (setFileAt_setFileAt s _ _ _).symm
  refine ⟨_, u, _, hf, ?_, applyMsi_eq _ _ s hg1 hg2, hf', ?_⟩
  · have hcur : fileAt (advance (setCurrentFile s f)) s.vgein.toNat = f := currentFile_setCurrentFile s f
    rw [← hv]
    refine (applyMsi_eq _ n (advance (setCurrentFile s f)) hg1 hg2).trans ?_
    rw [hcur]
    rfl
  · have hcur : currentFile (advance (setCurrentFile u f')) = f' := currentFile_setCurrentFile u f'
    rw [hcur, hfile, idBit_msiWrite s.cfg f n hids]
    simp [h1, hn]

end Sys2Proof.Machine
end
